-- ==== Sys2Proof/Word.lean ====
section
/-! DEFINITION. The word types of the template decoder (00_scope.md R6, R8): bytes, buffer offsets, CSR words. -/

namespace Sys2Proof

/-- A byte of the input stream, bit 7 its most significant bit (R8). -/
abbrev Byte := BitVec 8

/-- A byte offset into BUF. Its width w is BUF_LEN_W, a parameter whose default is 16 (R6; 93_implementation_defined.md
U19): a type or operation written without it is the default block's. -/
abbrev Offset (w : Nat := 16) := BitVec w

/-- A control and status register word, CSR_W = 32 bits wide (R6). -/
abbrev CsrWord := BitVec 32

end Sys2Proof
end

