-- ==== Sys2Proof/Syntax.lean ====
section
/-! DEFINITION. The instructions of spec/opcode_table.json as data: one constructor per row, each operand a field of the
row's encoding (30_encoding.md R104, 43_templates.md R230, R231). -/

namespace Sys2Proof

/-- The displacement bytes an instruction carries (30_encoding.md R107): none, one raw byte, or two bytes, given as the
16-bit value (high, low) they stand for. -/
inductive Disp where
  | none
  | byte (lo : Byte)
  | word (v : BitVec 16)
deriving DecidableEq, Repr

/-- The instructions the default ROM decodes (43_templates.md). -/
inductive Instr where
  /-- MOV, `1100011w mmrrrbbb [disp]` (R230). -/
  | mov (w : BitVec 1) (mod : BitVec 2) (reg rm : BitVec 3) (disp : Disp)
  /-- PUSH, `11111111 mm110bbb [disp]`; W = 1 and D = 1 are implied, not encoded (R231). -/
  | push (mod : BitVec 2) (rm : BitVec 3) (disp : Disp)
deriving DecidableEq, Repr

end Sys2Proof
end

