-- ==== Sys2Proof/Machine/AddrMode.lean ====
section
/-! DEFINITION. The displacement as MOD and RM select it (41_field_elements.md R165, 30_encoding.md R107), and the value
and length a displacement is reported with. -/

namespace Sys2Proof.Machine

/-- DIRECT_ADDR_RM of the default design (00_scope.md R6). -/
def directAddrRm : BitVec 3 := 0b110

/-- DispLen(mod, rm), the number of displacement bytes (41_field_elements.md R165), for a design whose direct-address
escape is esc. -/
def dispLen (esc : BitVec 3) (mod : BitVec 2) (rm : BitVec 3) : BitVec 2 :=
  if mod = 0b11 then 0
  else if mod = 0b00 then (if rm = esc then 2 else 0)
  else if mod = 0b01 then 1
  else 2

/-- The number of bytes a displacement has. -/
def dispBytes : Disp → Nat
  | .none => 0
  | .byte _ => 1
  | .word _ => 2

/-- DISP_LEN of a displacement (10_state.md R32). -/
def dispLenOf (d : Disp) : BitVec 2 := BitVec.ofNat 2 (dispBytes d)

/-- DISP of a displacement: the raw byte zero-extended, never sign-extended, or the 16-bit value (R107, R166). -/
def dispValue : Disp → BitVec 16
  | .none => 0
  | .byte lo => lo.setWidth 16
  | .word v => v

end Sys2Proof.Machine
end

