-- ==== Sys2Proof/WellFormed.lean ====
section
/-! DEFINITION. The instructions the encoding admits: every operand fits its field by its type, and the displacement has
exactly the length MOD and RM select (30_encoding.md R107). -/

namespace Sys2Proof

/-- The displacement has the length DispLen(mod, rm) gives (30_encoding.md R107, R110). -/
def Disp.fits (mod : BitVec 2) (rm : BitVec 3) (d : Disp) : Bool :=
  Machine.dispLenOf d == Machine.dispLen Machine.directAddrRm mod rm

/-- The instruction is one that the default ROM can decode. -/
def Instr.wellFormed : Instr → Bool
  | .mov _ mod _ rm disp => disp.fits mod rm
  | .push mod rm disp => disp.fits mod rm

end Sys2Proof
end

