-- ==== Sys2Proof/Decode.lean ====
section
/-! DEFINITION. The decoder and the encoder of the default ROM's two instructions, written from the opcode map
(30_encoding.md R104, R105, R107, R110, R111), independently of the template engine of Machine/Engine.lean. -/

namespace Sys2Proof

/-- Why a byte sequence spells no instruction: no template's literals match it, or at least one template ran out of
input in it (30_encoding.md R111, 60_exceptions.md R253: the flag the failure carries). -/
inductive Reject where
  | noMatch
  | endOfInput
deriving DecidableEq, Repr

/-- The decoder's answer: an instruction with the bytes after it, or a rejection by name. -/
inductive Decoded where
  | ok (i : Instr) (rest : List Byte)
  | reject (r : Reject)
deriving DecidableEq, Repr

/-- Take n displacement bytes, low byte first (41_field_elements.md R166); none when they are not all there. -/
def takeDisp (n : BitVec 2) (bs : List Byte) : Option (Disp × List Byte) :=
  match n.toNat, bs with
  | 0, rest => some (.none, rest)
  | 1, lo :: rest => some (.byte lo, rest)
  | 2, lo :: hi :: rest => some (.word (hi ++ lo), rest)
  | _, _ => none

/-- Finish an instruction whose ModRM byte gave mod and rm, with the displacement they select. -/
def withDisp (mod : BitVec 2) (rm : BitVec 3) (bs : List Byte) (mk : Disp → Instr) : Decoded :=
  match takeDisp (Machine.dispLen Machine.directAddrRm mod rm) bs with
  | some (d, rest) => .ok (mk d) rest
  | none => .reject .endOfInput

/-- MOV's opcode byte, `1100011w` (30_encoding.md R104). -/
def isMovByte (b : Byte) : Bool := b.extractLsb' 1 7 == 0b1100011#7

/-- PUSH's opcode byte, `11111111` (30_encoding.md R104). -/
def isPushByte (b : Byte) : Bool := b == 0xFF#8

/-- The decoder: the instruction at the head of a byte list, or a rejection by name (30_encoding.md R110, R111). -/
def decode : List Byte → Decoded
  | [] => .reject .endOfInput
  | [b0] => if isMovByte b0 || isPushByte b0 then .reject .endOfInput else .reject .noMatch
  | b0 :: b1 :: rest =>
    let mod := b1.extractLsb' 6 2
    let reg := b1.extractLsb' 3 3
    let rm := b1.extractLsb' 0 3
    if isMovByte b0 then withDisp mod rm rest (fun d => .mov (b0.extractLsb' 0 1) mod reg rm d)
    else if isPushByte b0 then
      if reg == 0b110#3 then withDisp mod rm rest (fun d => .push mod rm d) else .reject .noMatch
    else .reject .noMatch

/-- The displacement bytes in stream order, low byte first (20_memory.md R63). -/
def encodeDisp : Disp → List Byte
  | .none => []
  | .byte lo => [lo]
  | .word v => [v.extractLsb' 0 8, v.extractLsb' 8 8]

/-- The bytes of an instruction (30_encoding.md R104). -/
def encode : Instr → List Byte
  | .mov w mod reg rm disp => (0b1100011#7 ++ w) :: (mod ++ reg ++ rm : BitVec 8) :: encodeDisp disp
  | .push mod rm disp => 0xFF#8 :: (mod ++ 0b110#3 ++ rm : BitVec 8) :: encodeDisp disp

/-- The number of bytes an instruction has: 2 + DISP_LEN (30_encoding.md R109). -/
def byteLength : Instr → Nat
  | .mov _ _ _ _ disp => 2 + Machine.dispBytes disp
  | .push _ _ disp => 2 + Machine.dispBytes disp

/-- The four bytes, L_MAX of the default ROM, that an instruction word of nbits bits stands for, absent operand bytes
zero. The table writes an instruction's first two bytes as ONE 16-bit word (b0 << 8) | b1, so the first byte is bits
15:8 of w; bytes after them count on from bit 16 (log 9). -/
def tableBytes (nbits w : Nat) : List Byte :=
  let v : BitVec 32 := BitVec.ofNat 32 (w % 2 ^ nbits)
  [v.extractLsb' 8 8, v.extractLsb' 0 8, v.extractLsb' 16 8, v.extractLsb' 24 8]

/-- The instruction the decoder reads from an instruction word as spec/opcode_table.json numbers its bits. -/
def decodeTableWord (nbits w : Nat) : Option Instr :=
  match decode (tableBytes nbits w) with
  | .ok i _ => some i
  | .reject _ => none

end Sys2Proof
end

