-- ==== Sys2Proof/Config.lean ====
section
/-! DEFINITION. What a design fixes and no run changes: the parameters of 00_scope.md R6, and the types of the template ROM
(10_state.md R21, 30_encoding.md R80 to R84). The ROM is a parameter of the step relation, not a state field (R21); the
default ROM itself stands in Machine/Rom.lean. BUF_LEN_W is the width argument w of Offset and of every type built on it. -/

namespace Sys2Proof

namespace Config

/-- The longest byte_length LEN_W = 4 bits can hold (R6, R98). -/
abbrev maxLength : Nat := 15

/-- BUF's offsets are 0 .. 2^BUF_LEN_W - 2 (10_state.md R22), so this is the number of bytes BUF has. -/
abbrev bufSize (w : Nat := 16) : Nat := 2 ^ w - 1

/-- What a byte of BUF that nothing has written reads as.
DESIGN CHOICE (log 1): the spec leaves BUF unspecified after reset (R50, U5). -/
abbrev unwrittenByte : Byte := 0

end Config

/-- The ten keys of the resolved-field registers (10_state.md R31). -/
inductive Key where
  | d | w | s | v | z | mod | reg | rm | dlo | dhi
deriving DecidableEq, Repr

/-- The closed set of thirteen field kinds (30_encoding.md R80). -/
inductive FieldKind where
  | literal | direction | signExtend | width | shiftCount | repeatPrefix | addressingMode | register | registerOrMemory
  | dataLow | dataHigh | impliedWidth | impliedDirection
deriving DecidableEq, Repr

/-- A field descriptor (30_encoding.md R82): kind, bit_width, bit_shift and value, the last three as wide as the
descriptor word of R84 holds them. -/
structure Descriptor where
  kind : FieldKind
  width : BitVec 4
  shift : BitVec 3
  value : BitVec 8
deriving DecidableEq, Repr

/-- A template (30_encoding.md R83): an opcode tag and its descriptors in decode order; nf is their number. -/
structure Template where
  tag : BitVec 8
  fields : List Descriptor
deriving DecidableEq, Repr

/-- What the design fixes (00_scope.md R6; 93_implementation_defined.md U18, U19), BUF_LEN_W apart. -/
structure Design where
  /-- TEMPLATE_ROM, in registration order; NT is its length -/
  rom : List Template
  /-- DIRECT_ADDR_RM -/
  directAddrRm : BitVec 3
  /-- MAX_TEMPLATES, the ROM capacity in templates -/
  maxTemplates : Nat := 16
  /-- MAX_FIELDS, the field descriptors one template may have -/
  maxFields : Nat := 8
deriving DecidableEq, Repr

/-- The construction checks by name (30_encoding.md R89 to R99), the argument of TemplateConfigurationError. -/
inductive Check where
  | kind | width | literal | implied | group | shift | anchor | unique | modrm | size | data
deriving DecidableEq, Repr

/-- Why a ROM image is no ROM: a construction check fails (30_encoding.md R100), a reserved bit is not 0 (R84,
93_implementation_defined.md U13), or a header's nf is not the number of descriptor words after it (R84). -/
inductive RomError where
  | check (c : Check)
  | reservedBits
  | fieldCount
deriving DecidableEq, Repr

end Sys2Proof
end

