-- ==== Sys2Proof/Machine/State.lean ====
section
/-! DEFINITION. The state of one engine block as plain data (10_state.md), the host's side of it, and the state after
reset (10_state.md R50). -/

namespace Sys2Proof.Machine

/-- RUN_STATE (10_state.md R24). -/
inductive RunState where
  /-- no run since reset (0) -/
  | idle
  /-- a run is in progress (1) -/
  | running
  /-- the run ended with the input exhausted (2) -/
  | doneOk
  /-- the run ended with NoMatchingTemplate (3) -/
  | doneFail
deriving DecidableEq, Repr

/-- BUF's bytes by offset, in canonical form: offsets strictly rising and below 2^BUF_LEN_W - 1, no byte equal to what an
unlisted offset reads as (Memory.wf of Machine/Ops.lean). -/
abbrev Memory := List Host.Cell

/-- CUR, the speculative bit cursor (10_state.md R27). -/
structure Cursor (w : Nat := 16) where
  byte : Offset w
  bit : BitVec 3
deriving DecidableEq, Repr

/-- The resolved-field registers F[0..9] and their present bits P[0..9], bit k of `present` being P[k]
(10_state.md R31). -/
structure FieldRegs where
  d : BitVec 1
  w : BitVec 1
  s : BitVec 1
  v : BitVec 1
  z : BitVec 1
  mod : BitVec 2
  reg : BitVec 3
  rm : BitVec 3
  dlo : BitVec 8
  dhi : BitVec 8
  present : BitVec 10
deriving DecidableEq, Repr

/-- The hidden state (10_state.md R38): CUR, TI, EOI_ACC, F and P, DISP and DISP_LEN. No CSR shows it. DESIGN CHOICE
(log 18): an index above 15 is held modulo 16, here and in a record's TIDX. -/
structure Hidden (w : Nat := 16) where
  cur : Cursor w
  ti : BitVec 4
  eoiAcc : Bool
  regs : FieldRegs
  disp : BitVec 16
  dispLen : BitVec 2
deriving DecidableEq, Repr

/-- A decoded-instruction record (10_state.md R40); `fields` holds PRESENT and the ten value fields. -/
structure Record (w : Nat := 16) where
  tag : BitVec 8
  tidx : BitVec 4
  offset : Offset w
  byteLength : BitVec 4
  fields : FieldRegs
  dispLen : BitVec 2
  disp : BitVec 16
deriving DecidableEq, Repr

/-- One action of the host, the block's external agent (10_state.md R20), landing between two engine steps. -/
inductive HostAct (w : Nat := 16) where
  /-- write a byte of BUF (R22, R282) -/
  | writeBuf (a : Offset w) (b : Byte)
  /-- write CSR number n (R41) -/
  | writeCsr (n : Nat) (v : CsrWord)
  /-- read CSR number n (R41) -/
  | readCsr (n : Nat)
  /-- drive the sink's ready level (42_decode_engine.md R210) -/
  | setReady (r : Bool)
  /-- consume the record at the head of OUTQ (R36) -/
  | drain
  /-- reset (70_reset_and_hazards.md R280). The arguments are the two values the spec leaves open: whether the record in
  flight reaches the sink (U4), and what BUF holds afterwards (R50, U5) -/
  | reset (inFlightTaken : Bool) (contents : List Host.Cell)
  /-- let the engine take one step before the host's next action -/
  | engineTurn
deriving DecidableEq, Repr

/-- The host's side: fields of the model, not of the block (logs 2, 4, 8). -/
structure HostSide (w : Nat := 16) where
  /-- what the host does next, first action first; empty: the engine runs alone -/
  queue : List (HostAct w)
  /-- the sink's ready level (42_decode_engine.md R210) -/
  ready : Bool
  /-- the records the host has consumed, oldest first -/
  taken : List (Record w)
  /-- the answer to the host's last CSR read -/
  readData : CsrWord
deriving DecidableEq, Repr

/-- The state of one block whose BUF_LEN_W is w, by default 16 (00_scope.md R6), with its host's side. -/
structure State (w : Nat := 16) where
  /-- BUF (10_state.md R22) -/
  buf : Memory
  /-- BUF_LEN (R23) -/
  bufLen : Offset w
  /-- RUN_STATE (R24) -/
  runState : RunState
  /-- POS, the committed cursor (R25) -/
  pos : Offset w
  /-- the hidden state (R38) -/
  hidden : Hidden w
  /-- FAIL_OFFSET (R33) -/
  failOffset : Offset w
  /-- STATUS.EOI (R34) -/
  eoi : Bool
  /-- INST_COUNT (R35) -/
  instCount : Offset w
  /-- OUTQ, oldest record first (R36) -/
  outq : List (Record w)
  /-- the host's side -/
  host : HostSide w
deriving DecidableEq, Repr

/-- Why the machine stops. -/
inductive Fault where
  /-- No engine step is enabled: RUN_STATE is not RUNNING and the host has no action left (42_decode_engine.md R198).
  Raised by engineStep. A stuck state, safe (log 3). -/
  | quiescent
  /-- The engine holds at the Commit: the sink is not ready and the host has no action left (R210, R285, U3 "stuck").
  Raised by commit, so by both meanings. Safe (log 3). -/
  | outputHeld
  /-- A host write to offset 2^BUF_LEN_W - 1, which BUF does not have (10_state.md R22). Raised by hostWriteBuf. Safe (log 20). -/
  | bufOffset
deriving DecidableEq, Repr

/-- Why the model defines no behaviour. -/
inductive Refusal where
  /-- An instruction without a meaning. No arm of exec answers it: both instructions have theirs. Safe. -/
  | notModelled (mnemonic : String)
  /-- The host writes BUF during a run (20_memory.md R70, U2 "refuse"). Raised by hostWriteBuf. Safe (log 6). -/
  | bufWriteDuringRun
  /-- The ROM fails these construction checks, each with its template's index: TemplateConfigurationError, a design that
  does not exist (30_encoding.md R100, 60_exceptions.md R251, U1 "refuse"). Raised by stepOf. Safe (logs 12, 16). -/
  | invalidRom (failures : List (Nat × Check))
  /-- The ROM image is no ROM, for these reasons, each with its template's index: TemplateConfigurationError at the
  construction from an image (30_encoding.md R84, R89, R100; U1, U13 "refuse"). Raised by stepOfImage. Safe (logs 12, 16). -/
  | invalidImage (failures : List (Nat × RomError))
deriving DecidableEq, Repr

/-- What a step answers. -/
abbrev Outcome (w : Nat := 16) := Host.Outcome (State w) Fault Refusal

/-- F and P cleared (10_state.md R31). -/
def FieldRegs.clear : FieldRegs := ⟨0, 0, 0, 0, 0, 0, 0, 0, 0, 0, 0⟩

/-- The hidden state after reset (10_state.md R50). -/
def Hidden.clear {w : Nat} : Hidden w := ⟨⟨0, 0⟩, 0, false, FieldRegs.clear, 0, 0⟩

/-- The state after reset (10_state.md R50, 70_reset_and_hazards.md R280, R281): everything 0, IDLE or empty. BUF lists
nothing (log 1); the host has no action queued and the sink is ready (DESIGN CHOICE, logs 2, 4, 8). -/
def State.resetOf (w : Nat) : State w where
  buf := []
  bufLen := 0
  runState := .idle
  pos := 0
  hidden := Hidden.clear
  failOffset := 0
  eoi := false
  instCount := 0
  outq := []
  host := ⟨[], true, [], 0⟩

/-- The default block after reset. -/
def State.reset : State := State.resetOf 16

end Sys2Proof.Machine
end

