-- ==== Sys2Proof/Machine/Flags.lean ====
section
/-! DEFINITION. The block's flags (10_state.md R39): RUN_STATE and STATUS.EOI, the STATUS word, and the done level. -/

namespace Sys2Proof.Machine

/-- RUN_STATE's 2-bit encoding (10_state.md R24). -/
def runCode : RunState → BitVec 2
  | .idle => 0
  | .running => 1
  | .doneOk => 2
  | .doneFail => 3

/-- STATUS: bits 1:0 RUN_STATE, bit 2 EOI, all others 0 (10_state.md R43). -/
def statusWord {w : Nat} (s : State w) : CsrWord := (0#29 ++ BitVec.ofBool s.eoi ++ runCode s.runState : BitVec 32)

/-- The completion level done = (RUN_STATE >= 2) (60_exceptions.md R259). -/
def State.done {w : Nat} (s : State w) : Bool := decide (2 ≤ (runCode s.runState).toNat)

/-- The error kinds that have a code (60_exceptions.md R250); TemplateConfigurationError is design time and has none. -/
inductive ErrorKind where
  | endOfInput
  | noMatchingTemplate
deriving DecidableEq, Repr

/-- The error codes (60_exceptions.md R250). -/
def errorCode : ErrorKind → Nat
  | .endOfInput => 1
  | .noMatchingTemplate => 2

end Sys2Proof.Machine
end

