-- ==== Sys2Proof/Machine/Rom.lean ====
section
/-! DEFINITION. The template ROM: kinds and their keys and widths (30_encoding.md R80), byte-groups (R87), the ROM image
(R84), the construction checks (R89 to R99), L_MAX (00_scope.md R7), ROM_INFO (10_state.md R48) and the default ROM
(R101 to R103). -/

namespace Sys2Proof.Machine

/-! ### Kinds (30_encoding.md R80) -/

/-- The 4-bit kind code. -/
def kindCode : FieldKind → BitVec 4
  | .literal => 0 | .direction => 1 | .signExtend => 2 | .width => 3 | .shiftCount => 4 | .repeatPrefix => 5
  | .addressingMode => 6 | .register => 7 | .registerOrMemory => 8 | .dataLow => 9 | .dataHigh => 10
  | .impliedWidth => 11 | .impliedDirection => 12

/-- The kind a code stands for; 13 to 15 are invalid (R89, CE_KIND). -/
def kindOfCode (c : BitVec 4) : Option FieldKind :=
  match c.toNat with
  | 0 => some .literal | 1 => some .direction | 2 => some .signExtend | 3 => some .width | 4 => some .shiftCount
  | 5 => some .repeatPrefix | 6 => some .addressingMode | 7 => some .register | 8 => some .registerOrMemory
  | 9 => some .dataLow | 10 => some .dataHigh | 11 => some .impliedWidth | 12 => some .impliedDirection
  | _ => none

/-- The key a kind writes; a Literal writes none. -/
def kindKey : FieldKind → Option Key
  | .literal => none
  | .direction => some .d | .impliedDirection => some .d
  | .width => some .w | .impliedWidth => some .w
  | .signExtend => some .s | .shiftCount => some .v | .repeatPrefix => some .z
  | .addressingMode => some .mod | .register => some .reg | .registerOrMemory => some .rm
  | .dataLow => some .dlo | .dataHigh => some .dhi

/-- The declared width of a kind read from the stream with a fixed width. The implied kinds, whose width CE_IMPLIED
checks, and Literal have none here (log 11). -/
def kindWidth : FieldKind → Option Nat
  | .literal => none | .impliedWidth => none | .impliedDirection => none
  | .direction => some 1 | .signExtend => some 1 | .width => some 1 | .shiftCount => some 1 | .repeatPrefix => some 1
  | .addressingMode => some 2 | .register => some 3 | .registerOrMemory => some 3
  | .dataLow => some 8 | .dataHigh => some 8

/-- ImpliedWidth and ImpliedDirection consume no stream bits (R86). -/
def isImplied : FieldKind → Bool
  | .impliedWidth => true
  | .impliedDirection => true
  | _ => false

/-! ### Byte-groups (30_encoding.md R87) -/

/-- A field beside the declared bit at which it starts: its prefix sum s_j (R87). -/
structure Placed where
  field : Descriptor
  start : Nat
deriving DecidableEq, Repr

/-- The stream bits a field declares: none for an implied one, bit_width otherwise (R86, R87). -/
def declaredWidth (d : Descriptor) : Nat := if isImplied d.kind then 0 else d.width.toNat

/-- The fields in declared order, each with its prefix sum, the first starting at bit `at0`. -/
def placeFrom (at0 : Nat) : List Descriptor → List Placed
  | [] => []
  | d :: ds => ⟨d, at0⟩ :: placeFrom (at0 + declaredWidth d) ds

/-- A template's fields with their prefix sums. -/
def place (t : Template) : List Placed := placeFrom 0 t.fields

/-- The declared bits of a template: every non-implied field at its declared width (00_scope.md R7). -/
def declaredBits (t : Template) : Nat := (t.fields.map declaredWidth).sum

/-- The byte-group a placed field belongs to (R87). -/
def byteGroup (p : Placed) : Nat := p.start / 8

/-- The placed fields of one kind. -/
def ofKind (k : FieldKind) (t : Template) : List Placed := (place t).filter (fun p => p.field.kind == k)

/-- The template has an AddressingMode field. -/
def hasMod (t : Template) : Bool := t.fields.any (fun d => d.kind == .addressingMode)

/-- The declared index of the last non-implied field of byte-group g, among fields whose first has index i. -/
def lastInGroup (g : Nat) : List Placed → Nat → Option Nat
  | [], _ => none
  | p :: ps, i =>
    match lastInGroup g ps (i + 1) with
    | some j => some j
    | none => if !isImplied p.field.kind && byteGroup p == g then some i else none

/-- m_T, the declared index of the last non-implied field of the ModRM byte-group, after which DispExt runs; none for a
template without an AddressingMode field (41_field_elements.md R164). -/
def insertionPoint (t : Template) : Option Nat :=
  match ofKind .addressingMode t with
  | [] => none
  | p :: _ => lastInGroup (byteGroup p) (place t) 0

/-! ### Construction checks (30_encoding.md R89 to R99). CE_KIND is the image's: a Descriptor holds a valid kind. -/

/-- The minimal bit length of a literal (R85): the position of the highest set bit plus one, and 1 for 0. -/
def minBitLength (v : BitVec 8) : Nat :=
  if v.toNat < 2 then 1 else if v.toNat < 4 then 2 else if v.toNat < 8 then 3 else if v.toNat < 16 then 4
  else if v.toNat < 32 then 5 else if v.toNat < 64 then 6 else if v.toNat < 128 then 7 else 8

/-- CE_WIDTH (R90): every descriptor of a fixed-width kind has exactly its declared width. -/
def ceWidth (t : Template) : Bool :=
  t.fields.all (fun d => match kindWidth d.kind with
    | some n => d.width.toNat == n
    | none => true)

/-- CE_LITERAL (R91): a Literal has width 1 to 8, the minimal bit length of its value. -/
def ceLiteral (t : Template) : Bool :=
  t.fields.all (fun d => d.kind != .literal ||
    (decide (1 ≤ d.width.toNat ∧ d.width.toNat ≤ 8) && d.width.toNat == minBitLength d.value))

/-- CE_IMPLIED (R92): an implied field has width 0, shift 0 and value 0 or 1; any other kind has width at least 1, and
value 0 unless it is a Literal. -/
def ceImplied (t : Template) : Bool :=
  t.fields.all (fun d =>
    if isImplied d.kind then d.width == 0 && d.shift == 0 && decide (d.value.toNat ≤ 1)
    else decide (1 ≤ d.width.toNat) && (d.kind == .literal || d.value == 0))

/-- CE_GROUP (R93): no non-implied field straddles a byte, and the declared bits are a positive number of bytes. -/
def ceGroup (t : Template) : Bool :=
  (place t).all (fun p => isImplied p.field.kind || decide (p.start % 8 + p.field.width.toNat ≤ 8)) &&
    declaredBits t % 8 == 0 && decide (8 ≤ declaredBits t)

/-- CE_SHIFT (R94): a non-implied field's bit_shift is 8 - ((s_j mod 8) + w_j), as R88 computes it. -/
def ceShift (t : Template) : Bool :=
  (place t).all (fun p => isImplied p.field.kind ||
    p.field.shift.toNat + (p.start % 8 + p.field.width.toNat) == 8)

/-- CE_ANCHOR (R95): byte-group 0 holds a Literal. -/
def ceAnchor (t : Template) : Bool := (ofKind .literal t).any (fun p => byteGroup p == 0)

/-- CE_UNIQUE (R96): no key is written by two descriptors. -/
def ceUnique (t : Template) : Bool := decide (t.fields.filterMap (fun d => kindKey d.kind)).Nodup

/-- CE_MODRM (R97): AddressingMode if and only if RegisterOrMemory, both in the same byte-group. -/
def ceModrm (t : Template) : Bool :=
  let mods := ofKind .addressingMode t
  let rms := ofKind .registerOrMemory t
  mods.isEmpty == rms.isEmpty && mods.all (fun p => rms.all (fun q => byteGroup p == byteGroup q))

/-- CE_DATA (R99), for the descriptors after `before` (the ones already passed, last first): a DataHigh directly follows
a DataLow, and a Width or ImpliedWidth, and every Sign-extend of the template, stand before it. -/
def ceDataFrom (before : List Descriptor) : List Descriptor → Bool
  | [] => true
  | d :: ds =>
    (d.kind != .dataHigh ||
      ((match before with | p :: _ => p.kind == .dataLow | [] => false) &&
        before.any (fun b => b.kind == .width || b.kind == .impliedWidth) &&
        ds.all (fun a => a.kind != .signExtend))) && ceDataFrom (d :: before) ds

/-- CE_DATA (R99). -/
def ceData (t : Template) : Bool := ceDataFrom [] t.fields

/-- The per-template part of CE_SIZE (R98): 1 to MAX_FIELDS fields. -/
def ceSize (D : Design) (t : Template) : Bool := decide (1 ≤ t.fields.length ∧ t.fields.length ≤ D.maxFields)

/-- Every check a template fails. All are listed: the spec lets any one be reported (U21). DESIGN CHOICE (log 12). -/
def failedChecks (D : Design) (t : Template) : List Check :=
  [(Check.width, ceWidth t), (.literal, ceLiteral t), (.implied, ceImplied t), (.group, ceGroup t), (.shift, ceShift t),
   (.anchor, ceAnchor t), (.unique, ceUnique t), (.modrm, ceModrm t), (.size, ceSize D t), (.data, ceData t)].filterMap
    (fun c => if c.2 then none else some c.1)

/-- The bytes a template can consume at most: declared bytes, and 2 of displacement (00_scope.md R7). -/
def templateMaxLength (t : Template) : Nat := declaredBits t / 8 + (if hasMod t then 2 else 0)

/-- L_MAX, the longest instruction the ROM can produce in bytes (00_scope.md R7). -/
def lMax (rom : List Template) : Nat := (rom.map templateMaxLength).foldl max 0

/-- CE_SIZE for the ROM (R98): 1 to MAX_TEMPLATES templates, and L_MAX fits LEN_W bits. -/
def romSizeOk (D : Design) : Bool :=
  decide (1 ≤ D.rom.length ∧ D.rom.length ≤ D.maxTemplates) && decide (lMax D.rom ≤ Config.maxLength)

/-- What `failures` finds wrong with each entry of a list, beside the entry's index, the first entry having index i
(60_exceptions.md R250: the check name and the template index). -/
def failuresFrom {α ε : Type} (failures : α → List ε) (i : Nat) : List α → List (Nat × ε)
  | [] => []
  | a :: as => (failures a).map (fun e => (i, e)) ++ failuresFrom failures (i + 1) as

/-- Every failed construction check of the design's ROM; a ROM-wide CE_SIZE failure is listed at index NT. -/
def romFailures (D : Design) : List (Nat × Check) :=
  failuresFrom (failedChecks D) 0 D.rom ++ (if romSizeOk D then [] else [(D.rom.length, .size)])

/-- The design is valid: its ROM passes every check (30_encoding.md R100, 60_exceptions.md R251). -/
def validRom (D : Design) : Bool := (romFailures D).isEmpty

/-- ROM_INFO (10_state.md R48): bits 4:0 NT, bits 11:8 L_MAX, all others 0. DESIGN CHOICE (log 14): an NT above 31 is held
modulo 32. -/
def romInfo (rom : List Template) : CsrWord :=
  (0#20 ++ BitVec.ofNat 4 (lMax rom) ++ 0#3 ++ BitVec.ofNat 5 rom.length : BitVec 32)

/-! ### The ROM image (30_encoding.md R84) -/

/-- A stored template: its 16-bit header and its 20-bit descriptor words. -/
structure TemplateImage where
  header : BitVec 16
  words : List (BitVec 20)
deriving DecidableEq, Repr

/-- Descriptor word: kind[19:16] width[15:12] 0 shift[10:8] value[7:0]. -/
def descriptorWord (d : Descriptor) : BitVec 20 := (kindCode d.kind ++ d.width ++ 0#1 ++ d.shift ++ d.value : BitVec 20)

/-- Header: tag[15:8] 0000 nf[3:0]. DESIGN CHOICE (log 14): an nf above 15 is held modulo 16. -/
def templateHeader (t : Template) : BitVec 16 := (t.tag ++ 0#4 ++ BitVec.ofNat 4 t.fields.length : BitVec 16)

/-- The image of a template. -/
def templateImage (t : Template) : TemplateImage := ⟨templateHeader t, t.fields.map descriptorWord⟩

/-- The bit a descriptor word reserves, bit 11, and the bits a header reserves, bits 7:4, are 0. -/
def reservedBitsZero (im : TemplateImage) : Bool :=
  im.header.extractLsb' 4 4 == 0 && im.words.all (fun w => w.extractLsb' 11 1 == 0)

/-- CE_KIND (R89): every descriptor word's kind code is in 0..12. -/
def ceKind (im : TemplateImage) : Bool := im.words.all (fun w => (kindOfCode (w.extractLsb' 16 4)).isSome)

/-- One descriptor word; none for an invalid kind code. -/
def readDescriptor (w : BitVec 20) : Option Descriptor :=
  (kindOfCode (w.extractLsb' 16 4)).map (fun k => ⟨k, w.extractLsb' 12 4, w.extractLsb' 8 3, w.extractLsb' 0 8⟩)

/-- The template an image holds, its descriptor words of an invalid kind left out. -/
def imageTemplate (im : TemplateImage) : Template := ⟨im.header.extractLsb' 8 8, im.words.filterMap readDescriptor⟩

/-- Everything by which an image is no template: its format (R84, U13), and CE_KIND, which its words alone decide.
DESIGN CHOICE (log 12): all of them are listed, where the spec lets any one failing check be reported (U21). -/
def imageErrors (im : TemplateImage) : List RomError :=
  [(RomError.reservedBits, reservedBitsZero im), (.fieldCount, (im.header.extractLsb' 0 4).toNat == im.words.length),
   (.check .kind, ceKind im)].filterMap (fun c => if c.2 then none else some c.1)

/-- Read a stored template. -/
def readTemplate (im : TemplateImage) : Except (List RomError) Template :=
  match imageErrors im with
  | [] => .ok (imageTemplate im)
  | es => .error es

/-- Read a ROM image; what is wrong is listed beside the template's index (60_exceptions.md R250). -/
def readRom (ims : List TemplateImage) : Except (List (Nat × RomError)) (List Template) :=
  match failuresFrom imageErrors 0 ims with
  | [] => .ok (ims.map imageTemplate)
  | es => .error es

/-- Everything wrong with one template of an image, the checks of R90 to R99 included. DESIGN CHOICE (log 12): an image
that is no template, one failing CE_KIND for example, lists why, and no other check beside it (U21 lets any failing check
be reported). -/
def templateErrors (D : Design) (im : TemplateImage) : List RomError :=
  match imageErrors im with
  | [] => (failedChecks D (imageTemplate im)).map .check
  | es => es

/-- Everything wrong with a ROM image for a design with D's parameters; a ROM-wide CE_SIZE failure is listed at index NT. -/
def romImageErrors (D : Design) (ims : List TemplateImage) : List (Nat × RomError) :=
  failuresFrom (templateErrors D) 0 ims ++
    (if romSizeOk { D with rom := ims.map imageTemplate } then [] else [(ims.length, .check .size)])

/-- Construction (30_encoding.md R100): the design with D's parameters whose ROM is the image, or
TemplateConfigurationError, with the name of every check listed and the index of its template (60_exceptions.md R250). -/
def constructDesign (D : Design) (ims : List TemplateImage) : Except (List (Nat × RomError)) Design :=
  match romImageErrors D ims with
  | [] => .ok { D with rom := ims.map imageTemplate }
  | es => .error es

/-! ### The default ROM (30_encoding.md R101 to R103) -/

/-- Tag codes (30_encoding.md R83): MOV and PUSH; POP is reserved and no template carries it (R112). -/
def tagMov : BitVec 8 := 0x00
/-- PUSH's tag (R83). -/
def tagPush : BitVec 8 := 0x01
/-- POP's tag, reserved (R112). -/
def tagPop : BitVec 8 := 0x02

/-- Template 0, MOV (R101). -/
def movTemplate : Template :=
  ⟨tagMov, [⟨.literal, 7, 1, 0b1100011⟩, ⟨.width, 1, 0, 0⟩, ⟨.addressingMode, 2, 6, 0⟩, ⟨.register, 3, 3, 0⟩,
    ⟨.registerOrMemory, 3, 0, 0⟩]⟩

/-- Template 1, PUSH (R102). -/
def pushTemplate : Template :=
  ⟨tagPush, [⟨.literal, 8, 0, 0b11111111⟩, ⟨.addressingMode, 2, 6, 0⟩, ⟨.literal, 3, 3, 0b110⟩,
    ⟨.registerOrMemory, 3, 0, 0⟩, ⟨.impliedWidth, 0, 0, 1⟩, ⟨.impliedDirection, 0, 0, 1⟩]⟩

/-- The default TEMPLATE_ROM, [MOV, PUSH] (R103). -/
def defaultRom : List Template := [movTemplate, pushTemplate]

/-- The design this model's `step` is: the default ROM, DIRECT_ADDR_RM = 0b110, MAX_TEMPLATES = 16 and MAX_FIELDS = 8
(00_scope.md R6). -/
def defaultDesign : Design where
  rom := defaultRom
  directAddrRm := directAddrRm

end Sys2Proof.Machine
end

