-- ==== Sys2Proof/Machine/Operands.lean ====
section
/-! DEFINITION. How operands are read from the stream: BUF's bytes, the bit cursor (40_bit_cursor.md), the resolved-field
registers (10_state.md R31), the thirteen field elements and the displacement extension (41_field_elements.md). -/

namespace Sys2Proof.Machine

variable {w : Nat}

/-! ### BUF (10_state.md R22) -/

/-- The byte at offset a; an unlisted offset reads as Config.unwrittenByte (log 1). -/
def Memory.read (a : Nat) : Memory → Byte
  | [] => Config.unwrittenByte
  | (a', b) :: m => if a = a' then b else Memory.read a m

/-- What the cursor reads from: BUF and BUF_LEN (40_bit_cursor.md R130). -/
structure Input (w : Nat := 16) where
  buf : Memory
  bufLen : Offset w
deriving DecidableEq, Repr

/-! ### The bit cursor (40_bit_cursor.md) -/

/-- The absolute bit position p = 8*CUR.byte + CUR.bit (R130). -/
def Cursor.position (c : Cursor w) : Nat := 8 * c.byte.toNat + c.bit.toNat

/-- The cursor at absolute bit position p (R133). -/
def Cursor.ofPosition (p : Nat) : Cursor w := ⟨BitVec.ofNat w (p / 8), BitVec.ofNat 3 (p % 8)⟩

/-- streambit(p) = BUF[p div 8][7 - (p mod 8)] (R130). -/
def streamBit (m : Memory) (p : Nat) : Bool := (m.read (p / 8)).getLsbD (7 - p % 8)

/-- The bits that remain at the cursor, 8*BUF_LEN - p, never negative (R131). -/
def remaining (inp : Input w) (c : Cursor w) : Nat := 8 * inp.bufLen.toNat - c.position

/-- v followed by the n stream bits from position p on, the first of them most significant (the loop of R132). -/
def gatherBits (m : Memory) (p : Nat) : Nat → BitVec 16 → BitVec 16
  | 0, v => v
  | n + 1, v => gatherBits m (p + 1) n ((v <<< 1) ||| (if streamBit m p then 1 else 0))

/-- peek_bits(n): the next n bits without advancing; none is EndOfInput (R132). A request of more than 16 bits is outside
the cursor's interface (R138), so the type of n admits none. -/
def peekBits (inp : Input w) (c : Cursor w) (n : Fin 17) : Option (BitVec 16) :=
  if remaining inp c < n.val then none else some (gatherBits inp.buf c.position n.val 0)

/-- consume_bits(n): the value of peek_bits(n) and the cursor n bits on; none is EndOfInput, CUR unchanged (R133). -/
def consumeBits (inp : Input w) (c : Cursor w) (n : Fin 17) : Option (BitVec 16 × Cursor w) :=
  match peekBits inp c n with
  | none => none
  | some v => some (v, Cursor.ofPosition (c.position + n.val))

/-! ### The resolved-field registers (10_state.md R31) -/

/-- A key's index k. -/
def keyIndex : Key → Nat
  | .d => 0 | .w => 1 | .s => 2 | .v => 3 | .z => 4 | .mod => 5 | .reg => 6 | .rm => 7 | .dlo => 8 | .dhi => 9

/-- The width of F[k]. -/
def keyWidth : Key → Nat
  | .d => 1 | .w => 1 | .s => 1 | .v => 1 | .z => 1 | .mod => 2 | .reg => 3 | .rm => 3 | .dlo => 8 | .dhi => 8

/-- F[k], zero-extended. -/
def FieldRegs.get (f : FieldRegs) : Key → BitVec 8
  | .d => f.d.setWidth 8 | .w => f.w.setWidth 8 | .s => f.s.setWidth 8 | .v => f.v.setWidth 8 | .z => f.z.setWidth 8
  | .mod => f.mod.setWidth 8 | .reg => f.reg.setWidth 8 | .rm => f.rm.setWidth 8 | .dlo => f.dlo | .dhi => f.dhi

/-- P[k]. -/
def FieldRegs.has (f : FieldRegs) (k : Key) : Bool := f.present.getLsbD (keyIndex k)

/-- P[k] <- 1, all other present bits kept. -/
def markPresent (k : Key) (p : BitVec 10) : BitVec 10 := p ||| BitVec.twoPow 10 (keyIndex k)

/-- F[k] <- v, which also writes P[k] <- 1 (00_scope.md R9). -/
def FieldRegs.put (f : FieldRegs) (k : Key) (v : BitVec 16) : FieldRegs :=
  let p := markPresent k f.present
  match k with
  | .d => { f with d := v.setWidth 1, present := p }
  | .w => { f with w := v.setWidth 1, present := p }
  | .s => { f with s := v.setWidth 1, present := p }
  | .v => { f with v := v.setWidth 1, present := p }
  | .z => { f with z := v.setWidth 1, present := p }
  | .mod => { f with mod := v.setWidth 2, present := p }
  | .reg => { f with reg := v.setWidth 3, present := p }
  | .rm => { f with rm := v.setWidth 3, present := p }
  | .dlo => { f with dlo := v.setWidth 8, present := p }
  | .dhi => { f with dhi := v.setWidth 8, present := p }

/-! ### Field elements (41_field_elements.md) -/

/-- How an attempt fails (42_decode_engine.md R191): a Literal differs, or the cursor ran out of bits (EndOfInput). -/
inductive AttemptFail where
  | mismatch
  | eoi
deriving DecidableEq, Repr

/-- The outcome of an element, or of a whole attempt, with the hidden state it leaves. -/
inductive Attempt (w : Nat := 16) where
  | ok (h : Hidden w)
  | fail (e : AttemptFail) (h : Hidden w)
deriving DecidableEq, Repr

/-- The attempt completed. -/
def Attempt.isOk : Attempt w → Bool
  | .ok _ => true
  | .fail _ _ => false

/-- The attempt ran out of input. -/
def Attempt.isEoi : Attempt w → Bool
  | .fail .eoi _ => true
  | _ => false

/-- The hidden state an attempt leaves. -/
def Attempt.hidden : Attempt w → Hidden w
  | .ok h => h
  | .fail _ h => h

/-- A descriptor's bit_width as a cursor request. -/
def widthRequest (n : BitVec 4) : Fin 17 := ⟨n.toNat, by omega⟩

/-- F[k] <- consume_bits(n): the common form of the elements that read a value from the stream (R150). EndOfInput writes
nothing (40_bit_cursor.md R136). -/
def readField (inp : Input w) (k : Key) (n : Fin 17) (h : Hidden w) : Attempt w :=
  match consumeBits inp h.cur n with
  | none => .fail .eoi h
  | some (v, c) => .ok { h with cur := c, regs := h.regs.put k v }

/-- Literal (R151): all n bits are consumed, then compared at once. -/
def literalElement (inp : Input w) (n : BitVec 4) (value : BitVec 8) (h : Hidden w) : Attempt w :=
  match consumeBits inp h.cur (widthRequest n) with
  | none => .fail .eoi h
  | some (v, c) => if v = value.setWidth 16 then .ok { h with cur := c } else .fail .mismatch { h with cur := c }

/-- A DataHigh consumes its byte when F[W] = 1 and not (P[S] = 1 and F[S] = 1) (R161, 30_encoding.md R108). -/
def dataHighConsumes (f : FieldRegs) : Bool := f.w == 1 && !(f.has .s && f.s == 1)

/-- ImpliedWidth and ImpliedDirection (R162, R163): the constant is written, CUR is not touched, nothing can fail. -/
def impliedElement (k : Key) (value : BitVec 8) (h : Hidden w) : Attempt w :=
  .ok { h with regs := h.regs.put k (value.setWidth 16) }

/-- Element(d): one field element (R151 to R163). -/
def element (inp : Input w) (d : Descriptor) (h : Hidden w) : Attempt w :=
  match d.kind with
  | .literal => literalElement inp d.width d.value h
  | .direction => readField inp .d 1 h
  | .signExtend => readField inp .s 1 h
  | .width => readField inp .w 1 h
  | .shiftCount => readField inp .v 1 h
  | .repeatPrefix => readField inp .z 1 h
  | .addressingMode => readField inp .mod 2 h
  | .register => readField inp .reg 3 h
  | .registerOrMemory => readField inp .rm 3 h
  | .dataLow => readField inp .dlo 8 h
  | .dataHigh => if dataHighConsumes h.regs then readField inp .dhi 8 h else .ok h
  | .impliedWidth => impliedElement .w d.value h
  | .impliedDirection => impliedElement .d d.value h

/-- DispExt() (R166): DISP and DISP_LEN are cleared, then DispLen(F[MOD], F[RM]) bytes are read, low byte first; DISP_LEN
is written last. -/
def dispExt (esc : BitVec 3) (inp : Input w) (h : Hidden w) : Attempt w :=
  let n := dispLen esc h.regs.mod h.regs.rm
  let h0 := { h with disp := 0, dispLen := 0 }
  if n = 0 then .ok h0
  else match consumeBits inp h0.cur 8 with
    | none => .fail .eoi h0
    | some (lo, c1) =>
      let h1 := { h0 with cur := c1, disp := (lo.setWidth 8).setWidth 16 }
      if n = 1 then .ok { h1 with dispLen := 1 }
      else match consumeBits inp c1 8 with
        | none => .fail .eoi h1
        | some (hi, c2) =>
          .ok { h1 with cur := c2, disp := (hi.setWidth 8 ++ lo.setWidth 8 : BitVec 16), dispLen := 2 }

end Sys2Proof.Machine
end

