-- ==== Sys2Proof/Machine/Ops.lean ====
section
/-! DEFINITION. The named operations over BUF and the registers: writing BUF, fetching, Commit (42_decode_engine.md R196),
the failure entry (60_exceptions.md R257) with START, the only way out of it (R201), and the end of a run (R199). -/

namespace Sys2Proof.Machine

variable {w : Nat}

/-! ### BUF (10_state.md R22, 20_memory.md R60) -/

/-- The canonical form from offset lo on of a BUF of `size` bytes: offsets strictly rising and in BUF, no byte equal to the
unlisted one. -/
def Memory.wfFrom (size lo : Nat) : Memory → Bool
  | [] => true
  | (a, b) :: m => decide (lo ≤ a) && decide (a < size) && b != Config.unwrittenByte && Memory.wfFrom size (a + 1) m

/-- BUF is in canonical form (log 1). -/
def Memory.wf (m : Memory) (w : Nat := 16) : Bool := m.wfFrom (Config.bufSize w) 0

/-- List byte b at offset a, in front of the cells m, unless that is what an unlisted offset reads as. -/
def Memory.cons (a : Nat) (b : Byte) (m : Memory) : Memory := if b = Config.unwrittenByte then m else (a, b) :: m

/-- BUF[a] <- b, keeping the canonical form. -/
def Memory.write (a : Nat) (b : Byte) : Memory → Memory
  | [] => Memory.cons a b []
  | (a', b') :: m =>
    if a < a' then Memory.cons a b ((a', b') :: m)
    else if a = a' then Memory.cons a b m
    else (a', b') :: Memory.write a b m

/-- BUF with bytes bs at offset a and after. -/
def Memory.writeAll (a : Nat) : List Byte → Memory → Memory
  | [], m => m
  | b :: bs, m => Memory.writeAll (a + 1) bs (m.write a b)

/-- A BUF of `size` bytes with the given contents: offsets it does not have are left out, and of two cells for one offset the first in the
list wins. -/
def Memory.ofCells (size : Nat) : List Host.Cell → Memory
  | [] => []
  | (a, b) :: cells => if a < size then (Memory.ofCells size cells).write a b else Memory.ofCells size cells

/-! ### Reading the state -/

/-- What the cursor reads from in a state. -/
def State.input (s : State w) : Input w := ⟨s.buf, s.bufLen⟩

/-- The n bytes of BUF from offset a on, stopping at BUF_LEN: past it the stream has no bytes (20_memory.md R61). -/
def fetchFrom (inp : Input w) (a : Nat) : Nat → List Byte
  | 0 => []
  | n + 1 => if a < inp.bufLen.toNat then inp.buf.read a :: fetchFrom inp (a + 1) n else []

/-- The bytes the next instruction is decoded from: at most L_MAX = 4 of them (00_scope.md R7), from POS on. -/
def State.fetchBytes (s : State w) : List Byte := fetchFrom s.input s.pos.toNat (lMax defaultRom)

/-! ### Commit (42_decode_engine.md R196) -/

/-- ceil8(b), a bit count rounded up to bytes (00_scope.md R9). -/
def ceil8 (b : Nat) : Nat := (b + 7) / 8

/-- The record of a completed attempt: the hidden registers copied, with TAG, OFFSET and BYTE_LENGTH (R196). -/
def recordOf (tag : BitVec 8) (len : Nat) (s : State w) : Record w where
  tag := tag
  tidx := s.hidden.ti
  offset := s.pos
  byteLength := BitVec.ofNat 4 len
  fields := s.hidden.regs
  dispLen := s.hidden.dispLen
  disp := s.hidden.disp

/-- The state after a Commit: the record appended, POS and INST_COUNT advanced (R196). -/
def committed (tag : BitVec 8) (consumed : Nat) (s : State w) : State w :=
  { s with
    outq := s.outq ++ [recordOf tag (ceil8 consumed) s]
    pos := s.pos + BitVec.ofNat w (ceil8 consumed)
    instCount := s.instCount + 1 }

/-- Commit: it happens when the sink is ready; until then the engine holds, with no step to take (R196, R210, log 3). -/
def commit (tag : BitVec 8) (consumed : Nat) (s : State w) : Outcome w :=
  if s.host.ready then .next (committed tag consumed s) else .fault .outputHeld

/-! ### The end of a run -/

/-- Success: RUN_STATE <- DONE_OK (R199). -/
def finishRun (s : State w) : State w := { s with runState := .doneOk }

/-- Entry to the failure state on NoMatchingTemplate(POS, EOI_ACC): FAIL_OFFSET <- POS, STATUS.EOI <- EOI_ACC,
RUN_STATE <- DONE_FAIL; POS, INST_COUNT and OUTQ are left as they are (60_exceptions.md R257). -/
def enterFailure (s : State w) : State w :=
  { s with failOffset := s.pos, eoi := s.hidden.eoiAcc, runState := .doneFail }

/-- START (R201): a new run from offset 0 with a new, empty OUTQ; the only way out of a terminal state
(60_exceptions.md R258). -/
def startRun (s : State w) : State w :=
  { s with pos := 0, failOffset := 0, eoi := false, instCount := 0, outq := [], runState := .running }

end Sys2Proof.Machine
end

