-- ==== Sys2Proof/Machine/Engine.lean ====
section
/-! DEFINITION. The decode engine for ANY template ROM and any BUF_LEN_W (42_decode_engine.md R190 to R200): one attempt, the choice among
attempts, the position step and the engine step, written from the spec's pseudocode. `step` of the default ROM is stated
equal to it (Obligations.StepIsTheTemplateEngine). -/

namespace Sys2Proof.Machine

variable {w : Nat}

/-- The elements ds from declared index i on, DispExt running right after element mT (R190, 41_field_elements.md R164). -/
def runElements (esc : BitVec 3) (inp : Input w) (mT : Option Nat) : List Descriptor → Nat → Hidden w → Attempt w
  | [], _, h => .ok h
  | d :: ds, i, h =>
    match element inp d h with
    | .fail e h1 => .fail e h1
    | .ok h1 =>
      if mT = some i then
        match dispExt esc inp h1 with
        | .fail e h2 => .fail e h2
        | .ok h2 => runElements esc inp mT ds (i + 1) h2
      else runElements esc inp mT ds (i + 1) h1

/-- The start of an attempt: CUR <- (POS, 0), every F and P cleared, DISP and DISP_LEN cleared (R190). -/
def beginAttempt (pos : Offset w) (h : Hidden w) : Hidden w :=
  { h with cur := ⟨pos, 0⟩, regs := FieldRegs.clear, disp := 0, dispLen := 0 }

/-- TryTemplate: one speculative attempt of template t from POS (R190). -/
def tryTemplate (D : Design) (inp : Input w) (pos : Offset w) (t : Template) (h : Hidden w) : Attempt w :=
  runElements D.directAddrRm inp (insertionPoint t) t.fields 0 (beginAttempt pos h)

/-- The bits an attempt that ended with h consumed (R190's Ok value). -/
def consumedBits (pos : Offset w) (h : Hidden w) : Nat := h.cur.position - 8 * pos.toNat

/-- The loop of PositionStep over the templates ts, the first of index ti: the hidden state it leaves, and the first
template whose whole attempt completed (R195, R197). -/
def tryAll (D : Design) (inp : Input w) (pos : Offset w) : List Template → Nat → Hidden w → Hidden w × Option Template
  | [], _, h => (h, none)
  | t :: ts, ti, h =>
    match tryTemplate D inp pos t { h with ti := BitVec.ofNat 4 ti } with
    | .ok h1 => (h1, some t)
    | .fail .eoi h1 => tryAll D inp pos ts (ti + 1) { h1 with eoiAcc := true }
    | .fail .mismatch h1 => tryAll D inp pos ts (ti + 1) h1

/-- The attempts of one position step, EOI_ACC cleared first (R197). -/
def attempts (D : Design) (s : State w) : Hidden w × Option Template :=
  tryAll D s.input s.pos D.rom 0 { s.hidden with eoiAcc := false }

/-- PositionStep(): the first completed attempt is committed; when there is none, NoMatchingTemplate (R197, R200). -/
def positionStep (D : Design) (s : State w) : Outcome w :=
  match attempts D s with
  | (h, some t) => commit t.tag (consumedBits s.pos h) { s with hidden := h }
  | (h, none) => .next (enterFailure { s with hidden := h })

/-- EngineStep() (R198), for any design. -/
def engineStepOf (D : Design) (s : State w) : Outcome w :=
  if s.runState = .running then
    if s.pos = s.bufLen then .next (finishRun s) else positionStep D s
  else .fault .quiescent

/-- The parallel evaluation of R204: every template attempted on its own from the same POS, each attempt starting from the
same hidden state. -/
def parallelAttempts (D : Design) (s : State w) : List (Template × Attempt w) :=
  D.rom.map (fun t => (t, tryTemplate D s.input s.pos t s.hidden))

end Sys2Proof.Machine
end

