-- ==== Sys2Proof/Machine/Templates.lean ====
section
/-! DEFINITION. The meanings of the two instructions the default ROM decodes (43_templates.md): executing one is decoding
it, so each leaves the hidden registers as its completed attempt does and commits its record. -/

namespace Sys2Proof.Machine

/-- The state a completed attempt of template ti leaves before its Commit: TI and the resolved fields, DISP and DISP_LEN
written, CUR behind the last byte consumed, and EOI_ACC 0, since no attempt before it ran out of input (R190, R197). -/
def attemptDone (ti : BitVec 4) (regs : FieldRegs) (disp : Disp) (s : State) : State :=
  { s with
    hidden :=
      { cur := Cursor.ofPosition (8 * (s.pos.toNat + 2 + dispBytes disp))
        ti := ti
        eoiAcc := false
        regs := regs
        disp := dispValue disp
        dispLen := dispLenOf disp } }

/-- The resolved fields of a MOV: P = (W, MOD, REG, RM) (R230). -/
def movRegs (w : BitVec 1) (mod : BitVec 2) (reg rm : BitVec 3) : FieldRegs :=
  { FieldRegs.clear with w := w, mod := mod, reg := reg, rm := rm, present := 0b0011100010 }

/-- The resolved fields of a PUSH: P = (D, W, MOD, RM), with W and D implied 1 (R231). -/
def pushRegs (mod : BitVec 2) (rm : BitVec 3) : FieldRegs :=
  { FieldRegs.clear with d := 1, w := 1, mod := mod, rm := rm, present := 0b0010100011 }

/-- MOV (R230): template 0, 2 + DISP_LEN bytes. -/
def execMov (w : BitVec 1) (mod : BitVec 2) (reg rm : BitVec 3) (disp : Disp) (s : State) : Outcome :=
  commit tagMov (8 * (2 + dispBytes disp)) (attemptDone 0 (movRegs w mod reg rm) disp s)

/-- PUSH (R231): template 1, 2 + DISP_LEN bytes. -/
def execPush (mod : BitVec 2) (rm : BitVec 3) (disp : Disp) (s : State) : Outcome :=
  commit tagPush (8 * (2 + dispBytes disp)) (attemptDone 1 (pushRegs mod rm) disp s)

end Sys2Proof.Machine
end

