-- ==== Sys2Proof/Machine/Dispatch.lean ====
section
/-! DEFINITION. One arm per constructor of Instr (43_templates.md). -/

namespace Sys2Proof.Machine

def exec (i : Instr) (s : State) : Host.Outcome State Fault Refusal :=
  match i with
  | .mov w mod reg rm disp => Sys2Proof.Machine.execMov w mod reg rm disp s
  | .push mod rm disp => Sys2Proof.Machine.execPush mod rm disp s

end Sys2Proof.Machine
end

