-- ==== Sys2Proof/Machine/HostPort.lean ====
section
/-! DEFINITION. The host's actions on the block (10_state.md R41 to R49, 42_decode_engine.md R201, R202, R210,
70_reset_and_hazards.md R280 to R285), for any design and any BUF_LEN_W. -/

namespace Sys2Proof.Machine

variable {w : Nat}

/-- A read of CSR number n (10_state.md R41 to R48): numbers 7 and above read 0. DESIGN CHOICE (log 14): with BUF_LEN_W above
32 an offset register reads its low 32 bits. -/
def csrRead (D : Design) (n : Nat) (s : State w) : CsrWord :=
  match n with
  | 0 => 0
  | 1 => statusWord s
  | 2 => s.bufLen.setWidth 32
  | 3 => s.pos.setWidth 32
  | 4 => s.failOffset.setWidth 32
  | 5 => s.instCount.setWidth 32
  | 6 => romInfo D.rom
  | _ => 0

/-- A write of v to CTRL (R42): bit 0 is START, ignored while RUNNING (R202); the other bits are ignored. -/
def writeCtrl (v : CsrWord) (s : State w) : State w :=
  if v.getLsbD 0 && s.runState != .running then startRun s else s

/-- A write of v to BUF_LEN (R44): bits BUF_LEN_W-1:0, ignored while RUNNING; the other bits are ignored.
DESIGN CHOICE (log 14): with BUF_LEN_W above 32 its high bits are written 0. -/
def writeBufLen (v : CsrWord) (s : State w) : State w :=
  if s.runState == .running then s else { s with bufLen := v.setWidth w }

/-- A write of v to CSR number n: read-only and reserved numbers ignore it (R41, R49). -/
def csrWrite (n : Nat) (v : CsrWord) (s : State w) : State w :=
  match n with
  | 0 => writeCtrl v s
  | 2 => writeBufLen v s
  | _ => s

/-- A host write of BUF[a] (R22, R282). During a run the spec gives no value for what the engine reads: refused
(20_memory.md R70, log 6). Offset 2^BUF_LEN_W - 1 does not exist (log 20). -/
def hostWriteBuf (a : Offset w) (b : Byte) (s : State w) : Outcome w :=
  if s.runState = .running then .refused .bufWriteDuringRun
  else if a.toNat < Config.bufSize w then .next { s with buf := s.buf.write a.toNat b }
  else .fault .bufOffset

/-- The host takes the answer of a CSR read; the block is unchanged (R49). -/
def hostReadCsr (D : Design) (n : Nat) (s : State w) : State w :=
  { s with host := { s.host with readData := csrRead D n s } }

/-- The sink's ready level changes (42_decode_engine.md R210). -/
def setReady (r : Bool) (s : State w) : State w := { s with host := { s.host with ready := r } }

/-- The host consumes the record at OUTQ's head; an empty OUTQ offers none (10_state.md R36). -/
def drain (s : State w) : State w :=
  match s.outq with
  | [] => s
  | r :: rs => { s with outq := rs, host := { s.host with taken := s.host.taken ++ [r] } }

/-- The record in flight on the handshake: OUTQ's head, or, with OUTQ empty, the record of a Commit the engine holds
because the sink is not ready (R210, U4, log 7). -/
def recordInFlight (engine : State w → Outcome w) (s : State w) : Option (Record w) :=
  match s.outq with
  | r :: _ => some r
  | [] => if s.host.ready then none else
    match engine (setReady true s) with
    | .next s' => s'.outq.head?
    | _ => none

/-- Reset (70_reset_and_hazards.md R280): the block at the values of 10_state.md R50, BUF holding what the action says.
The host's side stays, and takes the record in flight when the action says so. -/
def hostReset (engine : State w → Outcome w) (inFlightTaken : Bool) (contents : List Host.Cell) (s : State w) : State w :=
  let got := if inFlightTaken then (recordInFlight engine s).toList else []
  { State.resetOf w with buf := Memory.ofCells (Config.bufSize w) contents, host := { s.host with taken := s.host.taken ++ got } }

/-- The engine's turn between two host actions: where no engine step is enabled the turn passes with the state unchanged,
since the host has actions of its own to come (R198, R210, log 3). -/
def engineTurn (engine : State w → Outcome w) (s : State w) : Outcome w :=
  match engine s with
  | .fault .quiescent => .next s
  | .fault .outputHeld => .next s
  | o => o

/-- One host action. -/
def hostTurn (D : Design) (engine : State w → Outcome w) (act : HostAct w) (s : State w) : Outcome w :=
  match act with
  | .writeBuf a b => hostWriteBuf a b s
  | .writeCsr n v => .next (csrWrite n v s)
  | .readCsr n => .next (hostReadCsr D n s)
  | .setReady r => .next (setReady r s)
  | .drain => .next (drain s)
  | .reset inFlightTaken contents => .next (hostReset engine inFlightTaken contents s)
  | .engineTurn => engineTurn engine s

/-- The state with the host's queue replaced. -/
def withQueue (q : List (HostAct w)) (s : State w) : State w := { s with host := { s.host with queue := q } }

/-- One transition of block and host: the host's next action, or, with none queued, an engine step (log 2). -/
def turn (D : Design) (engine : State w → Outcome w) (s : State w) : Outcome w :=
  match s.host.queue with
  | [] => engine s
  | act :: q => hostTurn D engine act (withQueue q s)

/-- The transition for any design, by the template engine; a ROM that fails a construction check has no run
(30_encoding.md R100). -/
def stepOf (D : Design) (s : State w) : Outcome w :=
  match romFailures D with
  | [] => turn D (engineStepOf D) s
  | fs => .refused (.invalidRom fs)

/-- The transition of the block constructed from a ROM image, with D's other parameters: an image that is no valid ROM has
no run, and is refused with what is wrong, each reason with its template's index (R100, 60_exceptions.md R250, R251). -/
def stepOfImage (D : Design) (ims : List TemplateImage) (s : State w) : Outcome w :=
  match constructDesign D ims with
  | .ok D' => turn D' (engineStepOf D') s
  | .error es => .refused (.invalidImage es)

end Sys2Proof.Machine
end

