-- ==== Sys2Proof/Machine/Run.lean ====
section
/-! DEFINITION. The run of the default design (42_decode_engine.md R198): decode the bytes at POS and execute the
instruction they spell, end the run, or enter the failure state; and how an instruction is placed where the next step
fetches it (70_reset_and_hazards.md R282). -/

namespace Sys2Proof.Machine

/-- NoMatchingTemplate at POS: every template's attempt has failed, leaving the hidden state as the attempts do
(42_decode_engine.md R197, R200). -/
def noMatchingTemplate (s : State) : State := enterFailure { s with hidden := (attempts defaultDesign s).1 }

/-- EngineStep() of the default design (R198), through the decoder and exec. -/
def engineStep (s : State) : Outcome :=
  if s.runState = .running then
    if s.pos = s.bufLen then .next (finishRun s)
    else match decode s.fetchBytes with
      | .ok i _ => exec i s
      | .reject _ => .next (noMatchingTemplate s)
  else .fault .quiescent

/-- The state with bytes bs at offset a, BUF_LEN behind them, POS at them, and the engine free to run: no host action
queued and the sink ready. -/
def placeAt (a : Offset) (bs : List Byte) (s : State) : State :=
  { s with
    buf := Memory.writeAll a.toNat bs s.buf
    bufLen := a + BitVec.ofNat 16 bs.length
    pos := a
    host := { s.host with queue := [], ready := true } }

/-- The state whose very next step decodes the bytes bs (log 9). While RUNNING they go to POS (to offset 0 if they do not
fit there); otherwise the host's set-up of a run is done, START included (R201, R282). -/
def loadBytes (bs : List Byte) (s : State) : State :=
  if s.runState = .running then
    placeAt (if s.pos.toNat + bs.length ≤ Config.bufSize then s.pos else 0) bs s
  else placeAt 0 bs (startRun s)

end Sys2Proof.Machine
end

