-- ==== Sys2Proof/Machine/Step.lean ====
section
/-! DEFINITION. One transition of the machine (42_decode_engine.md R198), and the placing of an instruction word. -/

namespace Sys2Proof.Machine

/-- One transition of the default design: the host's next action, or an engine step. -/
def step : State → Host.Outcome State Fault Refusal := turn defaultDesign engineStep

/-- s with an instruction word, as spec/opcode_table.json numbers its bits, where step fetches its next instruction. -/
def State.withFetchWord (s : State) (nbits w : Nat) : State := loadBytes (tableBytes nbits w) s

end Sys2Proof.Machine
end

