-- ==== Sys2Proof/Machine/Blocks.lean ====
section
/-! DEFINITION. Several engine blocks at once (60_exceptions.md R263): each has its own State, all share the design's ROM,
which is no state. N_INST is the length of the list. -/

namespace Sys2Proof.Machine

/-- Block i of the design D takes one step; the others stay as they are. A block number outside the list takes none. -/
def blocksStep {w : Nat} (D : Design) (i : Nat) (bs : List (State w)) : Host.Outcome (List (State w)) Fault Refusal :=
  match bs[i]? with
  | none => .next bs
  | some s =>
    match stepOf D s with
    | .next s' => .next (bs.set i s')
    | .fault f => .fault f
    | .refused r => .refused r

end Sys2Proof.Machine
end

