-- ==== Sys2Proof/Machine/Encode.lean ====
section
/-! DEFINITION. The encoding of an arbitrary template (42_decode_engine.md R206): its literal bits and field bits in declared
order, the displacement after the ModRM byte-group, DataHigh present exactly when R161 consumes it; the record it decodes
to; and R206's condition on the templates of lower index. -/

namespace Sys2Proof.Machine

variable {w : Nat}

/-- The low n bits of v, most significant first, as the stream holds them (20_memory.md R62). -/
def bitsOf (n : Nat) (v : BitVec 8) : List Bool := (List.range n).map (fun k => v.getLsbD (n - 1 - k))

/-- The bytes a bit string fills, bit 7 first; bits short of a byte are dropped. -/
def packBits : List Bool → List Byte
  | b7 :: b6 :: b5 :: b4 :: b3 :: b2 :: b1 :: b0 :: bs =>
    BitVec.ofBoolListBE [b7, b6, b5, b4, b3, b2, b1, b0] :: packBits bs
  | _ => []

/-- A displacement's bits, low byte first (20_memory.md R63). -/
def dispBits : Disp → List Bool
  | .none => []
  | .byte lo => bitsOf 8 lo
  | .word v => bitsOf 8 (v.extractLsb' 0 8) ++ bitsOf 8 (v.extractLsb' 8 8)

/-- What encoding one field does, for given field values, with f the registers resolved before it. -/
structure FieldCode where
  /-- the field's stream bits -/
  bits : List Bool
  /-- the registers after it -/
  regs : FieldRegs

/-- A field read from the stream: n bits of its key's given value. -/
def streamField (values : FieldRegs) (k : Key) (n : Nat) (f : FieldRegs) : FieldCode :=
  ⟨bitsOf n (values.get k), f.put k ((values.get k).setWidth 16)⟩

/-- One field's encoding (41_field_elements.md R151 to R163). -/
def encodeField (values : FieldRegs) (d : Descriptor) (f : FieldRegs) : FieldCode :=
  match d.kind with
  | .literal => ⟨bitsOf d.width.toNat d.value, f⟩
  | .direction => streamField values .d 1 f
  | .signExtend => streamField values .s 1 f
  | .width => streamField values .w 1 f
  | .shiftCount => streamField values .v 1 f
  | .repeatPrefix => streamField values .z 1 f
  | .addressingMode => streamField values .mod 2 f
  | .register => streamField values .reg 3 f
  | .registerOrMemory => streamField values .rm 3 f
  | .dataLow => streamField values .dlo 8 f
  | .dataHigh => if dataHighConsumes f then streamField values .dhi 8 f else ⟨[], f⟩
  | .impliedWidth => ⟨[], f.put .w (d.value.setWidth 16)⟩
  | .impliedDirection => ⟨[], f.put .d (d.value.setWidth 16)⟩

/-- The fields ds from declared index i on, the displacement's bits right after element mT (41_field_elements.md R164). -/
def encodeFields (mT : Option Nat) (values : FieldRegs) (disp : Disp) : List Descriptor → Nat → FieldRegs → FieldCode
  | [], _, f => ⟨[], f⟩
  | d :: ds, i, f =>
    let c := encodeField values d f
    let rest := encodeFields mT values disp ds (i + 1) c.regs
    ⟨c.bits ++ (if mT = some i then dispBits disp else []) ++ rest.bits, rest.regs⟩

/-- One instruction of R206's sequence: a template with its ROM index, the given field values (of a key the template reads
no bits for, the value does not matter), and the given displacement. -/
structure Item where
  index : Nat
  template : Template
  values : FieldRegs
  disp : Disp
deriving DecidableEq, Repr

/-- An item's bits, and the registers its attempt resolves. -/
def Item.code (x : Item) : FieldCode :=
  encodeFields (insertionPoint x.template) x.values x.disp x.template.fields 0 FieldRegs.clear

/-- e_j, the bytes of an item (R206). -/
def Item.encode (x : Item) : List Byte := packBits x.code.bits

/-- The item is one of the design: its template stands at its index, and its displacement has the length DispLen(MOD, RM)
of the given values, none where the template has no AddressingMode field (30_encoding.md R107, R206). -/
def Item.legal (D : Design) (x : Item) : Bool :=
  D.rom[x.index]? == some x.template &&
    dispLenOf x.disp == if hasMod x.template then dispLen D.directAddrRm x.values.mod x.values.rm else 0

/-- The record an item at offset a decodes to: the template's tag and index, the given fields, the implied constants, absent
fields 0, and the given displacement (R196, R206). -/
def Item.record (a : Nat) (x : Item) : Record w where
  tag := x.template.tag
  tidx := BitVec.ofNat 4 x.index
  offset := BitVec.ofNat w a
  byteLength := BitVec.ofNat 4 x.encode.length
  fields := x.code.regs
  dispLen := dispLenOf x.disp
  disp := dispValue x.disp

/-- The records of items laid one after another from offset a on. -/
def recordsFrom (a : Nat) : List Item → List (Record w)
  | [] => []
  | x :: xs => x.record a :: recordsFrom (a + x.encode.length) xs

/-- The condition of R206 for items laid one after another from offset a on: at the offset of each, no template of a lower
index than its own completes an attempt, so none accepts a prefix of the bytes there. (An attempt does not depend on the
hidden registers it starts from, R192.) -/
def noEarlierAccepts (D : Design) (inp : Input w) (a : Nat) : List Item → Bool
  | [] => true
  | x :: xs =>
    (D.rom.take x.index).all (fun t => !(tryTemplate D inp (BitVec.ofNat w a) t Hidden.clear).isOk) &&
    noEarlierAccepts D inp (a + x.encode.length) xs

end Sys2Proof.Machine
end

