-- ==== Sys2Proof/Safety.lean ====
section
/-! DEFINITION. What counts as a legal state of the machine, in the terms the statements use: the invariant every
transition keeps, and the terminal states of a run. -/

namespace Sys2Proof.Machine

/-- A value field whose present bit is 0 is 0 (10_state.md R40). -/
def FieldRegs.absentZero (f : FieldRegs) : Bool :=
  [Key.d, .w, .s, .v, .z, .mod, .reg, .rm, .dlo, .dhi].all (fun k => f.has k || f.get k == 0)

/-- A record the default ROM can produce: MOV's or PUSH's tag, index and present keys, the implied values of PUSH, absent
keys 0, the displacement MOD and RM select, and the length 2 + DISP_LEN (30_encoding.md R107, R109, R112,
41_field_elements.md R167, 43_templates.md R230, R231). -/
def Record.legal (r : Record) : Bool :=
  ((r.tag == tagMov && r.tidx == 0 && r.fields.present == 0b0011100010) ||
    (r.tag == tagPush && r.tidx == 1 && r.fields.present == 0b0010100011 && r.fields.d == 1 && r.fields.w == 1)) &&
  r.fields.absentZero &&
  r.dispLen == Machine.dispLen directAddrRm r.fields.mod r.fields.rm &&
  r.byteLength == 2 + r.dispLen.setWidth 4 &&
  (r.dispLen != 0 || r.disp == 0) && (r.dispLen != 1 || decide (r.disp.toNat < 256))

/-- The records follow each other without a gap, the last one ending at offset p (20_memory.md R71). -/
def chainedTo (p : Nat) : List Record → Bool
  | [] => true
  | [r] => r.offset.toNat + r.byteLength.toNat == p
  | r :: r' :: rs => r.offset.toNat + r.byteLength.toNat == r'.offset.toNat && chainedTo p (r' :: rs)

/-- The invariant of every transition: BUF canonical; POS within BUF_LEN during a run (R26); INST_COUNT at most POS
and at least the number of records still in OUTQ (R35, R36); EOI and FAIL_OFFSET set only after a failed run, FAIL_OFFSET
then equal to POS (R43, R45); TI a template of the ROM (R29);
DISP_LEN 0, 1 or 2 (R32); absent field registers 0 (R31); every record legal, and OUTQ chained up to POS (R71). -/
structure State.Inv (s : State) : Prop where
  buf_wf : s.buf.wf = true
  pos_le : s.runState = .running → s.pos.toNat ≤ s.bufLen.toNat
  count_le : s.instCount.toNat ≤ s.pos.toNat
  outq_count : s.outq.length ≤ s.instCount.toNat
  eoi_fail : s.eoi = true → s.runState = .doneFail
  offset_fail : s.failOffset ≠ 0 → s.runState = .doneFail
  fail_offset : s.runState = .doneFail → s.failOffset = s.pos
  ti_lt : s.hidden.ti.toNat < defaultRom.length
  disp_len : s.hidden.dispLen ≠ 3
  regs_zero : s.hidden.regs.absentZero = true
  outq_legal : ∀ r ∈ s.outq, r.legal = true
  outq_chain : chainedTo s.pos.toNat s.outq = true
  taken_legal : ∀ r ∈ s.host.taken, r.legal = true

/-- k transitions of a machine, stopping at the first fault or refusal. -/
def runSteps {w : Nat} (f : State w → Outcome w) : Nat → State w → Outcome w
  | 0, s => .next s
  | k + 1, s =>
    match f s with
    | .next s' => runSteps f k s'
    | o => o

/-- An outcome with BUF replaced in its next state: what a transition that reads none of the replaced bytes answers. -/
def replaceBuf {w : Nat} (m : Memory) : Outcome w → Outcome w
  | .next s => .next { s with buf := m }
  | o => o

/-- BUF holds the bytes bs from offset a on. -/
def Memory.holds (m : Memory) (a : Nat) (bs : List Byte) : Prop := ∀ k b, bs[k]? = some b → m.read (a + k) = b

/-- The displacement a record reports. -/
def dispOfRecord (r : Record) : Disp :=
  if r.dispLen = 0 then .none else if r.dispLen = 1 then .byte (r.disp.setWidth 8) else .word r.disp

/-- The instruction a record stands for: its tag with its field values and displacement (42_decode_engine.md R206). -/
def instrOfRecord (r : Record) : Option Instr :=
  if r.tag = tagMov then some (.mov r.fields.w r.fields.mod r.fields.reg r.fields.rm (dispOfRecord r))
  else if r.tag = tagPush then some (.push r.fields.mod r.fields.rm (dispOfRecord r))
  else none

/-- A run has ended (42_decode_engine.md R199, R200). -/
def State.terminal {w : Nat} (s : State w) : Prop := s.runState = .doneOk ∨ s.runState = .doneFail

end Sys2Proof.Machine
end

