-- ==== Sys2Proof/Certificates/Slice0/Obligations.lean ====
section
/-! DEFINITION. The statements for the provers, each from the rules of spec/ its docstring names. -/

open Sys2Proof Sys2Proof.Machine

/-! ### Encoding -/

/-- Words written out from the encodings of 30_encoding.md R104 decode to the instructions they stand for, and three
sequences of R111 are rejected by name. -/
def Obligations.WrittenWordsDecode : Prop :=
  decode [0b11000110, 0b00000000] = .ok (.mov 0 0 0 0 .none) [] ∧
  decode [0b11000111, 0b00000110, 0x34, 0x12] = .ok (.mov 1 0 0 6 (.word 0x1234)) [] ∧
  decode [0b11000110, 0b01011101, 0x10, 0xAA] = .ok (.mov 0 1 3 5 (.byte 0x10)) [0xAA] ∧
  decode [0b11111111, 0b11110000] = .ok (.push 3 0 .none) [] ∧
  decode [0b11111111, 0b10110111, 0x00, 0x80] = .ok (.push 2 7 (.word 0x8000)) [] ∧
  decode [0b10010000] = .reject .noMatch ∧
  decode [0b11111111, 0b11111000] = .reject .noMatch ∧
  decode [0b11000110] = .reject .endOfInput

/-- Every well-formed instruction, with every operand at every value its field admits, is read back from its encoding,
and the bytes after it are left. -/
def Obligations.DecodeOfEncode : Prop :=
  ∀ (i : Instr) (rest : List Byte), i.wellFormed = true → decode (encode i ++ rest) = .ok i rest

/-- The other direction: what the decoder reads is well formed, and its encoding is exactly the bytes it was read from. -/
def Obligations.EncodeOfDecode : Prop :=
  ∀ (bs : List Byte) (i : Instr) (rest : List Byte), decode bs = .ok i rest → i.wellFormed = true ∧ bs = encode i ++ rest

/-- The opcode map (30_encoding.md R110, R111): 0xC6 and 0xC7 are MOV for every second byte, 0xFF is PUSH when bits 5:3 of
the second byte are 110, each when its displacement is all there; every other sequence spells no instruction. -/
def Obligations.AcceptedByteSequences : Prop :=
  ∀ (b0 b1 : Byte) (tl : List Byte),
    let mod := b1.extractLsb' 6 2
    let rm := b1.extractLsb' 0 3
    let n := if mod = 0 then (if rm = 6 then 2 else 0) else if mod = 1 then 1 else if mod = 2 then 2 else 0
    (b0 = 0xC6 ∨ b0 = 0xC7 → n ≤ tl.length →
      ∃ d, decode (b0 :: b1 :: tl) = .ok (.mov (b0.extractLsb' 0 1) mod (b1.extractLsb' 3 3) rm d) (tl.drop n) ∧
        dispBytes d = n) ∧
    (b0 = 0xFF → b1.extractLsb' 3 3 = 6 → n ≤ tl.length →
      ∃ d, decode (b0 :: b1 :: tl) = .ok (.push mod rm d) (tl.drop n) ∧ dispBytes d = n) ∧
    (¬(((b0 = 0xC6 ∨ b0 = 0xC7) ∨ (b0 = 0xFF ∧ b1.extractLsb' 3 3 = 6)) ∧ n ≤ tl.length) →
      ∃ r, decode (b0 :: b1 :: tl) = .reject r) ∧
    (∃ r, decode [b0] = .reject r) ∧ (∃ r, decode [] = .reject r)

/-- DispLen (41_field_elements.md R165), for every value of the direct-address escape; the default design's is 110. -/
def Obligations.DisplacementLengths : Prop :=
  directAddrRm = 0b110 ∧ ∀ (esc : BitVec 3) (mod : BitVec 2) (rm : BitVec 3),
    (mod = 0b11 → dispLen esc mod rm = 0) ∧
    (mod = 0b00 → rm = esc → dispLen esc mod rm = 2) ∧
    (mod = 0b00 → rm ≠ esc → dispLen esc mod rm = 0) ∧
    (mod = 0b01 → dispLen esc mod rm = 1) ∧
    (mod = 0b10 → dispLen esc mod rm = 2)

/-! ### The two instructions -/

/-- MOV (43_templates.md R230, 42_decode_engine.md R196): with the sink ready it completes, for every operand, with its
record appended, POS and INST_COUNT advanced, the hidden registers as its attempt leaves them, and nothing else changed.
Where the displacement has a length MOD and RM do not select, which no bytes spell, that it is committed as given is the
model's choice (log 21); where it has the length they do, the length is R230's 2 + DispLen(MOD, RM). -/
def Obligations.MovCommitsItsRecord : Prop :=
  ∀ (w : BitVec 1) (mod : BitVec 2) (reg rm : BitVec 3) (disp : Disp) (s : State), s.host.ready = true →
    let len := 2 + dispBytes disp
    let f : FieldRegs := ⟨0, w, 0, 0, 0, mod, reg, rm, 0, 0, 0x0E2⟩
    exec (.mov w mod reg rm disp) s = .next
      { s with
        pos := s.pos + BitVec.ofNat 16 len
        instCount := s.instCount + 1
        outq := s.outq ++ [
          { tag := 0x00
            tidx := 0
            offset := s.pos
            byteLength := BitVec.ofNat 4 len
            fields := f
            dispLen := BitVec.ofNat 2 (dispBytes disp)
            disp := dispValue disp }]
        hidden :=
          { cur := ⟨s.pos + BitVec.ofNat 16 len, 0⟩
            ti := 0
            eoiAcc := false
            regs := f
            disp := dispValue disp
            dispLen := BitVec.ofNat 2 (dispBytes disp) } }

/-- PUSH (43_templates.md R231, 42_decode_engine.md R196): as MOV, with W and D reported 1 and REG absent. As there, a
displacement of a length MOD and RM do not select is committed as given by the model's choice (log 21). -/
def Obligations.PushCommitsItsRecord : Prop :=
  ∀ (mod : BitVec 2) (rm : BitVec 3) (disp : Disp) (s : State), s.host.ready = true →
    let len := 2 + dispBytes disp
    let f : FieldRegs := ⟨1, 1, 0, 0, 0, mod, 0, rm, 0, 0, 0x0A3⟩
    exec (.push mod rm disp) s = .next
      { s with
        pos := s.pos + BitVec.ofNat 16 len
        instCount := s.instCount + 1
        outq := s.outq ++ [
          { tag := 0x01
            tidx := 1
            offset := s.pos
            byteLength := BitVec.ofNat 4 len
            fields := f
            dispLen := BitVec.ofNat 2 (dispBytes disp)
            disp := dispValue disp }]
        hidden :=
          { cur := ⟨s.pos + BitVec.ofNat 16 len, 0⟩
            ti := 1
            eoiAcc := false
            regs := f
            disp := dispValue disp
            dispLen := BitVec.ofNat 2 (dispBytes disp) } }

/-- The frame of MOV and PUSH: every byte of BUF, BUF_LEN, RUN_STATE, FAIL_OFFSET, STATUS.EOI and the host's side are
unchanged; OUTQ keeps its records and gains one. POS, INST_COUNT and the hidden registers may change. -/
def Obligations.MeaningsChangeNothingElse : Prop :=
  ∀ (i : Instr) (s t : State), exec i s = .next t →
    (∀ a, t.buf.read a = s.buf.read a) ∧ t.buf = s.buf ∧ t.bufLen = s.bufLen ∧ t.runState = s.runState ∧
    t.failOffset = s.failOffset ∧ t.eoi = s.eoi ∧ t.host = s.host ∧ (∃ r, t.outq = s.outq ++ [r])

/-- While the sink is not ready, MOV and PUSH hold at the Commit: the step is not enabled (42_decode_engine.md R210; U3
"stuck"; log 3). -/
def Obligations.MeaningsHoldWhileSinkNotReady : Prop :=
  ∀ (i : Instr) (s : State), s.host.ready = false → exec i s = .fault .outputHeld

/-- When the bytes at POS decode to i, the machine's step is exec of i; inside a host queue, so is the engine's turn, on
the state without that turn; with the sink not ready the turn passes (log 3). -/
def Obligations.StepRunsTheDecodedInstruction : Prop :=
  ∀ (s : State) (i : Instr) (rest : List Byte), s.runState = .running → s.pos ≠ s.bufLen →
    decode s.fetchBytes = .ok i rest →
    (s.host.queue = [] → step s = exec i s) ∧
    (∀ q, s.host.queue = .engineTurn :: q → s.host.ready = true → step s = exec i (withQueue q s)) ∧
    (∀ q, s.host.queue = .engineTurn :: q → s.host.ready = false → step s = .next (withQueue q s))

/-- The instruction placed by withFetchWord is the one the very next step runs, from every state whose BUF is canonical
(the invariant says it is). -/
def Obligations.PlacedWordIsRunNext : Prop :=
  ∀ (s : State) (nbits w : Nat) (i : Instr), s.buf.wf = true → decodeTableWord nbits w = some i →
    step (s.withFetchWord nbits w) = exec i (s.withFetchWord nbits w)

/-! ### The engine -/

/-- The machine of the default design, written through the decoder and exec, is the spec's template engine
(42_decode_engine.md R190 to R198) run on the default ROM: in every state the two answer the same. -/
def Obligations.StepIsTheTemplateEngine : Prop := ∀ s : State, step s = stepOf defaultDesign s

/-- Every transition keeps the invariant of Safety.lean, from every state that meets it. -/
def Obligations.StepKeepsInvariant : Prop := ∀ s t : State, s.Inv → step s = .next t → t.Inv

/-- The invariant holds after reset. -/
def Obligations.ResetMeetsInvariant : Prop := State.reset.Inv

/-- Success (42_decode_engine.md R199): with POS = BUF_LEN at the start of a step the run ends in DONE_OK and nothing else
changes; in a state of the invariant FAIL_OFFSET and STATUS.EOI are 0 there; and no engine step follows. That the run ends
whether or not the sink is ready is the model's reading (log 5), and the fault that says no step follows is its form (log 3). -/
def Obligations.RunEndsAtBufLen : Prop :=
  ∀ s : State, s.runState = .running → s.pos = s.bufLen → s.host.queue = [] →
    step s = .next { s with runState := .doneOk } ∧ (s.Inv → s.failOffset = 0 ∧ s.eoi = false) ∧
    step { s with runState := .doneOk } = .fault .quiescent

/-- Failure (42_decode_engine.md R200, R197), for any design and BUF_LEN_W: when no template's attempt completes, RUN_STATE becomes
DONE_FAIL, FAIL_OFFSET is POS, STATUS.EOI is EOI_ACC, which is 1 just when some template, attempted at POS, runs out of
input; POS, OUTQ, INST_COUNT, BUF and BUF_LEN are unchanged; and no engine step follows. That the run ends whether or not
the sink is ready is the model's reading (log 5), and the fault that says no step follows is its form (log 3). -/
def Obligations.FailedPositionEndsTheRun : Prop :=
  ∀ (w : Nat) (D : Design) (s : State w), s.runState = .running → s.pos ≠ s.bufLen →
    (∀ t ∈ D.rom, (tryTemplate D s.input s.pos t s.hidden).isOk = false) →
    ∃ h : Hidden w,
      engineStepOf D s = .next { s with hidden := h, failOffset := s.pos, eoi := h.eoiAcc, runState := .doneFail } ∧
      h.eoiAcc = D.rom.any (fun t => (tryTemplate D s.input s.pos t s.hidden).isEoi) ∧
      engineStepOf D { s with hidden := h, failOffset := s.pos, eoi := h.eoiAcc, runState := .doneFail } =
        .fault .quiescent

/-- Bytes that spell no instruction end the run (30_encoding.md R111, 43_templates.md R232): FAIL_OFFSET is POS, and
STATUS.EOI says whether input ran out. For either level of the sink's ready: the model's reading (log 5). -/
def Obligations.RejectedBytesFailTheRun : Prop :=
  ∀ (s : State) (r : Reject), s.runState = .running → s.pos ≠ s.bufLen → s.host.queue = [] →
    decode s.fetchBytes = .reject r →
    ∃ h : Hidden, step s = .next
      { s with hidden := h, failOffset := s.pos, eoi := decide (r = .endOfInput), runState := .doneFail }

/-- Truncation (42_decode_engine.md R209): when the bytes from POS to BUF_LEN are a proper, non-empty beginning of an
instruction, the run fails there with STATUS.EOI = 1 and emits nothing. For either level of the sink's ready: the model's
reading (log 5). -/
def Obligations.TruncatedInstructionFails : Prop :=
  ∀ (s : State) (i : Instr) (n : Nat), s.runState = .running → s.host.queue = [] → i.wellFormed = true →
    0 < n → n < byteLength i → s.bufLen.toNat = s.pos.toNat + n → s.buf.holds s.pos.toNat ((encode i).take n) →
    ∃ h : Hidden, step s = .next { s with hidden := h, failOffset := s.pos, eoi := true, runState := .doneFail }

/-- While RUN_STATE is not RUNNING no engine step is enabled (42_decode_engine.md R198): with no host action the machine
stops by that name, and the engine's turn passes with the block unchanged (log 3). -/
def Obligations.NoEngineStepUnlessRunning : Prop :=
  ∀ s : State, s.runState ≠ .running →
    (s.host.queue = [] → step s = .fault .quiescent) ∧
    (∀ q, s.host.queue = .engineTurn :: q → step s = .next (withQueue q s))

/-- Progress (42_decode_engine.md R203) for every valid design and BUF_LEN_W: a step that leaves the run RUNNING emits one record,
advances POS by its BYTE_LENGTH, at least 1, within BUF_LEN, and counts it. -/
def Obligations.ValidDesignStepAdvances : Prop :=
  ∀ (w : Nat) (D : Design) (s t : State w), validRom D = true → s.pos.toNat ≤ s.bufLen.toNat → engineStepOf D s = .next t →
    t.runState = .running →
    ∃ r : Record w, t.outq = s.outq ++ [r] ∧ r.offset = s.pos ∧ 1 ≤ r.byteLength.toNat ∧
      t.pos.toNat = s.pos.toNat + r.byteLength.toNat ∧ t.pos.toNat ≤ t.bufLen.toNat ∧ t.instCount = s.instCount + 1

/-- Under a valid ROM an attempt that completes has consumed whole bytes, at least one and at most 15, and ends on a byte
boundary (42_decode_engine.md R196, R203; 30_encoding.md R98). -/
def Obligations.ValidTemplatesConsumeWholeBytes : Prop :=
  ∀ (w : Nat) (D : Design) (inp : Input w) (pos : Offset w) (t : Template) (h h' : Hidden w), validRom D = true → t ∈ D.rom →
    tryTemplate D inp pos t h = .ok h' →
    8 ∣ consumedBits pos h' ∧ 8 ≤ consumedBits pos h' ∧ consumedBits pos h' ≤ 8 * 15 ∧ h'.cur.bit = 0

/-- A run whose sink stays ready reaches a terminal state within BUF_LEN - POS + 1 engine steps: from START, where POS is
0, within BUF_LEN + 1 (42_decode_engine.md R203). -/
def Obligations.RunReachesTerminalState : Prop :=
  ∀ s : State, s.runState = .running → s.pos.toNat ≤ s.bufLen.toNat → s.host.queue = [] → s.host.ready = true →
    ∃ (k : Nat) (t : State), k ≤ s.bufLen.toNat - s.pos.toNat + 1 ∧ runSteps step k s = .next t ∧ t.terminal

/-- Round trip (42_decode_engine.md R206): a run over the encodings of well-formed instructions, one after another, emits
exactly their records in order, and stands behind the last of them. -/
def Obligations.EncodedSequenceDecodesBack : Prop :=
  ∀ (s : State) (is : List Instr), s.runState = .running → s.host.queue = [] → s.host.ready = true →
    (∀ i ∈ is, i.wellFormed = true) → s.pos.toNat + (is.flatMap encode).length ≤ s.bufLen.toNat →
    s.buf.holds s.pos.toNat (is.flatMap encode) →
    ∃ (t : State) (rs : List Record), runSteps step is.length s = .next t ∧ t.outq = s.outq ++ rs ∧
      rs.map instrOfRecord = is.map some ∧ t.pos.toNat = s.pos.toNat + (is.flatMap encode).length ∧
      t.runState = .running ∧ t.buf = s.buf ∧ t.bufLen = s.bufLen

/-- Parallel evaluation (42_decode_engine.md R204), for any design and BUF_LEN_W: attempting every template on its own and choosing the
lowest-indexed completed attempt gives the template, the resolved fields, the displacement and the cursor of the
sequential loop, and, when none completes, the same EOI flag. -/
def Obligations.ParallelEvaluationAgrees : Prop :=
  ∀ (w : Nat) (D : Design) (s : State w),
    (attempts D s).2 = ((parallelAttempts D s).find? (fun p => p.2.isOk)).map Prod.fst ∧
    (∀ t h, (parallelAttempts D s).find? (fun p => p.2.isOk) = some (t, .ok h) →
      (attempts D s).1.regs = h.regs ∧ (attempts D s).1.disp = h.disp ∧ (attempts D s).1.dispLen = h.dispLen ∧
      (attempts D s).1.cur = h.cur ∧
      (attempts D s).1.ti = BitVec.ofNat 4 ((parallelAttempts D s).findIdx (fun p => p.2.isOk))) ∧
    ((attempts D s).2 = none → (attempts D s).1.eoiAcc = (parallelAttempts D s).any (fun p => p.2.isEoi))

/-- Speculation (42_decode_engine.md R192): what an earlier attempt left in CUR, F, P, DISP and DISP_LEN does not reach the
next one, and no attempt writes TI or EOI_ACC itself. -/
def Obligations.AttemptsLeaveNoTrace : Prop :=
  ∀ (w : Nat) (D : Design) (inp : Input w) (pos : Offset w) (t : Template) (h h' : Hidden w), h.ti = h'.ti → h.eoiAcc = h'.eoiAcc →
    tryTemplate D inp pos t h = tryTemplate D inp pos t h' ∧
    (tryTemplate D inp pos t h).hidden.ti = h.ti ∧ (tryTemplate D inp pos t h).hidden.eoiAcc = h.eoiAcc

/-- MOV and PUSH are disjoint (43_templates.md R233): where one completes, the other fails by MISMATCH. -/
def Obligations.DefaultTemplatesAreDisjoint : Prop :=
  ∀ (inp : Input) (pos : Offset) (h h' : Hidden),
    (tryTemplate defaultDesign inp pos movTemplate h = .ok h' →
      ∃ g, tryTemplate defaultDesign inp pos pushTemplate h = .fail .mismatch g) ∧
    (tryTemplate defaultDesign inp pos pushTemplate h = .ok h' →
      ∃ g, tryTemplate defaultDesign inp pos movTemplate h = .fail .mismatch g)

/-- The engine only reads BUF (10_state.md R22), for any design and BUF_LEN_W: an engine step leaves BUF, BUF_LEN and the
host's side as they are; RUN_STATE is RUNNING, DONE_OK or DONE_FAIL after it; only a failing step writes FAIL_OFFSET and
STATUS.EOI (R33, R34); and a step that ends the run leaves POS, INST_COUNT and OUTQ as they are. -/
def Obligations.EngineStepKeepsBufAndHost : Prop :=
  ∀ (w : Nat) (D : Design) (s t : State w), engineStepOf D s = .next t →
    t.buf = s.buf ∧ t.bufLen = s.bufLen ∧ t.host = s.host ∧
    (t.runState = .running ∨ t.runState = .doneOk ∨ t.runState = .doneFail) ∧
    (t.runState ≠ .doneFail → t.failOffset = s.failOffset ∧ t.eoi = s.eoi) ∧
    (t.runState ≠ .running → t.pos = s.pos ∧ t.instCount = s.instCount ∧ t.outq = s.outq)

/-- No byte at or past BUF_LEN is read (20_memory.md R61, 42_decode_engine.md R205): two states that differ only in those
bytes take the same step. -/
def Obligations.StepReadsOnlyBelowBufLen : Prop :=
  ∀ (s : State) (m : Memory), s.host.queue = [] → (∀ a, a < s.bufLen.toNat → m.read a = s.buf.read a) →
    step { s with buf := m } = replaceBuf m (step s)

/-- Only START begins a run, and a run ends only from RUNNING (10_state.md R24, 60_exceptions.md R258). -/
def Obligations.OnlyStartBeginsARun : Prop :=
  ∀ s t : State, step s = .next t →
    (t.runState = .running → s.runState = .running ∨
      ∃ v q, s.host.queue = .writeCsr 0 v :: q ∧ v.getLsbD 0 = true) ∧
    (t.terminal → t.runState ≠ s.runState → s.runState = .running)

/-- POS is written only by a Commit, by START, a host write of 1 to CTRL's bit 0 while not RUNNING, and by reset (10_state.md
R25, 42_decode_engine.md R201, R202). -/
def Obligations.OnlyCommitStartAndResetMovePos : Prop :=
  ∀ s t : State, step s = .next t → t.pos ≠ s.pos →
    (∃ r, t.outq = s.outq ++ [r] ∧ r.offset = s.pos ∧ t.pos = s.pos + r.byteLength.setWidth 16) ∨
    (t.pos = 0 ∧ s.runState ≠ .running ∧ ∃ v q, s.host.queue = .writeCsr 0 v :: q ∧ v.getLsbD 0 = true) ∨
    (t.pos = 0 ∧ ∃ f c q, s.host.queue = .reset f c :: q)

/-- Where the machine stops, by name: with no host action and no run (R198), at a Commit with the sink not ready (R210), on
a host write of BUF during a run (20_memory.md R70) or at offset 65535 (10_state.md R22); everywhere else it goes on. That a
run ends whether or not the sink is ready is the model's reading (log 5); the forms of the stops are logs 3, 6 and 20. -/
def Obligations.StepStopsOnlyByName : Prop :=
  ∀ s : State,
    (∃ t, step s = .next t) ∨
    (step s = .fault .quiescent ∧ s.host.queue = [] ∧ s.runState ≠ .running) ∨
    (step s = .fault .outputHeld ∧ s.host.queue = [] ∧ s.runState = .running ∧ s.pos ≠ s.bufLen ∧ s.host.ready = false) ∨
    (step s = .refused .bufWriteDuringRun ∧ s.runState = .running ∧ ∃ a b q, s.host.queue = .writeBuf a b :: q) ∨
    (step s = .fault .bufOffset ∧ s.runState ≠ .running ∧ ∃ b q, s.host.queue = .writeBuf 65535 b :: q)

/-! ### The bit cursor -/

/-- peek_bits (40_bit_cursor.md R132): it fails just when n exceeds the remaining bits; otherwise the value's bits are the
stream's next n, the first the most significant, with zeros above. -/
def Obligations.PeekBitsReadsTheStream : Prop :=
  ∀ (w : Nat) (inp : Input w) (c : Cursor w) (n : Fin 17),
    (8 * inp.bufLen.toNat - c.position < n.val → peekBits inp c n = none) ∧
    (n.val ≤ 8 * inp.bufLen.toNat - c.position → ∃ v, peekBits inp c n = some v ∧
      (∀ k, k < n.val → v.getLsbD (n.val - 1 - k) =
        (inp.buf.read ((c.position + k) / 8)).getLsbD (7 - (c.position + k) % 8)) ∧
      (∀ j, n.val ≤ j → v.getLsbD j = false))

/-- consume_bits (40_bit_cursor.md R133): the value of peek_bits with the cursor n bits on, and the same failure. -/
def Obligations.ConsumeBitsAdvances : Prop :=
  ∀ (w : Nat) (inp : Input w) (c : Cursor w) (n : Fin 17),
    (peekBits inp c n = none → consumeBits inp c n = none) ∧
    (∀ v, peekBits inp c n = some v → ∃ c', consumeBits inp c n = some (v, c') ∧ c'.position = c.position + n.val ∧
      c'.bit.toNat = (c.position + n.val) % 8)

/-- A zero-width request returns 0, never fails and leaves CUR unchanged (40_bit_cursor.md R134). -/
def Obligations.ZeroWidthRequestIsFree : Prop :=
  ∀ (w : Nat) (inp : Input w) (c : Cursor w), peekBits inp c 0 = some 0 ∧ consumeBits inp c 0 = some (0, c)

/-- The hardware form (40_bit_cursor.md R139): a request inside one byte is that byte shifted right and masked. -/
def Obligations.RequestInsideAByte : Prop :=
  ∀ (w : Nat) (inp : Input w) (b : Offset w) (c : BitVec 3) (n : Fin 17), c.toNat + n.val ≤ 8 → b.toNat < inp.bufLen.toNat →
    ∃ v, peekBits inp ⟨b, c⟩ n = some v ∧
      v.toNat = (inp.buf.read b.toNat).toNat / 2 ^ (8 - c.toNat - n.val) % 2 ^ n.val

/-- A request across a byte boundary (40_bit_cursor.md R135): the first byte's low bits, then the next byte's high bits;
with the second byte past BUF_LEN it fails. -/
def Obligations.RequestAcrossBytes : Prop :=
  ∀ (w : Nat) (inp : Input w) (b : Offset w) (c : BitVec 3) (n : Fin 17), n.val ≤ 8 → 8 < c.toNat + n.val →
    (b.toNat + 1 < inp.bufLen.toNat → ∃ v, peekBits inp ⟨b, c⟩ n = some v ∧
      v.toNat = (inp.buf.read b.toNat).toNat % 2 ^ (8 - c.toNat) * 2 ^ (c.toNat + n.val - 8) +
        (inp.buf.read (b.toNat + 1)).toNat / 2 ^ (16 - c.toNat - n.val)) ∧
    (inp.bufLen.toNat ≤ b.toNat + 1 → peekBits inp ⟨b, c⟩ n = none)

/-! ### Field elements -/

/-- The elements read from the stream with a fixed width (41_field_elements.md R152 to R160): with the bits there, F[k] is
their value, P[k] is 1, CUR is behind them, every other field register is unchanged; with too few, EOI and no change. -/
def Obligations.ReadingElementsFillTheirKey : Prop :=
  ∀ (w : Nat) (inp : Input w) (d : Descriptor) (k : Key) (n : Nat) (h : Hidden w), kindWidth d.kind = some n → kindKey d.kind = some k →
    d.kind ≠ .dataHigh →
    (8 * inp.bufLen.toNat - h.cur.position < n → element inp d h = .fail .eoi h) ∧
    (n ≤ 8 * inp.bufLen.toNat - h.cur.position → ∃ h' v, element inp d h = .ok h' ∧
      (∃ hn : n < 17, peekBits inp h.cur ⟨n, hn⟩ = some v) ∧ h'.regs.get k = v.setWidth 8 ∧ h'.regs.has k = true ∧
      h'.cur.position = h.cur.position + n ∧
      (∀ k', k' ≠ k → h'.regs.get k' = h.regs.get k' ∧ h'.regs.has k' = h.regs.has k') ∧
      h'.disp = h.disp ∧ h'.dispLen = h.dispLen ∧ h'.ti = h.ti ∧ h'.eoiAcc = h.eoiAcc)

/-- Literal (41_field_elements.md R151): EOI when fewer bits remain than it has, whatever they are; else all its bits are
consumed, and it matches when they are the literal; no field register is written. -/
def Obligations.LiteralComparesAllItsBits : Prop :=
  ∀ (w : Nat) (inp : Input w) (d : Descriptor) (h : Hidden w), d.kind = .literal →
    (8 * inp.bufLen.toNat - h.cur.position < d.width.toNat → element inp d h = .fail .eoi h) ∧
    (d.width.toNat ≤ 8 * inp.bufLen.toNat - h.cur.position → ∃ v c,
      peekBits inp h.cur (widthRequest d.width) = some v ∧ c.position = h.cur.position + d.width.toNat ∧
      (v.toNat = d.value.toNat → element inp d h = .ok { h with cur := c }) ∧
      (v.toNat ≠ d.value.toNat → element inp d h = .fail .mismatch { h with cur := c }))

/-- DataHigh (41_field_elements.md R161): it consumes a byte, into F[DHI], just when F[W] = 1 and not (P[S] = 1 and
F[S] = 1); otherwise it consumes and writes nothing. -/
def Obligations.DataHighFollowsWidthAndSign : Prop :=
  ∀ (w : Nat) (inp : Input w) (d : Descriptor) (h : Hidden w), d.kind = .dataHigh →
    let consumes := h.regs.w = 1 ∧ ¬(h.regs.has .s = true ∧ h.regs.s = 1)
    (¬consumes → element inp d h = .ok h) ∧
    (consumes → 8 * inp.bufLen.toNat - h.cur.position < 8 → element inp d h = .fail .eoi h) ∧
    (consumes → 8 ≤ 8 * inp.bufLen.toNat - h.cur.position → ∃ h' v, element inp d h = .ok h' ∧
      peekBits inp h.cur 8 = some v ∧ h'.regs.dhi = v.setWidth 8 ∧ h'.regs.has .dhi = true ∧
      h'.cur.position = h.cur.position + 8 ∧
      (∀ k, k ≠ Key.dhi → h'.regs.get k = h.regs.get k ∧ h'.regs.has k = h.regs.has k) ∧
      h'.disp = h.disp ∧ h'.dispLen = h.dispLen ∧ h'.ti = h.ti ∧ h'.eoiAcc = h.eoiAcc)

/-- ImpliedWidth and ImpliedDirection (41_field_elements.md R162, R163): they never fail, write their constant and its
present bit, and touch neither CUR nor any other field register. -/
def Obligations.ImpliedElementsWriteTheirConstant : Prop :=
  ∀ (w : Nat) (inp : Input w) (d : Descriptor) (h : Hidden w) (k : Key), (d.kind = .impliedWidth ∧ k = .w) ∨
      (d.kind = .impliedDirection ∧ k = .d) →
    ∃ f : FieldRegs, element inp d h = .ok { h with regs := f } ∧ f.has k = true ∧
      f.get k = d.value &&& 1 ∧ (∀ k', k' ≠ k → f.get k' = h.regs.get k' ∧ f.has k' = h.regs.has k')

/-- DispExt at a byte boundary (41_field_elements.md R166): no byte, one raw byte zero-extended, or two bytes low byte
first; EOI when a byte is at or past BUF_LEN. -/
def Obligations.DisplacementIsReadLowByteFirst : Prop :=
  ∀ (w : Nat) (esc : BitVec 3) (inp : Input w) (h : Hidden w), h.cur.bit = 0 →
    let n := (dispLen esc h.regs.mod h.regs.rm).toNat
    let b := h.cur.byte.toNat
    (n = 0 → dispExt esc inp h = .ok { h with disp := 0, dispLen := 0 }) ∧
    (n = 1 → b + 1 ≤ inp.bufLen.toNat → dispExt esc inp h = .ok { h with
      cur := ⟨h.cur.byte + 1, 0⟩, disp := (inp.buf.read b).setWidth 16, dispLen := 1 }) ∧
    (n = 2 → b + 2 ≤ inp.bufLen.toNat → dispExt esc inp h = .ok { h with
      cur := ⟨h.cur.byte + 2, 0⟩, disp := inp.buf.read (b + 1) ++ inp.buf.read b, dispLen := 2 }) ∧
    (inp.bufLen.toNat < b + n → 0 < n → ∃ g, dispExt esc inp h = .fail .eoi g)

/-! ### The template ROM -/

/-- The default ROM (30_encoding.md R101 to R103): it passes every check, its image is the listed words and reads back as it,
DispExt runs after element 4 of MOV and element 3 of PUSH (41_field_elements.md R164), and L_MAX is 4 (R7). -/
def Obligations.DefaultRomImage : Prop :=
  romFailures defaultDesign = [] ∧
  defaultRom.map templateImage =
    [⟨0x0005, [0x07163, 0x31000, 0x62600, 0x73300, 0x83000]⟩,
     ⟨0x0106, [0x080FF, 0x62600, 0x03306, 0x83000, 0xB0001, 0xC0001]⟩] ∧
  readRom (defaultRom.map templateImage) = .ok defaultRom ∧
  defaultRom.map insertionPoint = [some 4, some 3] ∧ lMax defaultRom = 4

/-- The ROM image format (30_encoding.md R84) loses nothing: a template of at most 15 fields reads back from its image. -/
def Obligations.TemplateImageRoundTrip : Prop :=
  ∀ t : Template, t.fields.length ≤ 15 → readTemplate (templateImage t) = .ok t

/-- A ROM that fails a construction check has no run (30_encoding.md R100, 60_exceptions.md R251), and a valid one runs, for
any BUF_LEN_W. A ROM whose image holds an invalid kind code in template k has none either, CE_KIND being recorded with the
index k (30_encoding.md R89, 60_exceptions.md R250). That having no run is a refusal of every step is the model's form
(log 16), and that the refusal lists every failing check is its choice under U21 (log 12). -/
def Obligations.InvalidRomHasNoRun : Prop :=
  ∀ (w : Nat) (D : Design) (s : State w),
    (validRom D = false → romFailures D ≠ [] ∧ stepOf D s = .refused (.invalidRom (romFailures D))) ∧
    (validRom D = true → stepOf D s = turn D (engineStepOf D) s) ∧
    (∀ (ims : List TemplateImage) (k : Nat) (im : TemplateImage) (word : BitVec 20), ims[k]? = some im → word ∈ im.words →
      12 < (word.extractLsb' 16 4).toNat →
      ∃ es, stepOfImage D ims s = .refused (.invalidImage es) ∧ (k, .check .kind) ∈ es)

/-! ### The host's side -/

/-- Reset values (10_state.md R50; vector X-1): every field the rule names, and what the seven CSRs then read. -/
def Obligations.ResetValues : Prop :=
  State.reset.bufLen = 0 ∧ State.reset.runState = .idle ∧ State.reset.pos = 0 ∧ State.reset.hidden.cur = ⟨0, 0⟩ ∧
  State.reset.hidden.ti = 0 ∧ State.reset.hidden.eoiAcc = false ∧
  (∀ k : Key, State.reset.hidden.regs.get k = 0 ∧ State.reset.hidden.regs.has k = false) ∧
  State.reset.hidden.disp = 0 ∧ State.reset.hidden.dispLen = 0 ∧ State.reset.failOffset = 0 ∧
  State.reset.eoi = false ∧ State.reset.instCount = 0 ∧ State.reset.outq = [] ∧ State.reset.done = false ∧
  [0, 1, 2, 3, 4, 5, 6].map (fun n => csrRead defaultDesign n State.reset) = [0, 0, 0, 0, 0, 0, 0x402]

/-- Reset as a host action (70_reset_and_hazards.md R280), from any state, RUNNING or not: the block is at its reset values
with BUF as the action gives it (U5); the records the host took stay with it, and, when the action says so, the one in
flight is added (U4): OUTQ's head, or with OUTQ empty the record of the Commit the engine holds, none when the sink is
ready. Which record is in flight, and that both open values are the action's arguments, is log 7; that the host's ready
level, its taken records and its last CSR answer stay is the model's choice (logs 4, 8). -/
def Obligations.ResetActionResetsTheBlock : Prop :=
  ∀ (s : State) (f : Bool) (cells : List Host.Cell) (q : List HostAct), s.host.queue = .reset f cells :: q →
    ∃ t, step s = .next t ∧ t.bufLen = 0 ∧ t.runState = .idle ∧ t.pos = 0 ∧ t.hidden = State.reset.hidden ∧
      t.failOffset = 0 ∧ t.eoi = false ∧ t.instCount = 0 ∧ t.outq = [] ∧ t.host.queue = q ∧
      t.host.ready = s.host.ready ∧ t.host.readData = s.host.readData ∧
      (∀ a, a < 65535 → t.buf.read a = ((cells.find? (fun c => c.1 == a)).map Prod.snd).getD 0) ∧
      (f = false → t.host.taken = s.host.taken) ∧
      (f = true → t.host.taken = s.host.taken ++ (recordInFlight engineStep (withQueue q s)).toList) ∧
      (∀ x xs, s.outq = x :: xs → recordInFlight engineStep (withQueue q s) = some x) ∧
      (s.outq = [] → s.host.ready = true → recordInFlight engineStep (withQueue q s) = none) ∧
      (∀ i rest, s.outq = [] → s.host.ready = false → s.runState = .running → s.pos ≠ s.bufLen →
        decode s.fetchBytes = .ok i rest → ∃ r u, recordInFlight engineStep (withQueue q s) = some r ∧
          exec i (setReady true (withQueue q s)) = .next u ∧ u.outq = [r])

/-- START (42_decode_engine.md R201): a host write with bit 0 set to CTRL while not RUNNING begins a run from offset 0;
BUF_LEN and BUF keep their values; no other CSR write begins one. -/
def Obligations.StartBeginsARunAtZero : Prop :=
  (∀ (s : State) (v : CsrWord) (q : List HostAct), s.host.queue = .writeCsr 0 v :: q → v.getLsbD 0 = true →
    s.runState ≠ .running →
    step s = .next
      { s with
        pos := 0
        failOffset := 0
        eoi := false
        instCount := 0
        outq := []
        runState := .running
        host := { s.host with queue := q } }) ∧
  (∀ (n : Nat) (v : CsrWord) (s : State), s.runState ≠ .running → ¬(n = 0 ∧ v.getLsbD 0 = true) →
    (csrWrite n v s).runState = s.runState)

/-- While RUNNING every CSR write is ignored, START's and BUF_LEN's with the others: no command aborts a run
(42_decode_engine.md R202, 10_state.md R44). -/
def Obligations.CsrWritesIgnoredWhileRunning : Prop :=
  ∀ (n : Nat) (v : CsrWord) (s : State), s.runState = .running → csrWrite n v s = s

/-- CTRL (10_state.md R42): bit 0 set requests a run, bit 0 clear does nothing, the other bits are ignored, and every read
returns 0. -/
def Obligations.CtrlRegister : Prop :=
  ∀ (D : Design) (v : CsrWord) (s : State),
    (v.getLsbD 0 = false → csrWrite 0 v s = s) ∧ csrWrite 0 v s = csrWrite 0 (v &&& 1) s ∧
    (v.getLsbD 0 = true → s.runState ≠ .running → (csrWrite 0 v s).runState = .running) ∧ csrRead D 0 s = 0

/-- STATUS (10_state.md R43, R24): bits 1:0 RUN_STATE, bit 2 EOI, the rest 0; writes are ignored; it reads 0 after reset;
in a state of the invariant EOI is 0 unless RUN_STATE is 3. -/
def Obligations.StatusRegister : Prop :=
  ∀ (D : Design) (v : CsrWord) (s : State),
    (csrRead D 1 s).toNat = (match s.runState with | .idle => 0 | .running => 1 | .doneOk => 2 | .doneFail => 3) +
      (if s.eoi then 4 else 0) ∧
    csrWrite 1 v s = s ∧ csrRead D 1 State.reset = 0 ∧
    (s.Inv → s.runState ≠ .doneFail → (csrRead D 1 s).getLsbD 2 = false)

/-- The completion level (60_exceptions.md R259): done is 1 just in the two terminal states, 0 after reset, and START
clears it. -/
def Obligations.DoneLevel : Prop :=
  ∀ (v : CsrWord) (s : State),
    (s.done = true ↔ s.terminal) ∧ State.reset.done = false ∧
    (v.getLsbD 0 = true → s.runState ≠ .running → (csrWrite 0 v s).done = false)

/-- BUF_LEN (10_state.md R44): reads its 16 bits with zeros above; a write while not RUNNING sets bits 15:0 and nothing
else, and while RUNNING is ignored; 0 after reset. -/
def Obligations.BufLenRegister : Prop :=
  ∀ (D : Design) (v : CsrWord) (s : State),
    (csrRead D 2 s).toNat = s.bufLen.toNat ∧
    (s.runState ≠ .running → csrWrite 2 v s = { s with bufLen := v.extractLsb' 0 16 }) ∧
    (s.runState = .running → csrWrite 2 v s = s) ∧ csrRead D 2 State.reset = 0

/-- FAIL_OFFSET and INST_COUNT, and POS beside them (10_state.md R45 to R47): read-only, 16 bits with zeros above, 0 after
reset. -/
def Obligations.ReadOnlyRegisters : Prop :=
  ∀ (D : Design) (v : CsrWord) (s : State),
    (csrRead D 3 s).toNat = s.pos.toNat ∧ (csrRead D 4 s).toNat = s.failOffset.toNat ∧
    (csrRead D 5 s).toNat = s.instCount.toNat ∧ csrWrite 3 v s = s ∧ csrWrite 4 v s = s ∧ csrWrite 5 v s = s ∧
    csrRead D 3 State.reset = 0 ∧ csrRead D 4 State.reset = 0 ∧ csrRead D 5 State.reset = 0

/-- ROM_INFO (10_state.md R48): bits 4:0 NT, bits 11:8 L_MAX, all others 0, the same in every state, writes ignored; 0x402
for the default ROM. (A design whose MAX_TEMPLATES is above 31 could have an NT that 5 bits do not hold.) -/
def Obligations.RomInfoRegister : Prop :=
  ∀ (D : Design) (v : CsrWord) (s s' : State),
    (validRom D = true → D.maxTemplates ≤ 31 → (csrRead D 6 s).toNat = D.rom.length + 256 * lMax D.rom) ∧
    csrRead D 6 s = csrRead D 6 s' ∧ csrWrite 6 v s = s ∧ csrRead defaultDesign 6 s = 0x402

/-- CSR access rules (10_state.md R41, R49): numbers 7 and above read 0; only CTRL and BUF_LEN take writes; a read answers
the host with the register and changes nothing of the block. -/
def Obligations.CsrAccessRules : Prop :=
  ∀ (s : State) (n : Nat) (v : CsrWord),
    (7 ≤ n → csrRead defaultDesign n s = 0) ∧ (n ≠ 0 → n ≠ 2 → csrWrite n v s = s) ∧
    (∀ q, s.host.queue = .readCsr n :: q → step s = .next
      { s with host := { s.host with queue := q, readData := csrRead defaultDesign n s } }) ∧
    (∀ q, s.host.queue = .writeCsr n v :: q → step s = .next (csrWrite n v { s with host := { s.host with queue := q } }))

/-- A host write of BUF (10_state.md R22, 70_reset_and_hazards.md R282, R284): between runs it sets the one byte and leaves
every other byte and the rest of the block unchanged (the byte reads back where BUF is canonical, as the invariant says);
during a run it is refused (log 6); offset 65535 does not exist. -/
def Obligations.HostWritesBufBetweenRuns : Prop :=
  ∀ (s : State) (a : Offset) (b : Byte) (q : List HostAct), s.host.queue = .writeBuf a b :: q →
    (s.runState ≠ .running → a.toNat < 65535 → ∃ m, step s = .next { s with buf := m, host := { s.host with queue := q } } ∧
      (s.buf.wf = true → m.read a.toNat = b) ∧ ∀ a', a' ≠ a.toNat → m.read a' = s.buf.read a') ∧
    (s.runState = .running → step s = .refused .bufWriteDuringRun) ∧
    (s.runState ≠ .running → a.toNat = 65535 → step s = .fault .bufOffset)

/-- The output stream's host side (10_state.md R36, 42_decode_engine.md R210): the host consumes from OUTQ's head and
drives the ready level; neither changes anything else of the block. -/
def Obligations.HostDrainsFromTheHead : Prop :=
  ∀ (s : State) (q : List HostAct),
    (∀ r rs, s.host.queue = .drain :: q → s.outq = r :: rs → step s = .next
      { s with outq := rs, host := { s.host with queue := q, taken := s.host.taken ++ [r] } }) ∧
    (s.host.queue = .drain :: q → s.outq = [] → step s = .next { s with host := { s.host with queue := q } }) ∧
    (∀ b, s.host.queue = .setReady b :: q → step s = .next { s with host := { s.host with queue := q, ready := b } })

/-- An empty buffer (42_decode_engine.md R208): START with BUF_LEN = 0, then one engine step, reaches DONE_OK with OUTQ
empty, POS, INST_COUNT and FAIL_OFFSET 0 and no error. For either level of the sink's ready: the model's reading (log 5). -/
def Obligations.EmptyBufferSucceeds : Prop :=
  ∀ s : State, s.runState ≠ .running → s.bufLen = 0 → s.host.queue = [.writeCsr 0 1] →
    ∃ t, runSteps step 2 s = .next t ∧ t.runState = .doneOk ∧ t.outq = [] ∧ t.pos = 0 ∧ t.instCount = 0 ∧
      t.failOffset = 0 ∧ t.eoi = false ∧ (csrRead defaultDesign 1 t).toNat = 2

/-- The blocks are independent (60_exceptions.md R263), for any number of blocks of any design and BUF_LEN_W: block i's step is
its own step alone, with the shared ROM, and every other block stays as it is. -/
def Obligations.BlocksShareNoState : Prop :=
  ∀ (w : Nat) (D : Design) (i : Nat) (bs : List (State w)) (s : State w), bs[i]? = some s →
    (∀ s', stepOf D s = .next s' → ∃ bs', blocksStep D i bs = .next bs' ∧ bs'[i]? = some s' ∧ bs'.length = bs.length ∧
      ∀ j, j ≠ i → bs'[j]? = bs[j]?) ∧
    (∀ f, stepOf D s = .fault f → blocksStep D i bs = .fault f) ∧
    (∀ r, stepOf D s = .refused r → blocksStep D i bs = .refused r)

/-! ### Any template's encoding -/

/-- Round trip for any ROM (42_decode_engine.md R206), for every valid design and BUF_LEN_W: over the encodings of a sequence
of templates with given field values and displacements, laid one after another from POS on, where no template of a lower
index accepts a prefix of the bytes at any of them, the engine emits exactly their records in order, and stands behind the
last. Each record carries the given value of every field its template reads, DataHigh's when R161 consumes it. -/
def Obligations.EncodedTemplatesDecodeBack : Prop :=
  ∀ (w : Nat) (D : Design) (s : State w) (xs : List Item), validRom D = true → s.runState = .running →
    s.host.ready = true → (∀ x ∈ xs, x.legal D = true) → s.pos.toNat + (xs.flatMap Item.encode).length ≤ s.bufLen.toNat →
    s.buf.holds s.pos.toNat (xs.flatMap Item.encode) → noEarlierAccepts D s.input s.pos.toNat xs = true →
    (∃ t, runSteps (engineStepOf D) xs.length s = .next t ∧ t.outq = s.outq ++ recordsFrom s.pos.toNat xs ∧
      t.pos.toNat = s.pos.toNat + (xs.flatMap Item.encode).length ∧ t.instCount = s.instCount + BitVec.ofNat w xs.length ∧
      t.runState = .running ∧ t.buf = s.buf ∧ t.bufLen = s.bufLen) ∧
    (∀ x ∈ xs, ∀ d ∈ x.template.fields, ∀ k, kindKey d.kind = some k →
      (isImplied d.kind = false → d.kind ≠ .dataHigh → x.code.regs.get k = x.values.get k ∧ x.code.regs.has k = true) ∧
      (isImplied d.kind = true → x.code.regs.get k = d.value ∧ x.code.regs.has k = true) ∧
      (d.kind = .dataHigh → x.code.regs.has k = true → x.code.regs.get k = x.values.get k))
end

