-- ==== Sys2Proof/Laws/Cursor.lean ====
section
/-! SUPPORT. What the bit cursor can do (40_bit_cursor.md R130 to R139), said once for every caller. -/

namespace Sys2Proof.Machine

variable {w : Nat}

theorem Cursor.position_ofPosition {p : Nat} (h : p < 8 * 2 ^ w) : (Cursor.ofPosition p : Cursor w).position = p := by
  simp only [Cursor.ofPosition, Cursor.position, BitVec.toNat_ofNat]
  rw [Nat.mod_eq_of_lt (show p / 8 < 2 ^ w by omega)]
  omega

theorem Cursor.ofPosition_position (c : Cursor w) : Cursor.ofPosition c.position = c := by
  obtain ⟨b, k⟩ := c
  have hb := b.isLt
  have hk := k.isLt
  simp only [Cursor.ofPosition, Cursor.position, Cursor.mk.injEq]
  constructor
  · apply BitVec.eq_of_toNat_eq
    rw [BitVec.toNat_ofNat, Nat.mod_eq_of_lt (by omega)]
    omega
  · apply BitVec.eq_of_toNat_eq
    rw [BitVec.toNat_ofNat]
    omega

theorem Cursor.position_lt (c : Cursor w) : c.position < 8 * 2 ^ w := by
  have hb := c.byte.isLt
  have hk := c.bit.isLt
  unfold Cursor.position
  omega

/-- A byte-aligned position is a cursor at bit 0. -/
theorem Cursor.ofPosition_aligned (n : Nat) : (Cursor.ofPosition (8 * n) : Cursor w) = ⟨BitVec.ofNat w n, 0⟩ := by
  simp [Cursor.ofPosition, Nat.mul_mod_right]

/-- The value bits of gatherBits: the last n are the stream's, the others are v's, moved up. -/
theorem gatherBits_getLsbD (m : Memory) (p n : Nat) (v : BitVec 16) (j : Nat) (hj : j < 16) :
    (gatherBits m p n v).getLsbD j = if j < n then streamBit m (p + (n - 1 - j)) else v.getLsbD (j - n) := by
  induction n generalizing p v with
  | zero => simp [gatherBits]
  | succ n ih =>
    rw [gatherBits, ih]
    by_cases h1 : j < n
    · rw [if_pos h1, if_pos (by omega)]
      congr 1
      omega
    · rw [if_neg h1]
      by_cases h2 : j = n
      · subst h2
        simp only [Nat.sub_self, Nat.lt_add_one, ↓reduceIte, BitVec.getLsbD_or, BitVec.getLsbD_shiftLeft]
        rw [show p + (j + 1 - 1 - j) = p by omega]
        cases streamBit m p <;> simp
      · rw [if_neg (show ¬ j < n + 1 by omega)]
        have hz : ∀ b : Bool, (if b = true then (1 : BitVec 16) else 0).getLsbD (j - n) = false := by
          intro b
          have : j - n ≠ 0 := by omega
          cases b <;> simp [BitVec.getLsbD_one, this]
        rw [BitVec.getLsbD_or, hz, BitVec.getLsbD_shiftLeft]
        have : j - n < 16 := by omega
        have h1' : ¬ j - n < 1 := by omega
        simp [this, h1']
        congr 1

/-- A request inside one byte is that byte's field (40_bit_cursor.md R139). -/
theorem gatherBits_inside (m : Memory) (b c n : Nat) (h : c + n ≤ 8) :
    gatherBits m (8 * b + c) n 0 = ((m.read b).extractLsb' (8 - c - n) n).setWidth 16 := by
  apply BitVec.eq_of_getLsbD_eq
  intro j hj
  rw [gatherBits_getLsbD m _ n 0 j hj]
  by_cases hn : j < n
  · rw [if_pos hn, streamBit, show (8 * b + c + (n - 1 - j)) / 8 = b by omega,
      show 7 - (8 * b + c + (n - 1 - j)) % 8 = 8 - c - n + j by omega]
    simp [hj, hn]
  · rw [if_neg hn]
    simp [hn]

theorem peekBits_eq_none {inp : Input w} {c : Cursor w} {n : Fin 17} : peekBits inp c n = none ↔ remaining inp c < n.val := by
  unfold peekBits
  split <;> simp_all

theorem peekBits_eq_some {inp : Input w} {c : Cursor w} {n : Fin 17} {v : BitVec 16} :
    peekBits inp c n = some v ↔ n.val ≤ remaining inp c ∧ v = gatherBits inp.buf c.position n.val 0 := by
  unfold peekBits
  split
  · simp only [reduceCtorEq, false_iff, not_and]
    omega
  · simp only [Option.some.injEq]
    exact ⟨fun h => ⟨by omega, h.symm⟩, fun h => h.2.symm⟩

/-- consume_bits fails just when too few bits remain (40_bit_cursor.md R133). -/
theorem consumeBits_eq_none {inp : Input w} {c : Cursor w} {n : Fin 17} :
    consumeBits inp c n = none ↔ remaining inp c < n.val := by
  rw [← peekBits_eq_none]
  unfold consumeBits
  split <;> simp_all

/-- consume_bits gives the value of peek_bits and the cursor n bits on (40_bit_cursor.md R133). -/
theorem consumeBits_eq_some {inp : Input w} {c c' : Cursor w} {n : Fin 17} {v : BitVec 16} :
    consumeBits inp c n = some (v, c') ↔
      n.val ≤ remaining inp c ∧ v = gatherBits inp.buf c.position n.val 0 ∧ c' = Cursor.ofPosition (c.position + n.val) := by
  unfold consumeBits
  cases h : peekBits inp c n with
  | none =>
    simp only [reduceCtorEq, false_iff, not_and]
    intro h'
    rw [peekBits_eq_none] at h
    omega
  | some w =>
    rw [peekBits_eq_some] at h
    simp only [Option.some.injEq, Prod.mk.injEq]
    constructor
    · rintro ⟨rfl, rfl⟩
      exact ⟨h.1, h.2, rfl⟩
    · rintro ⟨_, rfl, rfl⟩
      exact ⟨h.2, rfl⟩

/-- A consume that succeeds moves the absolute position by n, still within the buffer. -/
theorem consumeBits_position {inp : Input w} {c c' : Cursor w} {n : Fin 17} {v : BitVec 16}
    (h : consumeBits inp c n = some (v, c')) : c'.position = c.position + n.val := by
  rw [consumeBits_eq_some] at h
  rw [h.2.2]
  have hp := c.position_lt
  have hl := inp.bufLen.isLt
  have hr := h.1
  unfold remaining at hr
  by_cases hn : n.val = 0
  · rw [hn, Nat.add_zero, Cursor.ofPosition_position]
  · exact Cursor.position_ofPosition (by omega)

/-- A read of n bits at bit k of byte b, inside that byte, from a byte below BUF_LEN: its value and the cursor after it. -/
theorem consumeBits_inside {inp : Input w} {b k : Nat} {n : Fin 17} (hk : k + n.val ≤ 8) (hb : b < inp.bufLen.toNat) :
    consumeBits inp (Cursor.ofPosition (8 * b + k)) n =
      some (((inp.buf.read b).extractLsb' (8 - k - n.val) n.val).setWidth 16, Cursor.ofPosition (8 * b + (k + n.val))) := by
  have hl := inp.bufLen.isLt
  by_cases hn : 8 * b + k < 8 * 2 ^ w
  · rw [consumeBits_eq_some, Cursor.position_ofPosition hn]
    refine ⟨?_, ?_, ?_⟩
    · unfold remaining
      rw [Cursor.position_ofPosition hn]
      omega
    · rw [gatherBits_inside _ _ _ _ hk]
    · rw [Nat.add_assoc]
  · omega

/-- A read at a byte at or past BUF_LEN fails. -/
theorem consumeBits_past {inp : Input w} {b : Nat} {n : Fin 17} (hn : 0 < n.val) (hb : inp.bufLen.toNat ≤ b)
    (hlt : b < 2 ^ w) : consumeBits inp (Cursor.ofPosition (8 * b)) n = none := by
  rw [consumeBits_eq_none]
  unfold remaining
  rw [Cursor.position_ofPosition (by omega)]
  omega

end Sys2Proof.Machine
end

