-- ==== Sys2Proof/Laws/Elements.lean ====
section
/-! SUPPORT. The resolved-field registers and the field elements (10_state.md R31, 41_field_elements.md): what each can do,
said once, so that nothing above them unfolds an element. -/

namespace Sys2Proof.Machine

variable {w : Nat}

/-! ### F and P -/

theorem keyIndex_inj {k k' : Key} (h : keyIndex k = keyIndex k') : k = k' := by
  cases k <;> cases k' <;> first | rfl | simp [keyIndex] at h

theorem FieldRegs.has_put_same (f : FieldRegs) (k : Key) (v : BitVec 16) : (f.put k v).has k = true := by
  cases k <;> simp [FieldRegs.put, FieldRegs.has, markPresent, keyIndex]

theorem FieldRegs.has_put_other (f : FieldRegs) {k k' : Key} (v : BitVec 16) (h : k' ≠ k) :
    (f.put k v).has k' = f.has k' := by
  have hi : keyIndex k ≠ keyIndex k' := fun e => h (keyIndex_inj e).symm
  have : (f.put k v).present = markPresent k f.present := by cases k <;> rfl
  simp only [FieldRegs.has, this, markPresent, BitVec.getLsbD_or, BitVec.getLsbD_twoPow]
  simp [hi]

theorem FieldRegs.get_put_other (f : FieldRegs) {k k' : Key} (v : BitVec 16) (h : k' ≠ k) :
    (f.put k v).get k' = f.get k' := by
  cases k <;> cases k' <;> first | rfl | exact absurd rfl h

/-- F[k] reads back a value that fits it. -/
theorem FieldRegs.get_put_same (f : FieldRegs) (k : Key) {v : BitVec 16} (h : v.toNat < 2 ^ keyWidth k) :
    (f.put k v).get k = v.setWidth 8 := by
  apply BitVec.eq_of_toNat_eq
  cases k <;> simp only [keyWidth] at h <;> simp [FieldRegs.put, FieldRegs.get] <;> omega

theorem FieldRegs.absentZero_iff (f : FieldRegs) : f.absentZero = true ↔ ∀ k, f.has k = true ∨ f.get k = 0 := by
  simp only [FieldRegs.absentZero, List.all_cons, List.all_nil, Bool.and_true, Bool.and_eq_true, Bool.or_eq_true, beq_iff_eq]
  constructor
  · rintro ⟨h0, h1, h2, h3, h4, h5, h6, h7, h8, h9⟩ k
    cases k <;> assumption
  · intro h
    exact ⟨h _, h _, h _, h _, h _, h _, h _, h _, h _, h _⟩

/-- Writing a field register keeps the absent ones 0. -/
theorem FieldRegs.absentZero_put {f : FieldRegs} (k : Key) (v : BitVec 16) (h : f.absentZero = true) :
    (f.put k v).absentZero = true := by
  rw [FieldRegs.absentZero_iff] at h ⊢
  intro k'
  by_cases hk : k' = k
  · subst hk
    exact .inl (FieldRegs.has_put_same f k' v)
  · rw [FieldRegs.has_put_other f v hk, FieldRegs.get_put_other f v hk]
    exact h k'

/-! ### Outcomes of an attempt -/

@[simp] theorem Attempt.isOk_ok (h : Hidden w) : (Attempt.ok h).isOk = true := rfl
@[simp] theorem Attempt.isOk_fail (e : AttemptFail) (h : Hidden w) : (Attempt.fail e h).isOk = false := rfl
@[simp] theorem Attempt.isEoi_ok (h : Hidden w) : (Attempt.ok h).isEoi = false := rfl
@[simp] theorem Attempt.isEoi_eoi (h : Hidden w) : (Attempt.fail .eoi h).isEoi = true := rfl
@[simp] theorem Attempt.isEoi_mismatch (h : Hidden w) : (Attempt.fail .mismatch h).isEoi = false := rfl
@[simp] theorem Attempt.hidden_ok (h : Hidden w) : (Attempt.ok h).hidden = h := rfl
@[simp] theorem Attempt.hidden_fail (e : AttemptFail) (h : Hidden w) : (Attempt.fail e h).hidden = h := rfl

/-! ### What one element can do -/

/-- What an element that reads a field can do (41_field_elements.md R150): fail by EOI with no change, or fill its key. -/
theorem readField_cases (inp : Input w) (k : Key) (n : Fin 17) (h : Hidden w) :
    (remaining inp h.cur < n.val ∧ readField inp k n h = .fail .eoi h) ∨
    (∃ v c, consumeBits inp h.cur n = some (v, c) ∧
      readField inp k n h = .ok { h with cur := c, regs := h.regs.put k v }) := by
  unfold readField
  cases hc : consumeBits inp h.cur n with
  | none => exact .inl ⟨consumeBits_eq_none.1 hc, rfl⟩
  | some p => exact .inr ⟨p.1, p.2, rfl, rfl⟩

/-- What a Literal can do (41_field_elements.md R151). -/
theorem literalElement_cases (inp : Input w) (n : BitVec 4) (x : BitVec 8) (h : Hidden w) :
    (remaining inp h.cur < n.toNat ∧ literalElement inp n x h = .fail .eoi h) ∨
    (∃ v c, consumeBits inp h.cur (widthRequest n) = some (v, c) ∧
      ((v = x.setWidth 16 ∧ literalElement inp n x h = .ok { h with cur := c }) ∨
       (v ≠ x.setWidth 16 ∧ literalElement inp n x h = .fail .mismatch { h with cur := c }))) := by
  unfold literalElement
  cases hc : consumeBits inp h.cur (widthRequest n) with
  | none => exact .inl ⟨by simpa [widthRequest] using consumeBits_eq_none.1 hc, rfl⟩
  | some p =>
    refine .inr ⟨p.1, p.2, rfl, ?_⟩
    by_cases hv : p.1 = x.setWidth 16
    · exact .inl ⟨hv, by simp [hv]⟩
    · exact .inr ⟨hv, by simp [hv]⟩

/-- The four shapes of an element: it reads a field of its kind's width, compares a literal, writes a constant, or is a
DataHigh that reads nothing. -/
theorem element_shape (inp : Input w) (d : Descriptor) (h : Hidden w) :
    (∃ k n, kindWidth d.kind = some n.val ∧ isImplied d.kind = false ∧ n.val ≤ 8 ∧ element inp d h = readField inp k n h) ∨
    (d.kind = .literal ∧ element inp d h = literalElement inp d.width d.value h) ∨
    (∃ k, isImplied d.kind = true ∧ element inp d h = impliedElement k d.value h) ∨
    (d.kind = .dataHigh ∧ dataHighConsumes h.regs = false ∧ element inp d h = .ok h) := by
  cases hk : d.kind with
  | literal => exact .inr (.inl ⟨rfl, by simp only [element, hk]⟩)
  | direction => exact .inl ⟨.d, 1, rfl, rfl, by decide, by simp only [element, hk]⟩
  | signExtend => exact .inl ⟨.s, 1, rfl, rfl, by decide, by simp only [element, hk]⟩
  | width => exact .inl ⟨.w, 1, rfl, rfl, by decide, by simp only [element, hk]⟩
  | shiftCount => exact .inl ⟨.v, 1, rfl, rfl, by decide, by simp only [element, hk]⟩
  | repeatPrefix => exact .inl ⟨.z, 1, rfl, rfl, by decide, by simp only [element, hk]⟩
  | addressingMode => exact .inl ⟨.mod, 2, rfl, rfl, by decide, by simp only [element, hk]⟩
  | register => exact .inl ⟨.reg, 3, rfl, rfl, by decide, by simp only [element, hk]⟩
  | registerOrMemory => exact .inl ⟨.rm, 3, rfl, rfl, by decide, by simp only [element, hk]⟩
  | dataLow => exact .inl ⟨.dlo, 8, rfl, rfl, by decide, by simp only [element, hk]⟩
  | dataHigh =>
    cases hc : dataHighConsumes h.regs with
    | true => exact .inl ⟨.dhi, 8, rfl, rfl, by decide, by simp only [element, hk, hc, if_true]⟩
    | false => exact .inr (.inr (.inr ⟨rfl, rfl, by simp [element, hk, hc]⟩))
  | impliedWidth => exact .inr (.inr (.inl ⟨.w, rfl, by simp only [element, hk]⟩))
  | impliedDirection => exact .inr (.inr (.inl ⟨.d, rfl, by simp only [element, hk]⟩))

/-- The kinds read from the stream with a fixed width, DataHigh apart, all fill their key by readField. -/
theorem element_readField {inp : Input w} {d : Descriptor} {k : Key} {n : Nat} {h : Hidden w}
    (hw : kindWidth d.kind = some n) (hk : kindKey d.kind = some k) (hd : d.kind ≠ .dataHigh) :
    ∃ hn : n < 17, element inp d h = readField inp k ⟨n, hn⟩ h ∧ n = keyWidth k := by
  cases hkd : d.kind <;> rw [hkd] at hw hk <;> simp only [kindWidth, kindKey, Option.some.injEq, reduceCtorEq] at hw hk <;>
    subst hw <;> subst hk <;>
    first
    | exact absurd hkd hd
    | exact ⟨by omega, by simp only [element, hkd]; rfl, rfl⟩

/-- No element writes TI, EOI_ACC, DISP or DISP_LEN. -/
theorem element_frame (inp : Input w) (d : Descriptor) (h : Hidden w) :
    (element inp d h).hidden.ti = h.ti ∧ (element inp d h).hidden.eoiAcc = h.eoiAcc ∧
    (element inp d h).hidden.disp = h.disp ∧ (element inp d h).hidden.dispLen = h.dispLen := by
  rcases element_shape inp d h with ⟨k, n, _, _, _, e⟩ | ⟨_, e⟩ | ⟨k, _, e⟩ | ⟨_, _, e⟩ <;> rw [e]
  · rcases readField_cases inp k n h with ⟨_, e⟩ | ⟨v, c, _, e⟩ <;> rw [e] <;> exact ⟨rfl, rfl, rfl, rfl⟩
  · rcases literalElement_cases inp d.width d.value h with ⟨_, e⟩ | ⟨v, c, _, ⟨_, e⟩ | ⟨_, e⟩⟩ <;> rw [e] <;>
      exact ⟨rfl, rfl, rfl, rfl⟩
  · exact ⟨rfl, rfl, rfl, rfl⟩
  · exact ⟨rfl, rfl, rfl, rfl⟩

/-- A position within the buffer stays within it (20_memory.md R61). -/
theorem consumeBits_within {inp : Input w} {c c' : Cursor w} {n : Fin 17} {v : BitVec 16}
    (h : consumeBits inp c n = some (v, c')) (hc : c.position ≤ 8 * inp.bufLen.toNat) : c'.position ≤ 8 * inp.bufLen.toNat := by
  have hp := consumeBits_position h
  rw [consumeBits_eq_some] at h
  have := h.1
  unfold remaining at this
  omega

theorem element_within {inp : Input w} {d : Descriptor} {h : Hidden w} (hc : h.cur.position ≤ 8 * inp.bufLen.toNat) :
    (element inp d h).hidden.cur.position ≤ 8 * inp.bufLen.toNat := by
  rcases element_shape inp d h with ⟨k, n, _, _, _, e⟩ | ⟨_, e⟩ | ⟨k, _, e⟩ | ⟨_, _, e⟩ <;> rw [e]
  · rcases readField_cases inp k n h with ⟨_, e⟩ | ⟨v, c, hv, e⟩ <;> rw [e]
    · exact hc
    · exact consumeBits_within hv hc
  · rcases literalElement_cases inp d.width d.value h with ⟨_, e⟩ | ⟨v, c, hv, ⟨_, e⟩ | ⟨_, e⟩⟩ <;> rw [e]
    · exact hc
    · exact consumeBits_within hv hc
    · exact consumeBits_within hv hc
  · exact hc
  · exact hc

/-- A completed element consumed its declared width, or, a DataHigh whose byte is absent, nothing. -/
theorem element_consumed {inp : Input w} {d : Descriptor} {h h' : Hidden w}
    (hw : ∀ n, kindWidth d.kind = some n → d.width.toNat = n) (he : element inp d h = .ok h') :
    h'.cur.position = h.cur.position + declaredWidth d ∨
      (d.kind = .dataHigh ∧ h'.cur.position + 8 = h.cur.position + declaredWidth d) := by
  rcases element_shape inp d h with ⟨k, n, hk, hi, _, e⟩ | ⟨hk, e⟩ | ⟨k, hi, e⟩ | ⟨hk, _, e⟩ <;> rw [e] at he
  · left
    rcases readField_cases inp k n h with ⟨_, e⟩ | ⟨v, c, hc, e⟩ <;> rw [e] at he <;> cases he
    rw [declaredWidth, hi, hw _ hk]
    exact consumeBits_position hc
  · left
    rcases literalElement_cases inp d.width d.value h with ⟨_, e⟩ | ⟨v, c, hc, ⟨_, e⟩ | ⟨_, e⟩⟩ <;> rw [e] at he <;> cases he
    rw [declaredWidth, hk]
    exact consumeBits_position hc
  · left
    injection he with he
    rw [← he, declaredWidth, hi]
    rfl
  · injection he with he
    exact .inr ⟨hk, by rw [← he, declaredWidth, hk, hw 8 (by rw [hk]; rfl)]; rfl⟩

/-! ### DispExt -/

theorem dispLen_cases (esc : BitVec 3) (mod : BitVec 2) (rm : BitVec 3) :
    dispLen esc mod rm = 0#2 ∨ dispLen esc mod rm = 1#2 ∨ dispLen esc mod rm = 2#2 := by
  unfold dispLen
  split_ifs <;> simp

/-- What DispExt can do (41_field_elements.md R166). -/
theorem dispExt_cases (esc : BitVec 3) (inp : Input w) (h : Hidden w) :
    (dispLen esc h.regs.mod h.regs.rm = 0 ∧ dispExt esc inp h = .ok { h with disp := 0, dispLen := 0 }) ∨
    (dispLen esc h.regs.mod h.regs.rm ≠ 0 ∧ consumeBits inp h.cur 8 = none ∧
      dispExt esc inp h = .fail .eoi { h with disp := 0, dispLen := 0 }) ∨
    (∃ lo c, consumeBits inp h.cur 8 = some (lo, c) ∧ dispLen esc h.regs.mod h.regs.rm = 1 ∧
      dispExt esc inp h = .ok { h with cur := c, disp := (lo.setWidth 8).setWidth 16, dispLen := 1 }) ∨
    (∃ lo c, consumeBits inp h.cur 8 = some (lo, c) ∧ dispLen esc h.regs.mod h.regs.rm = 2 ∧
      consumeBits inp c 8 = none ∧
      dispExt esc inp h = .fail .eoi { h with cur := c, disp := (lo.setWidth 8).setWidth 16, dispLen := 0 }) ∨
    (∃ lo c hi c', consumeBits inp h.cur 8 = some (lo, c) ∧ dispLen esc h.regs.mod h.regs.rm = 2 ∧
      consumeBits inp c 8 = some (hi, c') ∧
      dispExt esc inp h =
        .ok { h with cur := c', disp := (hi.setWidth 8 ++ lo.setWidth 8 : BitVec 16), dispLen := 2 }) := by
  rcases dispLen_cases esc h.regs.mod h.regs.rm with hn | hn | hn
  · exact .inl ⟨hn, by simp [dispExt, hn]⟩
  · cases hc : consumeBits inp h.cur 8 with
    | none => exact .inr (.inl ⟨by simp [hn], rfl, by simp [dispExt, hn, hc]⟩)
    | some p => exact .inr (.inr (.inl ⟨p.1, p.2, rfl, hn, by simp [dispExt, hn, hc]⟩))
  · cases hc : consumeBits inp h.cur 8 with
    | none => exact .inr (.inl ⟨by simp [hn], rfl, by simp [dispExt, hn, hc]⟩)
    | some p =>
      cases hc' : consumeBits inp p.2 8 with
      | none => exact .inr (.inr (.inr (.inl ⟨p.1, p.2, rfl, hn, hc', by simp [dispExt, hn, hc, hc']⟩)))
      | some q =>
        exact .inr (.inr (.inr (.inr ⟨p.1, p.2, q.1, q.2, rfl, hn, hc', by simp [dispExt, hn, hc, hc']⟩)))

/-- DispExt writes neither TI, EOI_ACC nor a field register. -/
theorem dispExt_frame (esc : BitVec 3) (inp : Input w) (h : Hidden w) :
    (dispExt esc inp h).hidden.ti = h.ti ∧ (dispExt esc inp h).hidden.eoiAcc = h.eoiAcc ∧
    (dispExt esc inp h).hidden.regs = h.regs := by
  rcases dispExt_cases esc inp h with ⟨_, e⟩ | ⟨_, _, e⟩ | ⟨_, _, _, _, e⟩ | ⟨_, _, _, _, _, e⟩ | ⟨_, _, _, _, _, _, _, e⟩ <;>
    rw [e] <;> exact ⟨rfl, rfl, rfl⟩

theorem dispExt_within {esc : BitVec 3} {inp : Input w} {h : Hidden w} (hc : h.cur.position ≤ 8 * inp.bufLen.toNat) :
    (dispExt esc inp h).hidden.cur.position ≤ 8 * inp.bufLen.toNat := by
  rcases dispExt_cases esc inp h with ⟨_, e⟩ | ⟨_, _, e⟩ | ⟨_, _, h1, _, e⟩ | ⟨_, _, h1, _, _, e⟩ | ⟨_, _, _, _, h1, _, h2, e⟩ <;>
    rw [e]
  · exact hc
  · exact hc
  · exact consumeBits_within h1 hc
  · exact consumeBits_within h1 hc
  · exact consumeBits_within h2 (consumeBits_within h1 hc)

/-- A completed DispExt consumed at most two bytes. -/
theorem dispExt_consumed {esc : BitVec 3} {inp : Input w} {h h' : Hidden w} (he : dispExt esc inp h = .ok h') :
    ∃ n, n ≤ 2 ∧ h'.cur.position = h.cur.position + 8 * n := by
  have h8 : ((8 : Fin 17).val) = 8 := rfl
  rcases dispExt_cases esc inp h with ⟨_, e⟩ | ⟨_, _, e⟩ | ⟨_, _, h1, _, e⟩ | ⟨_, _, _, _, _, e⟩ | ⟨_, _, _, _, h1, _, h2, e⟩ <;>
    rw [e] at he <;> cases he
  · exact ⟨0, by omega, rfl⟩
  · exact ⟨1, by omega, consumeBits_position h1⟩
  · refine ⟨2, by omega, ?_⟩
    have a := consumeBits_position h1
    have b := consumeBits_position h2
    simp only at a b ⊢
    omega

/-! ### Elements at a known place in the buffer -/

theorem consumeBits_byte {inp : Input w} {b : Nat} (hb : b < inp.bufLen.toNat) :
    consumeBits inp (Cursor.ofPosition (8 * b)) 8 = some ((inp.buf.read b).setWidth 16, Cursor.ofPosition (8 * (b + 1))) := by
  have := consumeBits_inside (inp := inp) (b := b) (k := 0) (n := 8) (by decide) hb
  simpa [Nat.mul_add] using this

theorem cursor_at (pos : Offset w) : (⟨pos, 0⟩ : Cursor w) = Cursor.ofPosition (8 * pos.toNat) := by
  rw [Cursor.ofPosition_aligned]
  simp

theorem setWidth_setWidth_self {n : Nat} (hn : n ≤ 16) (x : BitVec n) : (x.setWidth 16).setWidth n = x := by
  apply BitVec.eq_of_getLsbD_eq
  intro i hi
  simp [hi]
  omega

theorem setWidth16_inj {n : Nat} (hn : n ≤ 16) {x y : BitVec n} (h : x.setWidth 16 = y.setWidth 16) : x = y := by
  rw [← setWidth_setWidth_self hn x, h, setWidth_setWidth_self hn y]

/-- A field of n bits at bit k of a byte below BUF_LEN is read into its key. -/
theorem readField_inside {inp : Input w} {key : Key} {b k : Nat} {n : Fin 17} {h : Hidden w}
    (hc : h.cur = Cursor.ofPosition (8 * b + k)) (hk : k + n.val ≤ 8) (hb : b < inp.bufLen.toNat) :
    readField inp key n h = .ok { h with
      cur := Cursor.ofPosition (8 * b + (k + n.val))
      regs := h.regs.put key (((inp.buf.read b).extractLsb' (8 - k - n.val) n.val).setWidth 16) } := by
  simp only [readField, hc, consumeBits_inside hk hb]

theorem readField_past {inp : Input w} {key : Key} {b : Nat} {n : Fin 17} {h : Hidden w}
    (hc : h.cur = Cursor.ofPosition (8 * b)) (hn : 0 < n.val) (hb : inp.bufLen.toNat ≤ b) (hlt : b < 2 ^ w) :
    readField inp key n h = .fail .eoi h := by
  simp only [readField, hc, consumeBits_past hn hb hlt]

theorem literalElement_inside {inp : Input w} {n : BitVec 4} {x : BitVec 8} {b k : Nat} {h : Hidden w}
    (hc : h.cur = Cursor.ofPosition (8 * b + k)) (hk : k + n.toNat ≤ 8) (hb : b < inp.bufLen.toNat) :
    literalElement inp n x h =
      if ((inp.buf.read b).extractLsb' (8 - k - n.toNat) n.toNat).setWidth 16 = x.setWidth 16 then
        .ok { h with cur := Cursor.ofPosition (8 * b + (k + n.toNat)) }
      else .fail .mismatch { h with cur := Cursor.ofPosition (8 * b + (k + n.toNat)) } := by
  have := consumeBits_inside (inp := inp) (b := b) (k := k) (n := widthRequest n) hk hb
  simp only [literalElement, hc, this]
  rfl

theorem literalElement_past {inp : Input w} {n : BitVec 4} {x : BitVec 8} {b : Nat} {h : Hidden w}
    (hc : h.cur = Cursor.ofPosition (8 * b)) (hn : 0 < n.toNat) (hb : inp.bufLen.toNat ≤ b) (hlt : b < 2 ^ w) :
    literalElement inp n x h = .fail .eoi h := by
  have := consumeBits_past (inp := inp) (b := b) (n := widthRequest n) hn hb hlt
  simp only [literalElement, hc, this]

theorem element_literal (inp : Input w) (n : BitVec 4) (sh : BitVec 3) (x : BitVec 8) (h : Hidden w) :
    element inp ⟨.literal, n, sh, x⟩ h = literalElement inp n x h := rfl

/-- An element that reads n bits at bit k of a byte below BUF_LEN completes with its key filled. -/
theorem element_inside {inp : Input w} {d : Descriptor} {key : Key} {n b k : Nat} {h : Hidden w}
    (hw : kindWidth d.kind = some n) (hkey : kindKey d.kind = some key) (hd : d.kind ≠ .dataHigh)
    (hc : h.cur = Cursor.ofPosition (8 * b + k)) (hk : k + n ≤ 8) (hb : b < inp.bufLen.toNat) :
    element inp d h = .ok { h with
      cur := Cursor.ofPosition (8 * b + (k + n))
      regs := h.regs.put key (((inp.buf.read b).extractLsb' (8 - k - n) n).setWidth 16) } := by
  obtain ⟨hn, he, _⟩ := element_readField (inp := inp) (h := h) hw hkey hd
  rw [he]
  exact readField_inside (n := ⟨n, hn⟩) hc hk hb

/-- The same element at a byte at or past BUF_LEN fails by EOI. -/
theorem element_past {inp : Input w} {d : Descriptor} {key : Key} {n b : Nat} {h : Hidden w}
    (hw : kindWidth d.kind = some n) (hkey : kindKey d.kind = some key) (hd : d.kind ≠ .dataHigh)
    (hc : h.cur = Cursor.ofPosition (8 * b)) (hn : 0 < n) (hb : inp.bufLen.toNat ≤ b) (hlt : b < 2 ^ w) :
    element inp d h = .fail .eoi h := by
  obtain ⟨_, he, _⟩ := element_readField (inp := inp) (h := h) hw hkey hd
  rw [he]
  exact readField_past hc hn hb hlt

end Sys2Proof.Machine
end

