-- ==== Sys2Proof/Laws/Rom.lean ====
section
/-! SUPPORT. The template ROM: what the construction checks promise of each template (30_encoding.md R89 to R99), where the
failures of a list stand, and the fields of the image's words (R84). -/

namespace Sys2Proof.Machine

/-! ### Failures beside their index (60_exceptions.md R250) -/

theorem failuresFrom_eq_nil {α ε : Type} {failures : α → List ε} {as : List α} {i : Nat} :
    failuresFrom failures i as = [] ↔ ∀ a ∈ as, failures a = [] := by
  induction as generalizing i with
  | nil => simp [failuresFrom]
  | cons a as ih => simp [failuresFrom, ih]

/-- A listed failure is one of the entry at its index, and every failure of an entry is listed at its index. -/
theorem mem_failuresFrom {α ε : Type} {failures : α → List ε} {as : List α} {i n : Nat} {e : ε} :
    (n, e) ∈ failuresFrom failures i as ↔ ∃ k a, as[k]? = some a ∧ n = i + k ∧ e ∈ failures a := by
  induction as generalizing i with
  | nil => simp [failuresFrom]
  | cons a as ih =>
    simp only [failuresFrom, List.mem_append, List.mem_map, Prod.mk.injEq, ih]
    constructor
    · rintro (⟨e', he, rfl, rfl⟩ | ⟨k, b, hb, rfl, he⟩)
      · exact ⟨0, a, rfl, rfl, he⟩
      · exact ⟨k + 1, b, hb, by omega, he⟩
    · rintro ⟨_ | k, b, hb, rfl, he⟩
      · simp only [List.getElem?_cons_zero, Option.some.injEq] at hb
        exact .inl ⟨e, hb ▸ he, rfl, rfl⟩
      · exact .inr ⟨k, b, hb, by omega, he⟩

/-! ### What the construction checks promise -/

theorem romFailures_eq_nil {D : Design} : romFailures D = [] ↔ (∀ t ∈ D.rom, failedChecks D t = []) ∧ romSizeOk D = true := by
  rw [romFailures, List.append_eq_nil_iff, failuresFrom_eq_nil]
  simp

theorem validRom_iff {D : Design} : validRom D = true ↔ (∀ t ∈ D.rom, failedChecks D t = []) ∧ romSizeOk D = true := by
  rw [validRom, List.isEmpty_iff, romFailures_eq_nil]

/-- What a valid ROM's template passes. -/
theorem validRom_template {D : Design} (h : validRom D = true) {t : Template} (ht : t ∈ D.rom) :
    failedChecks D t = [] ∧ templateMaxLength t ≤ 15 := by
  obtain ⟨h1, h2⟩ := validRom_iff.1 h
  refine ⟨h1 t ht, ?_⟩
  simp only [romSizeOk, Bool.and_eq_true, decide_eq_true_eq] at h2
  have : ∀ (l : List Nat) a, a ≤ l.foldl max a ∧ ∀ x ∈ l, x ≤ l.foldl max a := by
    intro l
    induction l with
    | nil => intro a; exact ⟨Nat.le_refl a, fun x hx => by cases hx⟩
    | cons b l ih =>
      intro a
      have := ih (max a b)
      refine ⟨by simp only [List.foldl_cons]; omega, fun x hx => ?_⟩
      simp only [List.foldl_cons]
      rcases List.mem_cons.1 hx with rfl | hx
      · omega
      · exact this.2 x hx
  exact Nat.le_trans ((this (D.rom.map templateMaxLength) 0).2 _ (List.mem_map_of_mem ht)) h2.2

/-- A template with no failed check passes each of them. -/
theorem template_checks {D : Design} {t : Template} (h : failedChecks D t = []) :
    ceWidth t = true ∧ ceLiteral t = true ∧ ceImplied t = true ∧ ceGroup t = true ∧ ceShift t = true ∧ ceAnchor t = true ∧
    ceUnique t = true ∧ ceModrm t = true ∧ ceSize D t = true ∧ ceData t = true := by
  unfold failedChecks at h
  rw [List.filterMap_eq_nil_iff] at h
  simp only [List.forall_mem_cons] at h
  have key : ∀ {c : Check} {b : Bool}, (if b = true then none else some c) = none → b = true := by
    intro c b hb
    by_contra hc
    simp [hc] at hb
  obtain ⟨h1, h2, h3, h4, h5, h6, h7, h8, h9, h10, _⟩ := h
  exact ⟨key h1, key h2, key h3, key h4, key h5, key h6, key h7, key h8, key h9, key h10⟩

theorem insertionPoint_hasMod {t : Template} (h : hasMod t = false) : insertionPoint t = none := by
  have hpl : ∀ ds n, (∀ d ∈ ds, (d.kind == FieldKind.addressingMode) = false) →
      (placeFrom n ds).filter (fun p => p.field.kind == .addressingMode) = [] := by
    intro ds
    induction ds with
    | nil => intro n _; rfl
    | cons d ds ih =>
      intro n hd
      simp only [placeFrom, List.filter_cons, hd d List.mem_cons_self]
      exact ih _ (fun x hx => hd x (List.mem_cons_of_mem d hx))
  unfold insertionPoint ofKind place
  rw [hpl t.fields 0 (by simpa [hasMod] using h)]

/-! ### The words of the image (30_encoding.md R84) -/

theorem descriptorWord_bit (d : Descriptor) (j : Nat) : (descriptorWord d).getLsbD j =
    if j < 8 then d.value.getLsbD j else if j < 11 then d.shift.getLsbD (j - 8) else if j < 12 then false
    else if j < 16 then d.width.getLsbD (j - 12) else (kindCode d.kind).getLsbD (j - 16) := by
  have h : (descriptorWord d).getLsbD j =
      (kindCode d.kind ++ d.width ++ 0#1 ++ d.shift ++ d.value : BitVec (4 + 4 + 1 + 3 + 8)).getLsbD j := rfl
  rw [h]
  simp only [BitVec.getLsbD_append]
  split_ifs <;> first | rfl | omega | simp [Nat.sub_sub]

theorem descriptorWord_fields (d : Descriptor) :
    (descriptorWord d).extractLsb' 16 4 = kindCode d.kind ∧ (descriptorWord d).extractLsb' 12 4 = d.width ∧
    (descriptorWord d).extractLsb' 11 1 = 0 ∧ (descriptorWord d).extractLsb' 8 3 = d.shift ∧
    (descriptorWord d).extractLsb' 0 8 = d.value := by
  refine ⟨?_, ?_, ?_, ?_, ?_⟩ <;> apply BitVec.eq_of_getLsbD_eq <;> intro i hi <;>
    rw [BitVec.getLsbD_extractLsb', descriptorWord_bit] <;> split_ifs <;> first | omega | simp [hi]

theorem templateHeader_bit (t : Template) (j : Nat) : (templateHeader t).getLsbD j =
    if j < 4 then (BitVec.ofNat 4 t.fields.length).getLsbD j else if j < 8 then false else t.tag.getLsbD (j - 8) := by
  have h : (templateHeader t).getLsbD j = (t.tag ++ 0#4 ++ BitVec.ofNat 4 t.fields.length : BitVec (8 + 4 + 4)).getLsbD j := rfl
  rw [h]
  simp only [BitVec.getLsbD_append]
  split_ifs <;> first | rfl | omega | simp

theorem templateHeader_fields (t : Template) :
    (templateHeader t).extractLsb' 8 8 = t.tag ∧ (templateHeader t).extractLsb' 4 4 = 0 ∧
    (templateHeader t).extractLsb' 0 4 = BitVec.ofNat 4 t.fields.length := by
  refine ⟨?_, ?_, ?_⟩ <;> apply BitVec.eq_of_getLsbD_eq <;> intro i hi <;>
    rw [BitVec.getLsbD_extractLsb', templateHeader_bit] <;> split_ifs <;> first | omega | simp [hi]

theorem kindOfCode_kindCode (k : FieldKind) : kindOfCode (kindCode k) = some k := by cases k <;> rfl

theorem readDescriptor_word (d : Descriptor) : readDescriptor (descriptorWord d) = some d := by
  obtain ⟨h1, h2, _, h4, h5⟩ := descriptorWord_fields d
  rw [readDescriptor, h1, h2, h4, h5, kindOfCode_kindCode]
  rfl

theorem kindOfCode_none {c : BitVec 4} : kindOfCode c = none ↔ 13 ≤ c.toNat := by revert c; decide
end Sys2Proof.Machine
end

