-- ==== Sys2Proof/Laws/State.lean ====
section
/-! SUPPORT. One lemma per field per update of State, so that no proof unfolds a record update. -/

namespace Sys2Proof.Machine

variable {w : Nat}

section committed

variable (tag : BitVec 8) (n : Nat) (s : State w)

@[simp] theorem committed_buf : (committed tag n s).buf = s.buf := rfl
@[simp] theorem committed_bufLen : (committed tag n s).bufLen = s.bufLen := rfl
@[simp] theorem committed_runState : (committed tag n s).runState = s.runState := rfl
@[simp] theorem committed_pos : (committed tag n s).pos = s.pos + BitVec.ofNat w (ceil8 n) := rfl
@[simp] theorem committed_hidden : (committed tag n s).hidden = s.hidden := rfl
@[simp] theorem committed_failOffset : (committed tag n s).failOffset = s.failOffset := rfl
@[simp] theorem committed_eoi : (committed tag n s).eoi = s.eoi := rfl
@[simp] theorem committed_instCount : (committed tag n s).instCount = s.instCount + 1 := rfl
@[simp] theorem committed_outq : (committed tag n s).outq = s.outq ++ [recordOf tag (ceil8 n) s] := rfl
@[simp] theorem committed_host : (committed tag n s).host = s.host := rfl

end committed

section finishRun

variable (s : State w)

@[simp] theorem finishRun_buf : (finishRun s).buf = s.buf := rfl
@[simp] theorem finishRun_bufLen : (finishRun s).bufLen = s.bufLen := rfl
@[simp] theorem finishRun_runState : (finishRun s).runState = .doneOk := rfl
@[simp] theorem finishRun_pos : (finishRun s).pos = s.pos := rfl
@[simp] theorem finishRun_hidden : (finishRun s).hidden = s.hidden := rfl
@[simp] theorem finishRun_failOffset : (finishRun s).failOffset = s.failOffset := rfl
@[simp] theorem finishRun_eoi : (finishRun s).eoi = s.eoi := rfl
@[simp] theorem finishRun_instCount : (finishRun s).instCount = s.instCount := rfl
@[simp] theorem finishRun_outq : (finishRun s).outq = s.outq := rfl
@[simp] theorem finishRun_host : (finishRun s).host = s.host := rfl

end finishRun

section enterFailure

variable (s : State w)

@[simp] theorem enterFailure_buf : (enterFailure s).buf = s.buf := rfl
@[simp] theorem enterFailure_bufLen : (enterFailure s).bufLen = s.bufLen := rfl
@[simp] theorem enterFailure_runState : (enterFailure s).runState = .doneFail := rfl
@[simp] theorem enterFailure_pos : (enterFailure s).pos = s.pos := rfl
@[simp] theorem enterFailure_hidden : (enterFailure s).hidden = s.hidden := rfl
@[simp] theorem enterFailure_failOffset : (enterFailure s).failOffset = s.pos := rfl
@[simp] theorem enterFailure_eoi : (enterFailure s).eoi = s.hidden.eoiAcc := rfl
@[simp] theorem enterFailure_instCount : (enterFailure s).instCount = s.instCount := rfl
@[simp] theorem enterFailure_outq : (enterFailure s).outq = s.outq := rfl
@[simp] theorem enterFailure_host : (enterFailure s).host = s.host := rfl

end enterFailure

section startRun

variable (s : State w)

@[simp] theorem startRun_buf : (startRun s).buf = s.buf := rfl
@[simp] theorem startRun_bufLen : (startRun s).bufLen = s.bufLen := rfl
@[simp] theorem startRun_runState : (startRun s).runState = .running := rfl
@[simp] theorem startRun_pos : (startRun s).pos = 0 := rfl
@[simp] theorem startRun_hidden : (startRun s).hidden = s.hidden := rfl
@[simp] theorem startRun_failOffset : (startRun s).failOffset = 0 := rfl
@[simp] theorem startRun_eoi : (startRun s).eoi = false := rfl
@[simp] theorem startRun_instCount : (startRun s).instCount = 0 := rfl
@[simp] theorem startRun_outq : (startRun s).outq = [] := rfl
@[simp] theorem startRun_host : (startRun s).host = s.host := rfl

end startRun

section attemptDone

variable (ti : BitVec 4) (f : FieldRegs) (d : Disp) (s : State)

@[simp] theorem attemptDone_buf : (attemptDone ti f d s).buf = s.buf := rfl
@[simp] theorem attemptDone_bufLen : (attemptDone ti f d s).bufLen = s.bufLen := rfl
@[simp] theorem attemptDone_runState : (attemptDone ti f d s).runState = s.runState := rfl
@[simp] theorem attemptDone_pos : (attemptDone ti f d s).pos = s.pos := rfl
@[simp] theorem attemptDone_hidden : (attemptDone ti f d s).hidden = ⟨Cursor.ofPosition (8 * (s.pos.toNat + 2 + dispBytes d)), ti, false, f, dispValue d, dispLenOf d⟩ := rfl
@[simp] theorem attemptDone_failOffset : (attemptDone ti f d s).failOffset = s.failOffset := rfl
@[simp] theorem attemptDone_eoi : (attemptDone ti f d s).eoi = s.eoi := rfl
@[simp] theorem attemptDone_instCount : (attemptDone ti f d s).instCount = s.instCount := rfl
@[simp] theorem attemptDone_outq : (attemptDone ti f d s).outq = s.outq := rfl
@[simp] theorem attemptDone_host : (attemptDone ti f d s).host = s.host := rfl

end attemptDone

section setReady

variable (r : Bool) (s : State w)

@[simp] theorem setReady_buf : (setReady r s).buf = s.buf := rfl
@[simp] theorem setReady_bufLen : (setReady r s).bufLen = s.bufLen := rfl
@[simp] theorem setReady_runState : (setReady r s).runState = s.runState := rfl
@[simp] theorem setReady_pos : (setReady r s).pos = s.pos := rfl
@[simp] theorem setReady_hidden : (setReady r s).hidden = s.hidden := rfl
@[simp] theorem setReady_failOffset : (setReady r s).failOffset = s.failOffset := rfl
@[simp] theorem setReady_eoi : (setReady r s).eoi = s.eoi := rfl
@[simp] theorem setReady_instCount : (setReady r s).instCount = s.instCount := rfl
@[simp] theorem setReady_outq : (setReady r s).outq = s.outq := rfl
@[simp] theorem setReady_host : (setReady r s).host = { s.host with ready := r } := rfl

end setReady

section withQueue

variable (q : List (HostAct w)) (s : State w)

@[simp] theorem withQueue_buf : (withQueue q s).buf = s.buf := rfl
@[simp] theorem withQueue_bufLen : (withQueue q s).bufLen = s.bufLen := rfl
@[simp] theorem withQueue_runState : (withQueue q s).runState = s.runState := rfl
@[simp] theorem withQueue_pos : (withQueue q s).pos = s.pos := rfl
@[simp] theorem withQueue_hidden : (withQueue q s).hidden = s.hidden := rfl
@[simp] theorem withQueue_failOffset : (withQueue q s).failOffset = s.failOffset := rfl
@[simp] theorem withQueue_eoi : (withQueue q s).eoi = s.eoi := rfl
@[simp] theorem withQueue_instCount : (withQueue q s).instCount = s.instCount := rfl
@[simp] theorem withQueue_outq : (withQueue q s).outq = s.outq := rfl
@[simp] theorem withQueue_host : (withQueue q s).host = { s.host with queue := q } := rfl

end withQueue

section hostReadCsr

variable (D : Design) (n : Nat) (s : State w)

@[simp] theorem hostReadCsr_buf : (hostReadCsr D n s).buf = s.buf := rfl
@[simp] theorem hostReadCsr_bufLen : (hostReadCsr D n s).bufLen = s.bufLen := rfl
@[simp] theorem hostReadCsr_runState : (hostReadCsr D n s).runState = s.runState := rfl
@[simp] theorem hostReadCsr_pos : (hostReadCsr D n s).pos = s.pos := rfl
@[simp] theorem hostReadCsr_hidden : (hostReadCsr D n s).hidden = s.hidden := rfl
@[simp] theorem hostReadCsr_failOffset : (hostReadCsr D n s).failOffset = s.failOffset := rfl
@[simp] theorem hostReadCsr_eoi : (hostReadCsr D n s).eoi = s.eoi := rfl
@[simp] theorem hostReadCsr_instCount : (hostReadCsr D n s).instCount = s.instCount := rfl
@[simp] theorem hostReadCsr_outq : (hostReadCsr D n s).outq = s.outq := rfl
@[simp] theorem hostReadCsr_host : (hostReadCsr D n s).host = { s.host with readData := csrRead D n s } := rfl

end hostReadCsr

section placeAt

variable (a : Offset) (bs : List Byte) (s : State)

@[simp] theorem placeAt_buf : (placeAt a bs s).buf = Memory.writeAll a.toNat bs s.buf := rfl
@[simp] theorem placeAt_bufLen : (placeAt a bs s).bufLen = a + BitVec.ofNat 16 bs.length := rfl
@[simp] theorem placeAt_runState : (placeAt a bs s).runState = s.runState := rfl
@[simp] theorem placeAt_pos : (placeAt a bs s).pos = a := rfl
@[simp] theorem placeAt_hidden : (placeAt a bs s).hidden = s.hidden := rfl
@[simp] theorem placeAt_failOffset : (placeAt a bs s).failOffset = s.failOffset := rfl
@[simp] theorem placeAt_eoi : (placeAt a bs s).eoi = s.eoi := rfl
@[simp] theorem placeAt_instCount : (placeAt a bs s).instCount = s.instCount := rfl
@[simp] theorem placeAt_outq : (placeAt a bs s).outq = s.outq := rfl
@[simp] theorem placeAt_host : (placeAt a bs s).host = { s.host with queue := [], ready := true } := rfl

end placeAt

section resetOf

@[simp] theorem resetOf_buf : (State.resetOf w).buf = [] := rfl
@[simp] theorem resetOf_bufLen : (State.resetOf w).bufLen = 0 := rfl
@[simp] theorem resetOf_runState : (State.resetOf w).runState = .idle := rfl
@[simp] theorem resetOf_pos : (State.resetOf w).pos = 0 := rfl
@[simp] theorem resetOf_hidden : (State.resetOf w).hidden = Hidden.clear := rfl
@[simp] theorem resetOf_failOffset : (State.resetOf w).failOffset = 0 := rfl
@[simp] theorem resetOf_eoi : (State.resetOf w).eoi = false := rfl
@[simp] theorem resetOf_instCount : (State.resetOf w).instCount = 0 := rfl
@[simp] theorem resetOf_outq : (State.resetOf w).outq = [] := rfl
@[simp] theorem resetOf_host : (State.resetOf w).host = ⟨[], true, [], 0⟩ := rfl

end resetOf

/-- A state with only its hidden part replaced reads its input, and fetches, as before. -/
@[simp] theorem input_hidden (s : State w) (h : Hidden w) : ({ s with hidden := h } : State w).input = s.input := rfl

@[simp] theorem input_withQueue (q : List (HostAct w)) (s : State w) : (withQueue q s).input = s.input := rfl

@[simp] theorem fetchBytes_withQueue (q : List (HostAct w)) (s : State w) : (withQueue q s).fetchBytes = s.fetchBytes := rfl

@[simp] theorem input_setReady (r : Bool) (s : State w) : (setReady r s).input = s.input := rfl

@[simp] theorem beginAttempt_cur (pos : Offset w) (h : Hidden w) : (beginAttempt pos h).cur = ⟨pos, 0⟩ := rfl
@[simp] theorem beginAttempt_ti (pos : Offset w) (h : Hidden w) : (beginAttempt pos h).ti = h.ti := rfl
@[simp] theorem beginAttempt_eoiAcc (pos : Offset w) (h : Hidden w) : (beginAttempt pos h).eoiAcc = h.eoiAcc := rfl
@[simp] theorem beginAttempt_regs (pos : Offset w) (h : Hidden w) : (beginAttempt pos h).regs = FieldRegs.clear := rfl
@[simp] theorem beginAttempt_disp (pos : Offset w) (h : Hidden w) : (beginAttempt pos h).disp = 0 := rfl
@[simp] theorem beginAttempt_dispLen (pos : Offset w) (h : Hidden w) : (beginAttempt pos h).dispLen = 0 := rfl

end Sys2Proof.Machine
end

