-- ==== Sys2Proof/Laws/Attempts.lean ====
section
/-! SUPPORT. Attempts of any template (42_decode_engine.md R190 to R197): what a run of elements keeps, how an attempt
depends on the hidden registers, what the loop over the templates answers, and what the construction checks promise. -/

namespace Sys2Proof.Machine

variable {w : Nat}

/-! ### The elements of a template -/

theorem runElements_fail {esc : BitVec 3} {inp : Input w} {mT : Option Nat} {d : Descriptor} {ds : List Descriptor} {i : Nat}
    {h h1 : Hidden w} {e : AttemptFail} (he : element inp d h = .fail e h1) :
    runElements esc inp mT (d :: ds) i h = .fail e h1 := by simp [runElements, he]

theorem runElements_ok {esc : BitVec 3} {inp : Input w} {mT : Option Nat} {d : Descriptor} {ds : List Descriptor} {i : Nat}
    {h h1 : Hidden w} (he : element inp d h = .ok h1) (hm : mT ≠ some i) :
    runElements esc inp mT (d :: ds) i h = runElements esc inp mT ds (i + 1) h1 := by simp [runElements, he, hm]

theorem runElements_disp {esc : BitVec 3} {inp : Input w} {mT : Option Nat} {d : Descriptor} {ds : List Descriptor} {i : Nat}
    {h h1 : Hidden w} (he : element inp d h = .ok h1) (hm : mT = some i) :
    runElements esc inp mT (d :: ds) i h =
      match dispExt esc inp h1 with
      | .fail e h2 => .fail e h2
      | .ok h2 => runElements esc inp mT ds (i + 1) h2 := by
  rw [runElements, he]
  exact if_pos hm

theorem attempt_eta (a : Attempt w) : (match a with
    | .fail e h2 => Attempt.fail e h2
    | .ok h2 => Attempt.ok h2) = a := by cases a <;> rfl

/-- No element, and so no attempt, writes TI or EOI_ACC. -/
theorem runElements_frame (esc : BitVec 3) (inp : Input w) (mT : Option Nat) (ds : List Descriptor) (i : Nat) (h : Hidden w) :
    (runElements esc inp mT ds i h).hidden.ti = h.ti ∧ (runElements esc inp mT ds i h).hidden.eoiAcc = h.eoiAcc := by
  induction ds generalizing i h with
  | nil => exact ⟨rfl, rfl⟩
  | cons d ds ih =>
    have hf := element_frame inp d h
    cases he : element inp d h with
    | fail e h1 =>
      rw [he] at hf
      rw [runElements_fail he]
      exact ⟨hf.1, hf.2.1⟩
    | ok h1 =>
      rw [he] at hf
      have hd := dispExt_frame esc inp h1
      by_cases hm : mT = some i
      · rw [runElements_disp he hm]
        cases hx : dispExt esc inp h1 with
        | fail e h2 =>
          rw [hx] at hd
          exact ⟨hd.1.trans hf.1, hd.2.1.trans hf.2.1⟩
        | ok h2 =>
          rw [hx] at hd
          have := ih (i + 1) h2
          exact ⟨this.1.trans (hd.1.trans hf.1), this.2.trans (hd.2.1.trans hf.2.1)⟩
      · rw [runElements_ok he hm]
        have := ih (i + 1) h1
        exact ⟨this.1.trans hf.1, this.2.trans hf.2.1⟩

theorem tryTemplate_frame (D : Design) (inp : Input w) (pos : Offset w) (t : Template) (h : Hidden w) :
    (tryTemplate D inp pos t h).hidden.ti = h.ti ∧ (tryTemplate D inp pos t h).hidden.eoiAcc = h.eoiAcc :=
  runElements_frame _ _ _ _ _ (beginAttempt pos h)

theorem runElements_within {esc : BitVec 3} {inp : Input w} {mT : Option Nat} {ds : List Descriptor} {i : Nat} {h : Hidden w}
    (hc : h.cur.position ≤ 8 * inp.bufLen.toNat) :
    (runElements esc inp mT ds i h).hidden.cur.position ≤ 8 * inp.bufLen.toNat := by
  induction ds generalizing i h with
  | nil => exact hc
  | cons d ds ih =>
    have h1 := element_within (d := d) hc
    cases he : element inp d h with
    | fail e g => rw [he] at h1; rw [runElements_fail he]; exact h1
    | ok g =>
      rw [he] at h1
      by_cases hm : mT = some i
      · have h2 := dispExt_within (esc := esc) (h := g) h1
        rw [runElements_disp he hm]
        cases hx : dispExt esc inp g with
        | fail e g' => rw [hx] at h2; exact h2
        | ok g' => rw [hx] at h2; exact ih h2
      · rw [runElements_ok he hm]; exact ih h1

/-! ### Legal hidden registers -/

/-- A legal hidden state: absent field registers 0, DISP_LEN not 3. -/
def Hidden.legal (h : Hidden w) : Prop := h.regs.absentZero = true ∧ h.dispLen ≠ 3

theorem element_legal {inp : Input w} {d : Descriptor} {h : Hidden w} (hl : h.legal) : (element inp d h).hidden.legal := by
  rcases element_shape inp d h with ⟨k, n, _, _, _, e⟩ | ⟨_, e⟩ | ⟨k, _, e⟩ | ⟨_, _, e⟩ <;> rw [e]
  · rcases readField_cases inp k n h with ⟨_, e⟩ | ⟨v, c, _, e⟩ <;> rw [e]
    · exact hl
    · exact ⟨FieldRegs.absentZero_put k v hl.1, hl.2⟩
  · rcases literalElement_cases inp d.width d.value h with ⟨_, e⟩ | ⟨v, c, _, ⟨_, e⟩ | ⟨_, e⟩⟩ <;> rw [e] <;> exact hl
  · exact ⟨FieldRegs.absentZero_put k _ hl.1, hl.2⟩
  · exact hl

theorem dispExt_legal {esc : BitVec 3} {inp : Input w} {h : Hidden w} (hl : h.legal) : (dispExt esc inp h).hidden.legal := by
  rcases dispExt_cases esc inp h with ⟨_, e⟩ | ⟨_, _, e⟩ | ⟨_, _, _, _, e⟩ | ⟨_, _, _, _, _, e⟩ | ⟨_, _, _, _, _, _, _, e⟩ <;>
    rw [e] <;> exact ⟨hl.1, by simp [Attempt.hidden]⟩

theorem runElements_legal {esc : BitVec 3} {inp : Input w} {mT : Option Nat} {ds : List Descriptor} {i : Nat} {h : Hidden w}
    (hl : h.legal) : (runElements esc inp mT ds i h).hidden.legal := by
  induction ds generalizing i h with
  | nil => exact hl
  | cons d ds ih =>
    have h1 := element_legal (inp := inp) (d := d) hl
    cases he : element inp d h with
    | fail e g => rw [he] at h1; rw [runElements_fail he]; exact h1
    | ok g =>
      rw [he] at h1
      by_cases hm : mT = some i
      · have h2 := dispExt_legal (esc := esc) (inp := inp) h1
        rw [runElements_disp he hm]
        cases hx : dispExt esc inp g with
        | fail e g' => rw [Attempt.hidden, hx] at h2; exact h2
        | ok g' => rw [Attempt.hidden, hx] at h2; exact ih h2
      · rw [runElements_ok he hm]; exact ih h1

theorem tryTemplate_legal (D : Design) (inp : Input w) (pos : Offset w) (t : Template) (h : Hidden w) :
    (tryTemplate D inp pos t h).hidden.legal :=
  runElements_legal (h := beginAttempt pos h) ⟨(by decide : FieldRegs.clear.absentZero = true), (by decide : (0 : BitVec 2) ≠ 3)⟩

/-! ### What an attempt depends on -/

/-- An attempt's outcome does not depend on what the hidden registers held, TI and EOI_ACC apart. -/
theorem tryTemplate_hidden (D : Design) (inp : Input w) (pos : Offset w) (t : Template) {h h' : Hidden w} (hti : h.ti = h'.ti)
    (he : h.eoiAcc = h'.eoiAcc) : tryTemplate D inp pos t h = tryTemplate D inp pos t h' := by
  have : beginAttempt pos h = beginAttempt pos h' := by simp [beginAttempt, hti, he]
  unfold tryTemplate
  rw [this]

/-- The hidden state with TI and EOI_ACC replaced. -/
def Hidden.mark (ti : BitVec 4) (e : Bool) (h : Hidden w) : Hidden w := { h with ti := ti, eoiAcc := e }

def Attempt.map (f : Hidden w → Hidden w) : Attempt w → Attempt w
  | .ok h => .ok (f h)
  | .fail e h => .fail e (f h)

theorem readField_mark (inp : Input w) (k : Key) (n : Fin 17) (h : Hidden w) (ti : BitVec 4) (e : Bool) :
    readField inp k n (h.mark ti e) = (readField inp k n h).map (Hidden.mark ti e) := by
  unfold readField Hidden.mark
  simp only
  split <;> rfl

theorem element_mark (inp : Input w) (d : Descriptor) (h : Hidden w) (ti : BitVec 4) (e : Bool) :
    element inp d (h.mark ti e) = (element inp d h).map (Hidden.mark ti e) := by
  cases hk : d.kind <;> simp only [element, hk] <;> try exact readField_mark inp _ _ h ti e
  · unfold literalElement Hidden.mark
    simp only
    split
    · rfl
    · split <;> rfl
  · change (if dataHighConsumes h.regs then _ else _) = _
    split
    · exact readField_mark inp _ _ h ti e
    · rfl
  · rfl
  · rfl

theorem dispExt_mark (esc : BitVec 3) (inp : Input w) (h : Hidden w) (ti : BitVec 4) (e : Bool) :
    dispExt esc inp (h.mark ti e) = (dispExt esc inp h).map (Hidden.mark ti e) := by
  unfold dispExt Hidden.mark
  simp only
  split
  · rfl
  · split
    · rfl
    · split
      · rfl
      · split <;> rfl

theorem runElements_mark (esc : BitVec 3) (inp : Input w) (mT : Option Nat) (ds : List Descriptor) (i : Nat) (h : Hidden w)
    (ti : BitVec 4) (e : Bool) :
    runElements esc inp mT ds i (h.mark ti e) = (runElements esc inp mT ds i h).map (Hidden.mark ti e) := by
  induction ds generalizing i h with
  | nil => rfl
  | cons d ds ih =>
    have he := element_mark inp d h ti e
    cases hel : element inp d h with
    | fail x g => rw [hel] at he; rw [runElements_fail hel, runElements_fail he]; rfl
    | ok g =>
      rw [hel] at he
      by_cases hm : mT = some i
      · rw [runElements_disp hel hm, runElements_disp (h1 := g.mark ti e) he hm]
        have hx := dispExt_mark esc inp g ti e
        cases hxx : dispExt esc inp g with
        | fail x g' => rw [hxx] at hx; rw [hx]; rfl
        | ok g' => rw [hxx] at hx; rw [hx]; exact ih (i + 1) g'
      · rw [runElements_ok hel hm, runElements_ok (h1 := g.mark ti e) he hm]; exact ih (i + 1) g

theorem tryTemplate_mark (D : Design) (inp : Input w) (pos : Offset w) (t : Template) (h : Hidden w) (ti : BitVec 4) (e : Bool) :
    tryTemplate D inp pos t (h.mark ti e) = (tryTemplate D inp pos t h).map (Hidden.mark ti e) :=
  runElements_mark _ _ _ _ _ (beginAttempt pos h) ti e

/-- An attempt from any hidden state is the attempt from another, TI and EOI_ACC carried through. -/
theorem tryTemplate_any (D : Design) (inp : Input w) (pos : Offset w) (t : Template) (g h : Hidden w) :
    tryTemplate D inp pos t g = (tryTemplate D inp pos t h).map (Hidden.mark g.ti g.eoiAcc) := by
  rw [← tryTemplate_mark]
  exact tryTemplate_hidden D inp pos t rfl rfl

/-! ### The loop over the templates -/

theorem tryAll_ok {D : Design} {inp : Input w} {pos : Offset w} {t : Template} {ts : List Template} {ti : Nat} {h h1 : Hidden w}
    (ht : tryTemplate D inp pos t { h with ti := BitVec.ofNat 4 ti } = .ok h1) :
    tryAll D inp pos (t :: ts) ti h = (h1, some t) := by simp [tryAll, ht]

theorem tryAll_eoi {D : Design} {inp : Input w} {pos : Offset w} {t : Template} {ts : List Template} {ti : Nat} {h h1 : Hidden w}
    (ht : tryTemplate D inp pos t { h with ti := BitVec.ofNat 4 ti } = .fail .eoi h1) :
    tryAll D inp pos (t :: ts) ti h = tryAll D inp pos ts (ti + 1) { h1 with eoiAcc := true } := by simp [tryAll, ht]

theorem tryAll_mismatch {D : Design} {inp : Input w} {pos : Offset w} {t : Template} {ts : List Template} {ti : Nat}
    {h h1 : Hidden w} (ht : tryTemplate D inp pos t { h with ti := BitVec.ofNat 4 ti } = .fail .mismatch h1) :
    tryAll D inp pos (t :: ts) ti h = tryAll D inp pos ts (ti + 1) h1 := by simp [tryAll, ht]

theorem tryAll_some {D : Design} {inp : Input w} {pos : Offset w} {ts : List Template} {i : Nat} {h h' : Hidden w} {t : Template}
    (he : tryAll D inp pos ts i h = (h', some t)) : t ∈ ts ∧ ∃ g, tryTemplate D inp pos t g = .ok h' := by
  induction ts generalizing i h with
  | nil => simp [tryAll] at he
  | cons a ts ih =>
    cases ha : tryTemplate D inp pos a { h with ti := BitVec.ofNat 4 i } with
    | ok g =>
      rw [tryAll_ok ha] at he
      simp only [Prod.mk.injEq, Option.some.injEq] at he
      obtain ⟨rfl, rfl⟩ := he
      exact ⟨List.mem_cons_self, _, ha⟩
    | fail e g =>
      cases e with
      | mismatch => rw [tryAll_mismatch ha] at he; exact ⟨List.mem_cons_of_mem a (ih he).1, (ih he).2⟩
      | eoi => rw [tryAll_eoi ha] at he; exact ⟨List.mem_cons_of_mem a (ih he).1, (ih he).2⟩

/-- The loop over the templates leaves a legal hidden state with TI one of their indexes. -/
theorem tryAll_legal {D : Design} {inp : Input w} {pos : Offset w} {ts : List Template} {i : Nat} {h : Hidden w}
    (hl : h.legal) (hi : h.ti.toNat < i + ts.length) (hb : i + ts.length ≤ 16) :
    (tryAll D inp pos ts i h).1.legal ∧ (tryAll D inp pos ts i h).1.ti.toNat < i + ts.length := by
  induction ts generalizing i h with
  | nil => exact ⟨hl, hi⟩
  | cons t ts ih =>
    simp only [List.length_cons] at hi hb ⊢
    have hg := tryTemplate_legal D inp pos t { h with ti := BitVec.ofNat 4 i }
    have hf := tryTemplate_frame D inp pos t { h with ti := BitVec.ofNat 4 i }
    have hti : (BitVec.ofNat 4 i).toNat = i := by rw [BitVec.toNat_ofNat]; omega
    cases ht : tryTemplate D inp pos t { h with ti := BitVec.ofNat 4 i } with
    | ok g =>
      rw [ht] at hg hf
      rw [tryAll_ok ht]
      have : g.ti = BitVec.ofNat 4 i := hf.1
      exact ⟨hg, by rw [this, hti]; omega⟩
    | fail e g =>
      rw [ht] at hg hf
      have hgt : g.ti = BitVec.ofNat 4 i := hf.1
      cases e with
      | mismatch =>
        rw [tryAll_mismatch ht]
        have := ih (i := i + 1) (h := g) hg (by rw [hgt, hti]; omega) (by omega)
        exact ⟨this.1, by omega⟩
      | eoi =>
        rw [tryAll_eoi ht]
        have := ih (i := i + 1) (h := { g with eoiAcc := true }) hg (by change g.ti.toNat < _; rw [hgt, hti]; omega) (by omega)
        exact ⟨this.1, by omega⟩

theorem tryAll_parallel {D : Design} {inp : Input w} {pos : Offset w} (h0 : Hidden w) (ts : List Template) (i : Nat) (g : Hidden w) :
    (tryAll D inp pos ts i g).2 =
      ((ts.map (fun t => (t, tryTemplate D inp pos t h0))).find? (fun p => p.2.isOk)).map Prod.fst ∧
    (∀ t h, (ts.map (fun t => (t, tryTemplate D inp pos t h0))).find? (fun p => p.2.isOk) = some (t, .ok h) →
      (tryAll D inp pos ts i g).1.regs = h.regs ∧ (tryAll D inp pos ts i g).1.disp = h.disp ∧
      (tryAll D inp pos ts i g).1.dispLen = h.dispLen ∧ (tryAll D inp pos ts i g).1.cur = h.cur ∧
      (tryAll D inp pos ts i g).1.ti =
        BitVec.ofNat 4 (i + (ts.map (fun t => (t, tryTemplate D inp pos t h0))).findIdx (fun p => p.2.isOk))) ∧
    ((tryAll D inp pos ts i g).2 = none → (tryAll D inp pos ts i g).1.eoiAcc =
      (g.eoiAcc || (ts.map (fun t => (t, tryTemplate D inp pos t h0))).any (fun p => p.2.isEoi))) := by
  induction ts generalizing i g with
  | nil => simp [tryAll]
  | cons t ts ih =>
    have ht := tryTemplate_any D inp pos t { g with ti := BitVec.ofNat 4 i } h0
    cases h0t : tryTemplate D inp pos t h0 with
    | ok k =>
      rw [h0t] at ht
      rw [tryAll_ok ht]
      simp only [List.map_cons, h0t, List.find?_cons, Attempt.isOk_ok, Option.map_some, Option.some.injEq, Prod.mk.injEq,
        Attempt.ok.injEq, List.findIdx_cons, cond_true, Nat.add_zero, true_and, reduceCtorEq, false_implies, and_true]
      rintro t' h ⟨rfl, rfl⟩
      exact ⟨rfl, rfl, rfl, rfl, rfl⟩
    | fail e k =>
      rw [h0t] at ht
      simp only [List.map_cons, h0t, List.find?_cons, Attempt.isOk_fail, List.findIdx_cons, cond_false, List.any_cons]
      cases e with
      | mismatch =>
        rw [tryAll_mismatch ht]
        have := ih (i + 1) (Hidden.mark (BitVec.ofNat 4 i) g.eoiAcc k)
        refine ⟨this.1, fun t' h hf => ?_, fun hn => ?_⟩
        · have := this.2.1 t' h hf
          refine ⟨this.1, this.2.1, this.2.2.1, this.2.2.2.1, ?_⟩
          rw [this.2.2.2.2]; congr 1; omega
        · rw [this.2.2 hn]; simp [Hidden.mark]
      | eoi =>
        rw [tryAll_eoi ht]
        have := ih (i + 1) { Hidden.mark (BitVec.ofNat 4 i) g.eoiAcc k with eoiAcc := true }
        refine ⟨this.1, fun t' h hf => ?_, fun hn => ?_⟩
        · have := this.2.1 t' h hf
          refine ⟨this.1, this.2.1, this.2.2.1, this.2.2.2.1, ?_⟩
          rw [this.2.2.2.2]; congr 1; omega
        · rw [this.2.2 hn]; simp

/-! ### What the construction checks promise (30_encoding.md R89 to R99) -/

def dhCount (ds : List Descriptor) : Nat := ds.countP (fun d => d.kind == .dataHigh)

theorem runElements_consumed {esc : BitVec 3} {inp : Input w} {mT : Option Nat} {ds : List Descriptor} {i : Nat} {h h' : Hidden w}
    (hw : ∀ d ∈ ds, ∀ n, kindWidth d.kind = some n → d.width.toNat = n) (he : runElements esc inp mT ds i h = .ok h') :
    ∃ k e, k ≤ dhCount ds ∧ e ≤ 2 ∧ ((mT = none ∨ ∃ j, mT = some j ∧ j < i) → e = 0) ∧
      h'.cur.position + 8 * k = h.cur.position + (ds.map declaredWidth).sum + 8 * e := by
  induction ds generalizing i h with
  | nil =>
    injection he with he
    exact ⟨0, 0, by simp [dhCount], by omega, fun _ => rfl, by simp [he]⟩
  | cons d ds ih =>
    have hw' : ∀ d ∈ ds, ∀ n, kindWidth d.kind = some n → d.width.toNat = n := fun x hx => hw x (List.mem_cons_of_mem d hx)
    cases hel : element inp d h with
    | fail e g => rw [runElements_fail hel] at he; cases he
    | ok g =>
      have hc := element_consumed (hw d List.mem_cons_self) hel
      have hcount : ∀ k, k ≤ dhCount ds → (∃ k', k' ≤ dhCount (d :: ds) ∧
          g.cur.position + 8 * k' = h.cur.position + declaredWidth d + 8 * k) := by
        intro k hk
        rcases hc with hc | ⟨hd, hc⟩
        · refine ⟨k, ?_, by omega⟩
          simp only [dhCount, List.countP_cons] at hk ⊢; omega
        · refine ⟨k + 1, ?_, by omega⟩
          have : dhCount (d :: ds) = dhCount ds + 1 := by simp [dhCount, hd]
          omega
      simp only [List.map_cons, List.sum_cons]
      by_cases hm : mT = some i
      · rw [runElements_disp hel hm] at he
        cases hx : dispExt esc inp g with
        | fail e g' => rw [hx] at he; cases he
        | ok g' =>
          rw [hx] at he
          obtain ⟨n, hn, hp⟩ := dispExt_consumed hx
          obtain ⟨k, e, hk, _, he0, hp'⟩ := ih hw' he
          have he0 : e = 0 := he0 (.inr ⟨i, hm, by omega⟩)
          obtain ⟨k', hk', hq⟩ := hcount k hk
          refine ⟨k', n, hk', hn, ?_, by omega⟩
          rintro (h0 | ⟨j, h0, hj⟩)
          · rw [h0] at hm; cases hm
          · rw [h0] at hm; injection hm with hm; omega
      · rw [runElements_ok hel hm] at he
        obtain ⟨k, e, hk, he2, he0, hp'⟩ := ih hw' he
        obtain ⟨k', hk', hq⟩ := hcount k hk
        refine ⟨k', e, hk', he2, ?_, by omega⟩
        rintro (h0 | ⟨j, h0, hj⟩)
        · exact he0 (.inl h0)
        · exact he0 (.inr ⟨j, h0, by omega⟩)

/-- 8 when the last field passed is a DataLow and the next one a DataHigh. -/
def dataPair : List Descriptor → List Descriptor → Nat
  | p :: _, d :: _ => if p.kind = .dataLow ∧ d.kind = .dataHigh then 8 else 0
  | _, _ => 0

theorem ceData_count {before ds : List Descriptor}
    (hw : ∀ d ∈ before.reverse ++ ds, ∀ n, kindWidth d.kind = some n → d.width.toNat = n)
    (h : ceDataFrom before ds = true) : 16 * dhCount ds ≤ (ds.map declaredWidth).sum + dataPair before ds := by
  induction ds generalizing before with
  | nil => simp [dhCount]
  | cons d ds ih =>
    simp only [ceDataFrom, Bool.and_eq_true] at h
    have hd := hw d (by simp)
    have ih' := ih (before := d :: before) (by simpa using hw) h.2
    simp only [List.map_cons, List.sum_cons]
    by_cases hk : d.kind = .dataHigh
    · have h8 : declaredWidth d = 8 := by rw [declaredWidth, hk, hd 8 (by rw [hk]; rfl)]; rfl
      have hp : dataPair before (d :: ds) = 8 := by
        have h1 := h.1
        simp only [hk, bne_self_eq_false, Bool.false_or, Bool.and_eq_true] at h1
        cases before with
        | nil => simp at h1
        | cons p bs => simpa [dataPair, hk] using h1.1.1
      have hz : dataPair (d :: before) ds = 0 := by cases ds <;> simp [dataPair, hk]
      have hc : dhCount (d :: ds) = dhCount ds + 1 := by simp [dhCount, hk]
      omega
    · have hle : dataPair (d :: before) ds ≤ declaredWidth d := by
        cases ds with
        | nil => simp [dataPair]
        | cons d' ds' =>
          simp only [dataPair]
          split
          · next hh => rw [declaredWidth, hh.1, hd 8 (by rw [hh.1]; rfl)]; decide
          · omega
      have hc : dhCount (d :: ds) = dhCount ds := by simp [dhCount, hk]
      omega

/-- A completed attempt of a valid template consumed whole bytes, between 1 and 15. -/
theorem valid_attempt {D : Design} {inp : Input w} {pos : Offset w} {t : Template} {h h' : Hidden w} (hv : validRom D = true)
    (ht : t ∈ D.rom) (he : tryTemplate D inp pos t h = .ok h') :
    ∃ n, 1 ≤ n ∧ n ≤ 15 ∧ h'.cur.position = 8 * (pos.toNat + n) := by
  obtain ⟨hf, hlen⟩ := validRom_template hv ht
  obtain ⟨hw, _, _, hg, _, _, _, _, _, hd⟩ := template_checks hf
  have hw' : ∀ d ∈ t.fields, ∀ n, kindWidth d.kind = some n → d.width.toNat = n := by
    intro d hd n hn
    have := List.all_eq_true.1 hw d hd
    rw [hn] at this
    simpa using this
  have hg' : declaredBits t % 8 = 0 ∧ 8 ≤ declaredBits t := by
    simp only [ceGroup, Bool.and_eq_true, decide_eq_true_eq, beq_iff_eq] at hg
    exact ⟨hg.1.2, hg.2⟩
  have hc := ceData_count (before := []) (ds := t.fields) (by simpa using hw') hd
  have hz : dataPair [] t.fields = 0 := by cases t.fields <;> rfl
  obtain ⟨k, e, hk, he2, he0, hp⟩ := runElements_consumed hw' he
  have hb : (beginAttempt pos h).cur.position = 8 * pos.toNat := by simp [beginAttempt, Cursor.position]
  rw [hb] at hp
  have hsum : (t.fields.map declaredWidth).sum = declaredBits t := rfl
  rw [hsum] at hp hc
  unfold templateMaxLength at hlen
  have hmod : hasMod t = false → e = 0 := fun hm => he0 (.inl (insertionPoint_hasMod hm))
  have hlen' : declaredBits t / 8 + e ≤ 15 := by
    cases hm : hasMod t
    · rw [hm] at hlen; have := hmod hm; simp at hlen; omega
    · rw [hm] at hlen; simp at hlen; omega
  refine ⟨declaredBits t / 8 + e - k, by omega, by omega, by omega⟩

/-! ### Commit -/

theorem commit_ready (tag : BitVec 8) (n : Nat) {s : State w} (h : s.host.ready = true) :
    commit tag n s = .next (committed tag n s) := by rw [commit, if_pos h]

theorem commit_hold (tag : BitVec 8) (n : Nat) {s : State w} (h : s.host.ready = false) :
    commit tag n s = .fault .outputHeld := by rw [commit, if_neg (by rw [h]; decide)]

/-- A Commit that happens happens with the sink ready (42_decode_engine.md R210). -/
theorem commit_next {tag : BitVec 8} {n : Nat} {s t : State w} (h : commit tag n s = .next t) :
    s.host.ready = true ∧ t = committed tag n s := by
  unfold commit at h
  split at h
  · next hr => exact ⟨hr, by injection h with h; exact h.symm⟩
  · cases h

theorem ceil8_bytes (n : Nat) : ceil8 (8 * n) = n := by unfold ceil8; omega

end Sys2Proof.Machine
end

