-- ==== Sys2Proof/Laws/Decoding.lean ====
section
/-! SUPPORT. The decoder (30_encoding.md R110, R111) and the bytes it is given: displacements taken off a byte list, and
the bytes of BUF at POS. -/

namespace Sys2Proof.Machine

variable {w : Nat}

@[simp] theorem takeDisp_zero (bs : List Byte) : takeDisp 0#2 bs = some (.none, bs) := rfl
@[simp] theorem takeDisp_one_nil : takeDisp 1#2 [] = none := rfl
@[simp] theorem takeDisp_one_cons (lo : Byte) (bs : List Byte) : takeDisp 1#2 (lo :: bs) = some (.byte lo, bs) := rfl
@[simp] theorem takeDisp_two_nil : takeDisp 2#2 [] = none := rfl
@[simp] theorem takeDisp_two_one (lo : Byte) : takeDisp 2#2 [lo] = none := rfl
@[simp] theorem takeDisp_two_cons (lo hi : Byte) (bs : List Byte) :
    takeDisp 2#2 (lo :: hi :: bs) = some (.word (hi ++ lo), bs) := rfl

theorem fetchFrom_past {inp : Input w} {a : Nat} (n : Nat) (h : inp.bufLen.toNat ≤ a) : fetchFrom inp a n = [] := by
  cases n with
  | zero => rfl
  | succ n => rw [fetchFrom, if_neg (by omega)]

theorem fetchFrom_in {inp : Input w} {a : Nat} (n : Nat) (h : a < inp.bufLen.toNat) :
    fetchFrom inp a (n + 1) = inp.buf.read a :: fetchFrom inp (a + 1) n := by rw [fetchFrom, if_pos h]

theorem fetchBytes_eq (s : State w) : s.fetchBytes = fetchFrom s.input s.pos.toNat 4 := by
  have : lMax defaultRom = 4 := by decide
  rw [State.fetchBytes, this]

theorem withDisp_ok {mod : BitVec 2} {rm : BitVec 3} {bs rest : List Byte} {mk : Disp → Instr} {i : Instr} :
    withDisp mod rm bs mk = .ok i rest ↔ ∃ d, takeDisp (dispLen directAddrRm mod rm) bs = some (d, rest) ∧ i = mk d := by
  unfold withDisp
  split
  · next d r h =>
    simp only [Decoded.ok.injEq, h, Option.some.injEq, Prod.mk.injEq]
    constructor
    · rintro ⟨rfl, rfl⟩; exact ⟨d, ⟨rfl, rfl⟩, rfl⟩
    · rintro ⟨d', ⟨rfl, rfl⟩, rfl⟩; exact ⟨rfl, rfl⟩
  · next h => simp [h]

theorem withDisp_reject {mod : BitVec 2} {rm : BitVec 3} {bs : List Byte} {mk : Disp → Instr} {r : Reject} :
    withDisp mod rm bs mk = .reject r ↔ takeDisp (dispLen directAddrRm mod rm) bs = none ∧ r = .endOfInput := by
  unfold withDisp
  split
  · next d r h => simp [h]
  · next h => simp [h, eq_comm]

theorem isMovByte_not_push {b : Byte} (h : isMovByte b = true) : isPushByte b = false := by
  revert b; decide

theorem decode_two (b0 b1 : Byte) (tl : List Byte) : decode (b0 :: b1 :: tl) =
    if isMovByte b0 then
      withDisp (b1.extractLsb' 6 2) (b1.extractLsb' 0 3) tl
        (fun d => .mov (b0.extractLsb' 0 1) (b1.extractLsb' 6 2) (b1.extractLsb' 3 3) (b1.extractLsb' 0 3) d)
    else if isPushByte b0 then
      if b1.extractLsb' 3 3 == 0b110#3 then
        withDisp (b1.extractLsb' 6 2) (b1.extractLsb' 0 3) tl (fun d => .push (b1.extractLsb' 6 2) (b1.extractLsb' 0 3) d)
      else .reject .noMatch
    else .reject .noMatch := rfl

/-- A completed displacement ends within the buffer. -/
theorem takeDisp_fits {inp : Input w} {b n : Nat} {l : BitVec 2} {d : Disp} {rest : List Byte}
    (hb : b ≤ inp.bufLen.toNat) (h : takeDisp l (fetchFrom inp b n) = some (d, rest)) : b + dispBytes d ≤ inp.bufLen.toNat := by
  have hlen : ∀ n b, b ≤ inp.bufLen.toNat → b + (fetchFrom inp b n).length ≤ inp.bufLen.toNat := by
    intro n
    induction n with
    | zero => intro b hb; exact hb
    | succ n ih =>
      intro b hb
      unfold fetchFrom
      split
      · have := ih (b + 1) (by omega)
        simp only [List.length_cons]; omega
      · exact hb
  have := hlen n b hb
  unfold takeDisp at h
  split at h <;> simp at h
  · rw [← h.1]; simpa [dispBytes] using hb
  · next heq => rw [heq] at this; simp at this; rw [← h.1]; simp [dispBytes]; omega
  · next heq => rw [heq] at this; simp at this; rw [← h.1]; simp [dispBytes]; omega

/-- DispExt at a byte boundary completes just when takeDisp finds the bytes, with the displacement it finds. -/
theorem dispExt_aligned (esc : BitVec 3) {inp : Input w} {h : Hidden w} {b : Nat} (n : Nat)
    (hc : h.cur = Cursor.ofPosition (8 * b)) (hlt : b < 2 ^ w) :
    match takeDisp (dispLen esc h.regs.mod h.regs.rm) (fetchFrom inp b (n + 2)) with
    | some (d, _) => dispExt esc inp h = .ok { h with
        cur := Cursor.ofPosition (8 * (b + dispBytes d)), disp := dispValue d, dispLen := dispLenOf d }
    | none => ∃ g, dispExt esc inp h = .fail .eoi g := by
  have hl := inp.bufLen.isLt
  have h8 : 0 < (8 : Fin 17).val := by decide
  rcases dispLen_cases esc h.regs.mod h.regs.rm with hn | hn | hn <;> rw [hn]
  · simp only [takeDisp_zero, dispExt, hn, dispBytes, dispValue, dispLenOf, Nat.add_zero, ← hc]
    rfl
  · by_cases hb : b < inp.bufLen.toNat
    · simp [hn, fetchFrom_in _ hb, dispExt, hc, consumeBits_byte hb, dispBytes, dispValue, dispLenOf]
    · simp [hn, fetchFrom_past _ (Nat.le_of_not_lt hb), dispExt, hc, consumeBits_past h8 (Nat.le_of_not_lt hb) hlt]
  · by_cases hb : b < inp.bufLen.toNat
    · by_cases hb1 : b + 1 < inp.bufLen.toNat
      · simp [hn, fetchFrom_in _ hb, fetchFrom_in _ hb1, dispExt, hc, consumeBits_byte hb, consumeBits_byte hb1, dispBytes,
          dispValue, dispLenOf]
      · simp [hn, fetchFrom_in _ hb, fetchFrom_past _ (Nat.le_of_not_lt hb1), dispExt, hc, consumeBits_byte hb,
          consumeBits_past h8 (Nat.le_of_not_lt hb1) (by omega)]
    · simp [hn, fetchFrom_past _ (Nat.le_of_not_lt hb), dispExt, hc, consumeBits_past h8 (Nat.le_of_not_lt hb) hlt]

theorem dispExt_of_take {esc : BitVec 3} {inp : Input w} {h : Hidden w} {b n : Nat} {mod : BitVec 2} {rm : BitVec 3}
    {d : Disp} {rest : List Byte} (hc : h.cur = Cursor.ofPosition (8 * b)) (hlt : b < 2 ^ w) (hmod : h.regs.mod = mod)
    (hrm : h.regs.rm = rm) (ht : takeDisp (dispLen esc mod rm) (fetchFrom inp b (n + 2)) = some (d, rest)) :
    dispExt esc inp h = .ok { h with
      cur := Cursor.ofPosition (8 * (b + dispBytes d)), disp := dispValue d, dispLen := dispLenOf d } := by
  subst hmod hrm
  have := dispExt_aligned esc (inp := inp) n hc hlt
  rwa [ht] at this

theorem dispExt_of_truncated {esc : BitVec 3} {inp : Input w} {h : Hidden w} {b n : Nat} {mod : BitVec 2} {rm : BitVec 3}
    (hc : h.cur = Cursor.ofPosition (8 * b)) (hlt : b < 2 ^ w) (hmod : h.regs.mod = mod) (hrm : h.regs.rm = rm)
    (ht : takeDisp (dispLen esc mod rm) (fetchFrom inp b (n + 2)) = none) : ∃ g, dispExt esc inp h = .fail .eoi g := by
  subst hmod hrm
  have := dispExt_aligned esc (inp := inp) n hc hlt
  rwa [ht] at this

/-- What the decoder reads from the bytes at POS fits the buffer and is well formed. -/
theorem decode_fetch_fits {s : State w} {i : Instr} {rest : List Byte} (h : decode s.fetchBytes = .ok i rest) :
    s.pos.toNat + byteLength i ≤ s.bufLen.toNat ∧ i.wellFormed = true := by
  rw [fetchBytes_eq] at h
  have h0 : s.pos.toNat < s.input.bufLen.toNat := by
    by_contra h0
    rw [fetchFrom_past _ (Nat.le_of_not_lt h0)] at h
    cases h
  rw [fetchFrom_in _ h0] at h
  have h1 : s.pos.toNat + 1 < s.input.bufLen.toNat := by
    by_contra h1
    rw [fetchFrom_past _ (Nat.le_of_not_lt h1)] at h
    unfold decode at h
    simp only at h
    split at h <;> cases h
  rw [fetchFrom_in _ h1, decode_two] at h
  have key : ∀ {mod rm d}, takeDisp (dispLen directAddrRm mod rm) (fetchFrom s.input (s.pos.toNat + 1 + 1) 2) = some (d, rest) →
      s.pos.toNat + (2 + dispBytes d) ≤ s.bufLen.toNat ∧ d.fits mod rm = true := by
    intro mod rm d hd
    have := takeDisp_fits (by omega) hd
    refine ⟨by change _ ≤ s.input.bufLen.toNat; omega, ?_⟩
    unfold Disp.fits
    rcases dispLen_cases directAddrRm mod rm with hn | hn | hn <;> rw [hn] at hd ⊢ <;> unfold takeDisp at hd <;>
      split at hd <;> simp at hd <;> simp_all <;> (rw [← hd.1]; rfl)
  split at h
  · obtain ⟨d, hd, rfl⟩ := withDisp_ok.1 h
    exact key hd
  · split at h
    · split at h
      · obtain ⟨d, hd, rfl⟩ := withDisp_ok.1 h
        exact key hd
      · cases h
    · cases h

end Sys2Proof.Machine
end

