-- ==== Sys2Proof/Laws/Encode.lean ====
section
/-! SUPPORT. The encoding of an arbitrary template (42_decode_engine.md R206): how many bits it has, that the bytes it is
packed into hold them, and that an attempt over them completes with the registers it resolves. -/

namespace Sys2Proof.Machine

variable {w : Nat}

/-- The stream holds the given bits from position p on. -/
def holdsBits (m : Memory) (p : Nat) (bits : List Bool) : Prop := ∀ k b, bits[k]? = some b → streamBit m (p + k) = b

theorem holdsBits_append {m : Memory} {p : Nat} {bs cs : List Bool} (h : holdsBits m p (bs ++ cs)) :
    holdsBits m p bs ∧ holdsBits m (p + bs.length) cs := by
  constructor
  · intro k b hb
    have hk : k < bs.length := (List.getElem?_eq_some_iff.1 hb).1
    exact h k b (by rw [List.getElem?_append_left hk]; exact hb)
  · intro k b hb
    have := h (bs.length + k) b (by rw [List.getElem?_append_right (by omega)]; simpa using hb)
    rwa [← Nat.add_assoc] at this

theorem Memory.holds_append {m : Memory} {a : Nat} {bs cs : List Byte} (h : m.holds a (bs ++ cs)) :
    m.holds a bs ∧ m.holds (a + bs.length) cs := by
  constructor
  · intro k b hb
    have hk : k < bs.length := (List.getElem?_eq_some_iff.1 hb).1
    exact h k b (by rw [List.getElem?_append_left hk]; exact hb)
  · intro k b hb
    have := h (bs.length + k) b (by rw [List.getElem?_append_right (by omega)]; simpa using hb)
    rwa [← Nat.add_assoc] at this

@[simp] theorem bitsOf_length (n : Nat) (v : BitVec 8) : (bitsOf n v).length = n := by simp [bitsOf]

theorem bitsOf_getElem? {n k : Nat} (v : BitVec 8) (h : k < n) : (bitsOf n v)[k]? = some (v.getLsbD (n - 1 - k)) := by
  simp [bitsOf, h]

/-! ### Bytes -/

/-- A bit string is short of a byte, or begins with one. -/
theorem short_or_byte (bits : List Bool) : bits.length < 8 ∧ packBits bits = [] ∨
    ∃ b7 b6 b5 b4 b3 b2 b1 b0 bs, bits = b7 :: b6 :: b5 :: b4 :: b3 :: b2 :: b1 :: b0 :: bs := by
  rcases bits with _ | ⟨b7, _ | ⟨b6, _ | ⟨b5, _ | ⟨b4, _ | ⟨b3, _ | ⟨b2, _ | ⟨b1, _ | ⟨b0, bs⟩⟩⟩⟩⟩⟩⟩⟩ <;>
    first | exact .inl ⟨by simp, rfl⟩ | exact .inr ⟨_, _, _, _, _, _, _, _, _, rfl⟩

theorem packBits_length (bits : List Bool) : (packBits bits).length = bits.length / 8 := by
  induction bits using packBits.induct with
  | case1 b7 b6 b5 b4 b3 b2 b1 b0 bs ih => simp only [packBits, List.length_cons, ih]; omega
  | case2 bits hn =>
    rcases short_or_byte bits with ⟨h, e⟩ | ⟨_, _, _, _, _, _, _, _, _, e⟩
    · rw [e, Nat.div_eq_of_lt h]; rfl
    · exact absurd e (hn _ _ _ _ _ _ _ _ _)

/-- A byte's bits in stream order are the eight it is packed from. -/
theorem packed_bits (b7 b6 b5 b4 b3 b2 b1 b0 : Bool) {k : Nat} (hk : k < 8) : [b7, b6, b5, b4, b3, b2, b1, b0][k]? =
    some ((BitVec.ofBoolListBE [b7, b6, b5, b4, b3, b2, b1, b0]).getLsbD (7 - k)) := by
  have : ∀ k : Fin 8, ∀ b7 b6 b5 b4 b3 b2 b1 b0, [b7, b6, b5, b4, b3, b2, b1, b0][k.val]? =
      some ((BitVec.ofBoolListBE [b7, b6, b5, b4, b3, b2, b1, b0]).getLsbD (7 - k.val)) := by decide
  exact this ⟨k, hk⟩ b7 b6 b5 b4 b3 b2 b1 b0

/-- A buffer that holds the packed bytes holds their bits, when they fill whole bytes. -/
theorem holdsBits_packBits {m : Memory} {bits : List Bool} : ∀ {a : Nat}, 8 ∣ bits.length → m.holds a (packBits bits) →
    holdsBits m (8 * a) bits := by
  induction bits using packBits.induct with
  | case1 b7 b6 b5 b4 b3 b2 b1 b0 bs ih =>
    intro a hd h k b hb
    simp only [packBits] at h
    rw [show b7 :: b6 :: b5 :: b4 :: b3 :: b2 :: b1 :: b0 :: bs = [b7, b6, b5, b4, b3, b2, b1, b0] ++ bs from rfl] at hb
    by_cases hk : k < 8
    · rw [List.getElem?_append_left hk, packed_bits b7 b6 b5 b4 b3 b2 b1 b0 hk, ← h 0 _ rfl] at hb
      rw [streamBit, show (8 * a + k) / 8 = a + 0 by omega, show 7 - (8 * a + k) % 8 = 7 - k by omega]
      exact Option.some.inj hb
    · rw [List.getElem?_append_right (by simpa using hk)] at hb
      have := ih (a := a + 1) (by simp only [List.length_cons] at hd; omega) (fun j c hc => by
        have := h (j + 1) c (by simpa using hc)
        rwa [show a + 1 + j = a + (j + 1) by omega]) (k - 8) b hb
      rwa [show 8 * (a + 1) + (k - 8) = 8 * a + k by omega] at this
  | case2 bits hn =>
    intro a hd h k b hb
    rcases short_or_byte bits with ⟨h8, _⟩ | ⟨_, _, _, _, _, _, _, _, _, e⟩
    · rw [List.eq_nil_of_length_eq_zero (by omega : bits.length = 0)] at hb
      cases hb
    · exact absurd e (hn _ _ _ _ _ _ _ _ _)

/-! ### Reading encoded bits -/

/-- Reading n bits that hold the low n bits of v. -/
theorem consumeBits_encoded {inp : Input w} {c : Cursor w} {n : Fin 17} {v : BitVec 8}
    (hr : c.position + n.val ≤ 8 * inp.bufLen.toNat) (hb : holdsBits inp.buf c.position (bitsOf n.val v)) (hv : v.toNat < 2 ^ n.val) :
    consumeBits inp c n = some (v.setWidth 16, Cursor.ofPosition (c.position + n.val)) := by
  rw [consumeBits_eq_some]
  refine ⟨by unfold remaining; omega, ?_, rfl⟩
  apply BitVec.eq_of_getLsbD_eq
  intro j hj
  rw [gatherBits_getLsbD _ _ _ _ _ hj]
  split
  · next h =>
    rw [hb (n.val - 1 - j) _ (bitsOf_getElem? v (by omega)), show n.val - 1 - (n.val - 1 - j) = j by omega]
    simp [hj]
  · next h =>
    have : v.getLsbD j = false := by
      rw [BitVec.getLsbD, Nat.testBit_lt_two_pow]
      exact Nat.lt_of_lt_of_le hv (Nat.pow_le_pow_right (by omega) (by omega))
    simp [this]

theorem Cursor.ofPosition_add_zero (c : Cursor w) : Cursor.ofPosition (c.position + 0) = c := c.ofPosition_position

theorem get_lt (f : FieldRegs) (k : Key) : (f.get k).toNat < 2 ^ keyWidth k := by
  cases k <;> simp only [FieldRegs.get, keyWidth, BitVec.toNat_setWidth] <;>
    first
    | exact Nat.lt_of_le_of_lt (Nat.mod_le _ _) (BitVec.isLt _)
    | exact BitVec.isLt _

theorem readField_encoded {inp : Input w} {k : Key} {n : Fin 17} {h : Hidden w} {values : FieldRegs} (hn : n.val = keyWidth k)
    (hr : h.cur.position + n.val ≤ 8 * inp.bufLen.toNat)
    (hb : holdsBits inp.buf h.cur.position (streamField values k n.val h.regs).bits) :
    readField inp k n h = .ok { h with
      cur := Cursor.ofPosition (h.cur.position + (streamField values k n.val h.regs).bits.length)
      regs := (streamField values k n.val h.regs).regs } := by
  simp only [readField, consumeBits_encoded hr hb (hn ▸ get_lt values k), streamField, bitsOf_length]

/-- One element over its encoding completes, with the registers encodeField gives. -/
theorem element_encoded {inp : Input w} {d : Descriptor} {h : Hidden w} {values : FieldRegs}
    (hl : d.kind = .literal → d.value.toNat < 2 ^ d.width.toNat)
    (hr : h.cur.position + (encodeField values d h.regs).bits.length ≤ 8 * inp.bufLen.toNat)
    (hb : holdsBits inp.buf h.cur.position (encodeField values d h.regs).bits) :
    element inp d h = .ok { h with
      cur := Cursor.ofPosition (h.cur.position + (encodeField values d h.regs).bits.length)
      regs := (encodeField values d h.regs).regs } := by
  cases hk : d.kind <;> simp only [encodeField, hk] at hr hb ⊢ <;> simp only [element, hk]
  case literal =>
    simp only [bitsOf_length] at hr ⊢
    rw [literalElement, consumeBits_encoded (n := widthRequest d.width) hr hb (hl hk)]
    simp [widthRequest]
  case dataHigh =>
    split at hr
    · next hc =>
      rw [if_pos hc] at hb ⊢
      rw [if_pos hc]
      exact readField_encoded (n := 8) rfl (by simpa [streamField] using hr) hb
    · next hc =>
      rw [if_neg hc, if_neg hc]
      simp [Cursor.ofPosition_position]
  case impliedWidth => simp [impliedElement, Cursor.ofPosition_position]
  case impliedDirection => simp [impliedElement, Cursor.ofPosition_position]
  all_goals exact readField_encoded (n := Fin.mk _ (by decide)) rfl (by simpa [streamField] using hr) hb

theorem dispBits_length (d : Disp) : (dispBits d).length = 8 * dispBytes d := by cases d <;> simp [dispBits, dispBytes]

theorem dispLenOf_eq {d : Disp} {n : BitVec 2} (h : dispLenOf d = n) : dispBytes d = n.toNat := by
  subst h; cases d <;> rfl

/-- DispExt over a displacement's bits reads it, where MOD and RM select its length (41_field_elements.md R166). -/
theorem dispExt_encoded {esc : BitVec 3} {inp : Input w} {h : Hidden w} {d : Disp}
    (hn : dispLen esc h.regs.mod h.regs.rm = dispLenOf d)
    (hr : h.cur.position + (dispBits d).length ≤ 8 * inp.bufLen.toNat) (hb : holdsBits inp.buf h.cur.position (dispBits d)) :
    dispExt esc inp h = .ok { h with
      cur := Cursor.ofPosition (h.cur.position + (dispBits d).length), disp := dispValue d, dispLen := dispLenOf d } := by
  have hl := inp.bufLen.isLt
  have h8 : ((8 : Fin 17)).val = 8 := rfl
  cases d with
  | none =>
    have hn0 : dispLen esc h.regs.mod h.regs.rm = 0#2 := hn
    simp [dispExt, hn0, dispBits, dispValue, dispLenOf, dispBytes, Cursor.ofPosition_position]
  | byte lo =>
    have hn1 : dispLen esc h.regs.mod h.regs.rm = 1#2 := hn
    have hc := consumeBits_encoded (n := 8) (v := lo) (by simpa [dispBits] using hr) hb lo.isLt
    simp [dispExt, hn1, hc, dispBits, dispValue, dispLenOf, dispBytes]
  | word v =>
    have hn2 : dispLen esc h.regs.mod h.regs.rm = 2#2 := hn
    obtain ⟨hb1, hb2⟩ := holdsBits_append hb
    simp only [dispBits, List.length_append, bitsOf_length] at hr hb2
    have hc := consumeBits_encoded (n := 8) (v := v.extractLsb' 0 8) (by omega) hb1 (BitVec.isLt _)
    have hp : (Cursor.ofPosition (h.cur.position + 8) : Cursor w).position = h.cur.position + 8 :=
      Cursor.position_ofPosition (by omega)
    have hc2 := consumeBits_encoded (n := 8) (c := Cursor.ofPosition (h.cur.position + 8)) (v := v.extractLsb' 8 8)
      (by rw [hp]; omega) (by rw [hp]; exact hb2) (BitVec.isLt _)
    have hv : (v.extractLsb' 8 8 ++ v.extractLsb' 0 8 : BitVec 16) = v := by
      apply BitVec.eq_of_getLsbD_eq
      intro i hi
      have e : (v.extractLsb' 8 8 ++ v.extractLsb' 0 8 : BitVec (8 + 8)).getLsbD i = v.getLsbD i := by
        rw [BitVec.getLsbD_append]
        split
        · next h => simp [h]
        · next h =>
          have : 8 + (i - 8) = i := by omega
          have h2 : i - 8 < 8 := by omega
          simp [this, h2]
      exact e
    simp only [h8, hp] at hc hc2
    simp [dispExt, hn2, hc, hc2, dispBits, dispValue, dispLenOf, dispBytes, hv]

/-- A field's encoding has its declared bits, a DataHigh's eight or none. -/
theorem encodeField_length {values : FieldRegs} {d : Descriptor} (f : FieldRegs)
    (hw : ∀ n, kindWidth d.kind = some n → d.width.toNat = n) :
    (encodeField values d f).bits.length % 8 = declaredWidth d % 8 := by
  cases hk : d.kind <;> rw [hk] at hw <;> simp only [encodeField, hk, declaredWidth, isImplied]
  case literal => simp
  case dataHigh => split <;> simp [streamField, hw 8 rfl]
  case impliedWidth => rfl
  case impliedDirection => rfl
  all_goals simp [streamField, hw _ rfl]

theorem encodeFields_length {mT : Option Nat} {values : FieldRegs} {disp : Disp} {ds : List Descriptor} {i : Nat} {f : FieldRegs}
    (hw : ∀ d ∈ ds, ∀ n, kindWidth d.kind = some n → d.width.toNat = n) :
    (encodeFields mT values disp ds i f).bits.length % 8 = (ds.map declaredWidth).sum % 8 := by
  induction ds generalizing i f with
  | nil => rfl
  | cons d ds ih =>
    have h1 := encodeField_length (values := values) f (hw d List.mem_cons_self)
    have h2 := ih (i := i + 1) (f := (encodeField values d f).regs) (fun x hx => hw x (List.mem_cons_of_mem d hx))
    have h3 : (if mT = some i then dispBits disp else []).length % 8 = 0 := by
      split
      · rw [dispBits_length]; omega
      · rfl
    simp only [encodeFields, List.length_append, List.map_cons, List.sum_cons]
    omega

/-! ### MOD and RM when DispExt runs (30_encoding.md R97) -/

/-- F[k] holds its given value, or a field up to declared index j, the first here having index i, still writes it. -/
def settles (values : FieldRegs) (k : Key) (kind : FieldKind) (f : FieldRegs) (ds : List Descriptor) (i j : Nat) : Prop :=
  f.get k = values.get k ∨ ∃ n d, ds[n]? = some d ∧ d.kind = kind ∧ i + n ≤ j

theorem get_put_given (values f : FieldRegs) (k : Key) : (f.put k ((values.get k).setWidth 16)).get k = values.get k := by
  have h := get_lt values k
  have h16 : ((values.get k).setWidth 16).toNat < 2 ^ keyWidth k := by simp; omega
  rw [FieldRegs.get_put_same f k h16]
  exact setWidth_setWidth_self (by decide) _

/-- A field writes its own key's given value, and no other key. -/
theorem encodeField_get {values : FieldRegs} {d : Descriptor} {f : FieldRegs} {k : Key} :
    (kindKey d.kind ≠ some k → (encodeField values d f).regs.get k = f.get k ∧ (encodeField values d f).regs.has k = f.has k) ∧
    (kindKey d.kind = some k → isImplied d.kind = false → d.kind ≠ .dataHigh →
      (encodeField values d f).regs.get k = values.get k ∧ (encodeField values d f).regs.has k = true) := by
  cases hk : d.kind <;> simp only [encodeField, hk, kindKey, streamField, isImplied]
  case literal => exact ⟨fun _ => ⟨trivial, trivial⟩, fun h => by cases h⟩
  case dataHigh =>
    refine ⟨fun h => ?_, fun _ _ h => absurd rfl h⟩
    split
    · have : k ≠ .dhi := fun e => h (by rw [e])
      exact ⟨FieldRegs.get_put_other _ _ this, FieldRegs.has_put_other _ _ this⟩
    · exact ⟨rfl, rfl⟩
  case impliedWidth =>
    refine ⟨fun h => ?_, fun _ h => by cases h⟩
    have : k ≠ .w := fun e => h (by rw [e])
    exact ⟨FieldRegs.get_put_other _ _ this, FieldRegs.has_put_other _ _ this⟩
  case impliedDirection =>
    refine ⟨fun h => ?_, fun _ h => by cases h⟩
    have : k ≠ .d := fun e => h (by rw [e])
    exact ⟨FieldRegs.get_put_other _ _ this, FieldRegs.has_put_other _ _ this⟩
  all_goals
    refine ⟨fun h => ?_, fun h _ _ => ?_⟩
    · have hne := fun e : k = _ => h (by rw [e])
      exact ⟨FieldRegs.get_put_other _ _ hne, FieldRegs.has_put_other _ _ hne⟩
    · cases h
      exact ⟨get_put_given _ _ _, FieldRegs.has_put_same _ _ _⟩

theorem settles_step {values : FieldRegs} {k : Key} {kind : FieldKind} {f : FieldRegs} {d : Descriptor} {ds : List Descriptor}
    {i j : Nat} (hkey : kindKey kind = some k) (hdh : kind ≠ .dataHigh)
    (honly : ∀ kind', kindKey kind' = some k → isImplied kind' = false → kind' = kind)
    (hni : ∀ kind', kindKey kind' = some k → isImplied kind' = false)
    (h : settles values k kind f (d :: ds) i j) :
    settles values k kind (encodeField values d f).regs ds (i + 1) j := by
  by_cases hd : kindKey d.kind = some k
  · have hdk := honly d.kind hd (hni _ hd)
    exact .inl ((encodeField_get.2 hd (hni _ hd) (hdk ▸ hdh)).1)
  · rcases h with h | ⟨n, e, he, hek, hn⟩
    · exact .inl ((encodeField_get.1 hd).1.trans h)
    · cases n with
      | zero =>
        simp only [List.getElem?_cons_zero, Option.some.injEq] at he
        exact absurd (by rw [he, hek]; exact hkey) hd
      | succ n => exact .inr ⟨n, e, by simpa using he, hek, by omega⟩

theorem settles_now {values : FieldRegs} {k : Key} {kind : FieldKind} {f : FieldRegs} {ds : List Descriptor} {i : Nat}
    (h : settles values k kind f ds (i + 1) i) : f.get k = values.get k := by
  rcases h with h | ⟨n, _, _, _, hn⟩
  · exact h
  · omega

theorem settles_mod {values : FieldRegs} {f : FieldRegs} {d : Descriptor} {ds : List Descriptor} {i j : Nat}
    (h : settles values .mod .addressingMode f (d :: ds) i j) :
    settles values .mod .addressingMode (encodeField values d f).regs ds (i + 1) j :=
  settles_step rfl (by decide) (by intro k; cases k <;> simp [kindKey]) (by intro k; cases k <;> simp [kindKey, isImplied]) h

theorem settles_rm {values : FieldRegs} {f : FieldRegs} {d : Descriptor} {ds : List Descriptor} {i j : Nat}
    (h : settles values .rm .registerOrMemory f (d :: ds) i j) :
    settles values .rm .registerOrMemory (encodeField values d f).regs ds (i + 1) j :=
  settles_step rfl (by decide) (by intro k; cases k <;> simp [kindKey]) (by intro k; cases k <;> simp [kindKey, isImplied]) h

theorem FieldRegs.get_mod_inj {f g : FieldRegs} (h : f.get .mod = g.get .mod) : f.mod = g.mod := by
  apply BitVec.eq_of_toNat_eq
  have := congrArg BitVec.toNat h
  have h1 := f.mod.isLt
  have h2 := g.mod.isLt
  simp [FieldRegs.get] at this
  omega

theorem FieldRegs.get_rm_inj {f g : FieldRegs} (h : f.get .rm = g.get .rm) : f.rm = g.rm := by
  apply BitVec.eq_of_toNat_eq
  have := congrArg BitVec.toNat h
  have h1 := f.rm.isLt
  have h2 := g.rm.isLt
  simp [FieldRegs.get] at this
  omega

/-- The elements of a template over its encoding complete, the displacement read at its insertion point. -/
theorem runElements_encoded {esc : BitVec 3} {inp : Input w} {mT : Option Nat} {values : FieldRegs} {disp : Disp}
    {ds : List Descriptor} {i : Nat} {h : Hidden w}
    (hl : ∀ d ∈ ds, d.kind = .literal → d.value.toNat < 2 ^ d.width.toNat)
    (hm : ∀ j, mT = some j → i ≤ j → settles values .mod .addressingMode h.regs ds i j ∧
      settles values .rm .registerOrMemory h.regs ds i j ∧ dispLen esc values.mod values.rm = dispLenOf disp)
    (hr : h.cur.position + (encodeFields mT values disp ds i h.regs).bits.length ≤ 8 * inp.bufLen.toNat)
    (hb : holdsBits inp.buf h.cur.position (encodeFields mT values disp ds i h.regs).bits) :
    ∃ h', runElements esc inp mT ds i h = .ok h' ∧
      h'.cur = Cursor.ofPosition (h.cur.position + (encodeFields mT values disp ds i h.regs).bits.length) ∧
      h'.regs = (encodeFields mT values disp ds i h.regs).regs ∧
      ((∃ j, mT = some j ∧ i ≤ j ∧ j < i + ds.length) → h'.disp = dispValue disp ∧ h'.dispLen = dispLenOf disp) ∧
      (¬(∃ j, mT = some j ∧ i ≤ j ∧ j < i + ds.length) → h'.disp = h.disp ∧ h'.dispLen = h.dispLen) := by
  have hL := inp.bufLen.isLt
  induction ds generalizing i h with
  | nil =>
    refine ⟨h, rfl, by simp [encodeFields, Cursor.ofPosition_position], rfl, ?_, fun _ => ⟨rfl, rfl⟩⟩
    rintro ⟨j, _, h1, h2⟩
    simp at h2
    omega
  | cons d ds ih =>
    simp only [encodeFields] at hr hb ⊢
    generalize hc : encodeField values d h.regs = c at hr hb ⊢
    obtain ⟨hb12, hb3⟩ := holdsBits_append hb
    obtain ⟨hb1, hb2⟩ := holdsBits_append hb12
    simp only [List.length_append] at hr hb3 ⊢
    have he := element_encoded (inp := inp) (values := values) (hl d List.mem_cons_self) (by rw [hc]; omega) (by rw [hc]; exact hb1)
    rw [hc] at he
    have hp1 : (Cursor.ofPosition (h.cur.position + c.bits.length) : Cursor w).position = h.cur.position + c.bits.length :=
      Cursor.position_ofPosition (by omega)
    have hl' : ∀ d ∈ ds, d.kind = .literal → d.value.toNat < 2 ^ d.width.toNat := fun x hx => hl x (List.mem_cons_of_mem d hx)
    by_cases hmi : mT = some i
    · rw [if_pos hmi] at hr hb2 hb3 ⊢
      obtain ⟨hs1, hs2, hdl⟩ := hm i hmi (Nat.le_refl i)
      have e1 : c.regs.mod = values.mod := FieldRegs.get_mod_inj (settles_now (hc ▸ settles_mod hs1))
      have e2 : c.regs.rm = values.rm := FieldRegs.get_rm_inj (settles_now (hc ▸ settles_rm hs2))
      have hx := dispExt_encoded (esc := esc) (inp := inp) (d := disp)
        (h := { h with cur := Cursor.ofPosition (h.cur.position + c.bits.length), regs := c.regs })
        (by rw [e1, e2]; exact hdl) (by simp only [hp1]; omega) (by simp only [hp1]; exact hb2)
      rw [runElements_disp he hmi, hx]
      simp only [hp1]
      have hp2 : (Cursor.ofPosition (h.cur.position + c.bits.length + (dispBits disp).length) : Cursor w).position =
        h.cur.position + c.bits.length + (dispBits disp).length := Cursor.position_ofPosition (by omega)
      obtain ⟨h', r1, r2, r3, _, r5⟩ := ih (i := i + 1) (h := { h with
          cur := Cursor.ofPosition (h.cur.position + c.bits.length + (dispBits disp).length), regs := c.regs,
          disp := dispValue disp, dispLen := dispLenOf disp }) hl'
        (by intro j hj hij; rw [hmi] at hj; cases hj; omega)
        (by simp only [hp2]; omega) (by simp only [hp2]; rw [Nat.add_assoc]; exact hb3)
      have hno : ¬∃ j, mT = some j ∧ i + 1 ≤ j ∧ j < i + 1 + ds.length := by
        rintro ⟨j, hj, h1, _⟩
        rw [hmi] at hj; cases hj; omega
      refine ⟨h', r1, ?_, r3, fun _ => r5 hno, fun hn => absurd ⟨i, hmi, Nat.le_refl i, by simp⟩ hn⟩
      rw [r2]
      simp only [hp2]
      congr 1
      omega
    · rw [if_neg hmi] at hr hb3 ⊢
      rw [runElements_ok he hmi]
      obtain ⟨h', r1, r2, r3, r4, r5⟩ := ih (i := i + 1) (h := { h with
          cur := Cursor.ofPosition (h.cur.position + c.bits.length), regs := c.regs }) hl'
        (by
          intro j hj hij
          obtain ⟨hs1, hs2, hdl⟩ := hm j hj (by omega)
          exact ⟨hc ▸ settles_mod hs1, hc ▸ settles_rm hs2, hdl⟩)
        (by simp only [hp1]; simp at hr; omega) (by simp only [hp1]; simpa using hb3)
      have hiff : (∃ j, mT = some j ∧ i ≤ j ∧ j < i + (d :: ds).length) ↔ ∃ j, mT = some j ∧ i + 1 ≤ j ∧ j < i + 1 + ds.length := by
        constructor
        · rintro ⟨j, hj, h1, h2⟩
          have : j ≠ i := fun e => hmi (e ▸ hj)
          simp only [List.length_cons] at h2
          exact ⟨j, hj, by omega, by omega⟩
        · rintro ⟨j, hj, h1, h2⟩
          exact ⟨j, hj, by omega, by simp only [List.length_cons]; omega⟩
      refine ⟨h', r1, ?_, r3, fun hx => r4 (hiff.1 hx), fun hx => r5 (fun hy => hx (hiff.2 hy))⟩
      rw [r2]
      simp only [hp1, List.length_nil]
      congr 1
      omega

/-! ### The insertion point of a valid template -/

theorem placeFrom_getElem? {ds : List Descriptor} {a n : Nat} {p : Placed} (h : (placeFrom a ds)[n]? = some p) :
    ds[n]? = some p.field := by
  induction ds generalizing a n with
  | nil => simp [placeFrom] at h
  | cons d ds ih =>
    cases n with
    | zero => simp [placeFrom] at h; simp [← h]
    | succ n => simp only [placeFrom, List.getElem?_cons_succ] at h ⊢; exact ih h

theorem placeFrom_length (ds : List Descriptor) (a : Nat) : (placeFrom a ds).length = ds.length := by
  induction ds generalizing a with
  | nil => rfl
  | cons d ds ih => simp [placeFrom, ih]

/-- A non-implied field of byte-group g is at or before the last of that group. -/
theorem lastInGroup_of_mem {g : Nat} {ps : List Placed} {i n : Nat} {p : Placed} (h : ps[n]? = some p)
    (hi : isImplied p.field.kind = false) (hg : byteGroup p = g) :
    ∃ j, lastInGroup g ps i = some j ∧ i + n ≤ j ∧ j < i + ps.length := by
  induction ps generalizing i n with
  | nil => simp at h
  | cons q ps ih =>
    have hrange : ∀ i j, lastInGroup g ps i = some j → i ≤ j ∧ j < i + ps.length := by
      clear ih h
      induction ps with
      | nil => intro i j h; simp [lastInGroup] at h
      | cons r ps ih =>
        intro i j h
        simp only [lastInGroup] at h
        split at h
        · next j' hj' => cases h; have := ih _ _ hj'; simp only [List.length_cons]; omega
        · split at h
          · cases h; simp
          · cases h
    simp only [lastInGroup]
    cases hl : lastInGroup g ps (i + 1) with
    | some j =>
      have := hrange _ _ hl
      refine ⟨j, rfl, ?_, by simp only [List.length_cons]; omega⟩
      cases n with
      | zero => omega
      | succ n =>
        obtain ⟨j', hj', h1, _⟩ := ih (i := i + 1) (n := n) (by simpa using h)
        rw [hl] at hj'
        cases hj'
        omega
    | none =>
      cases n with
      | zero =>
        simp only [List.getElem?_cons_zero, Option.some.injEq] at h
        subst h
        simp [hi, hg]
      | succ n =>
        obtain ⟨j', hj', _⟩ := ih (i := i + 1) (n := n) (by simpa using h)
        rw [hl] at hj'
        cases hj'

/-- In a template that passes CE_MODRM with an AddressingMode field, DispExt runs after a field at or behind which both
AddressingMode and RegisterOrMemory stand (30_encoding.md R97, 41_field_elements.md R164). -/
theorem insertionPoint_modrm {t : Template} (hm : hasMod t = true) (hc : ceModrm t = true) :
    ∃ j, insertionPoint t = some j ∧ j < t.fields.length ∧
      (∃ n d, t.fields[n]? = some d ∧ d.kind = .addressingMode ∧ n ≤ j) ∧
      ∃ n d, t.fields[n]? = some d ∧ d.kind = .registerOrMemory ∧ n ≤ j := by
  have hmem : ∀ {k : FieldKind} {p : Placed}, p ∈ ofKind k t → ∃ n : Nat, (place t)[n]? = some p ∧ p.field.kind = k := by
    intro k p hp
    simp only [ofKind, List.mem_filter, beq_iff_eq] at hp
    obtain ⟨n, hn⟩ := List.getElem?_of_mem hp.1
    exact ⟨n, hn, hp.2⟩
  have hne : ofKind .addressingMode t ≠ [] := by
    obtain ⟨d, hd, hk⟩ := List.any_eq_true.1 hm
    obtain ⟨n, hn⟩ := List.getElem?_of_mem hd
    have hlt : n < (place t).length := by
      rw [place, placeFrom_length]
      exact (List.getElem?_eq_some_iff.1 hn).1
    have hp := placeFrom_getElem? (ds := t.fields) (a := 0) (n := n) (p := (place t)[n]) (List.getElem?_eq_getElem hlt)
    rw [hn] at hp
    have : (place t)[n] ∈ ofKind .addressingMode t := by
      simp only [ofKind, List.mem_filter]
      refine ⟨List.getElem_mem hlt, ?_⟩
      have e : d = (place t)[n].field := Option.some.inj hp
      rw [← e]
      exact hk
    exact fun e => by rw [e] at this; cases this
  obtain ⟨p, ps, hps⟩ := List.exists_cons_of_ne_nil hne
  simp only [ceModrm, Bool.and_eq_true, beq_iff_eq] at hc
  obtain ⟨q, qs, hqs⟩ := List.exists_cons_of_ne_nil (l := ofKind .registerOrMemory t) (by
    intro e; rw [hps, e] at hc; simp at hc)
  have hg : byteGroup p = byteGroup q := by
    have := hc.2
    rw [hps, hqs] at this
    simp at this
    exact this.1.1
  obtain ⟨n, hn, hnk⟩ := hmem (hps ▸ List.mem_cons_self : p ∈ ofKind .addressingMode t)
  obtain ⟨m, hmn, hmk⟩ := hmem (hqs ▸ List.mem_cons_self : q ∈ ofKind .registerOrMemory t)
  obtain ⟨j, hj, h1, h2⟩ := lastInGroup_of_mem (g := byteGroup p) (i := 0) hn (by rw [hnk]; rfl) rfl
  obtain ⟨j', hj', h3, _⟩ := lastInGroup_of_mem (g := byteGroup p) (i := 0) hmn (by rw [hmk]; rfl) hg.symm
  rw [hj] at hj'
  cases hj'
  refine ⟨j, by simp only [insertionPoint, hps]; exact hj, by rw [place, placeFrom_length] at h2; omega,
    ⟨n, _, placeFrom_getElem? hn, hnk, by omega⟩, ⟨m, _, placeFrom_getElem? hmn, hmk, by omega⟩⟩

theorem minBitLength_bound (v : BitVec 8) : v.toNat < 2 ^ minBitLength v := by
  have := v.isLt
  unfold minBitLength
  split_ifs <;> omega

/-- Whether an attempt completes does not depend on the hidden registers it starts from (42_decode_engine.md R192). -/
theorem tryTemplate_isOk_any (D : Design) (inp : Input w) (pos : Offset w) (t : Template) (g h : Hidden w) :
    (tryTemplate D inp pos t g).isOk = (tryTemplate D inp pos t h).isOk := by
  rw [tryTemplate_any D inp pos t g h]
  cases tryTemplate D inp pos t h <;> rfl

/-- An attempt over an item of a valid design completes with what the item gives (R206). -/
theorem tryTemplate_encoded {D : Design} {inp : Input w} {pos : Offset w} {x : Item} (hv : validRom D = true)
    (hx : x.legal D = true) (hr : pos.toNat + x.encode.length ≤ inp.bufLen.toNat) (hb : inp.buf.holds pos.toNat x.encode)
    (h : Hidden w) : ∃ h', tryTemplate D inp pos x.template h = .ok h' ∧
      h'.cur.position = 8 * (pos.toNat + x.encode.length) ∧ h'.regs = x.code.regs ∧ h'.disp = dispValue x.disp ∧
      h'.dispLen = dispLenOf x.disp := by
  have hL := inp.bufLen.isLt
  simp only [Item.legal, Bool.and_eq_true, beq_iff_eq] at hx
  have ht : x.template ∈ D.rom := List.mem_of_getElem? hx.1
  obtain ⟨hwd, hlit, _, hgr, _, _, _, hmr, _, _⟩ := template_checks (validRom_template hv ht).1
  have hw' : ∀ d ∈ x.template.fields, ∀ n, kindWidth d.kind = some n → d.width.toNat = n := by
    intro d hd n hn
    have := List.all_eq_true.1 hwd d hd
    rw [hn] at this
    simpa using this
  have hl' : ∀ d ∈ x.template.fields, d.kind = .literal → d.value.toNat < 2 ^ d.width.toNat := by
    intro d hd hk
    have := List.all_eq_true.1 hlit d hd
    simp [hk] at this
    rw [this.2]
    exact minBitLength_bound d.value
  have hlen : x.code.bits.length % 8 = 0 := by
    have := encodeFields_length (mT := insertionPoint x.template) (values := x.values) (disp := x.disp) (i := 0)
      (f := FieldRegs.clear) hw'
    simp only [ceGroup, Bool.and_eq_true, beq_iff_eq] at hgr
    have hs : (x.template.fields.map declaredWidth).sum = declaredBits x.template := rfl
    rw [hs, hgr.1.2] at this
    exact this
  have hel : x.code.bits.length = 8 * x.encode.length := by
    rw [Item.encode, packBits_length]; omega
  have hpos : (beginAttempt pos h).cur.position = 8 * pos.toNat := by simp [beginAttempt, Cursor.position]
  have hreg : (beginAttempt pos h).regs = FieldRegs.clear := rfl
  have hcode : encodeFields (insertionPoint x.template) x.values x.disp x.template.fields 0 (beginAttempt pos h).regs = x.code := rfl
  obtain ⟨h', r1, r2, r3, r4, r5⟩ := runElements_encoded (esc := D.directAddrRm) (inp := inp) (mT := insertionPoint x.template)
    (values := x.values) (disp := x.disp) (i := 0) (h := beginAttempt pos h) hl'
    (by
      intro j hj _
      cases hm : hasMod x.template with
      | false => rw [insertionPoint_hasMod hm] at hj; cases hj
      | true =>
        obtain ⟨j', hj', _, ⟨n, d, hn, hk, hnj⟩, ⟨n', d', hn', hk', hnj'⟩⟩ := insertionPoint_modrm hm hmr
        rw [hj] at hj'
        cases hj'
        rw [hm, if_pos rfl] at hx
        exact ⟨.inr ⟨n, d, hn, hk, by omega⟩, .inr ⟨n', d', hn', hk', by omega⟩, hx.2.symm⟩)
    (by rw [hcode, hpos, hel]; omega)
    (by rw [hcode, hpos]; exact holdsBits_packBits (Nat.dvd_of_mod_eq_zero hlen) hb)
  rw [hcode, hpos, hel] at r2
  refine ⟨h', r1, ?_, r3, ?_⟩
  · rw [r2, Cursor.position_ofPosition (by omega)]; omega
  · cases hm : hasMod x.template with
    | true =>
      obtain ⟨j, hj, hlt, _⟩ := insertionPoint_modrm hm hmr
      exact r4 ⟨j, hj, by omega, by omega⟩
    | false =>
      obtain ⟨e1, e2⟩ := r5 (by rintro ⟨j, hj, _⟩; rw [insertionPoint_hasMod hm] at hj; cases hj)
      rw [hm] at hx
      have hd : x.disp = .none := by
        have := dispLenOf_eq hx.2
        cases hxd : x.disp with
        | none => rfl
        | byte lo => rw [hxd] at this; simp [dispBytes] at this
        | word v => rw [hxd] at this; simp [dispBytes] at this
      rw [hd]
      exact ⟨e1, e2⟩

/-! ### What the registers of an encoding hold (R206) -/

/-- A key no field writes is kept. -/
theorem encodeFields_get_other {mT : Option Nat} {values : FieldRegs} {disp : Disp} {k : Key} {ds : List Descriptor} {i : Nat} {f : FieldRegs}
    (h : ∀ d ∈ ds, kindKey d.kind ≠ some k) : (encodeFields mT values disp ds i f).regs.get k = f.get k ∧
    (encodeFields mT values disp ds i f).regs.has k = f.has k := by
  induction ds generalizing i f with
  | nil => exact ⟨rfl, rfl⟩
  | cons d ds ih =>
    have h1 := (encodeField_get (values := values) (f := f)).1 (h d List.mem_cons_self)
    have h2 := ih (i := i + 1) (f := (encodeField values d f).regs) (fun x hx => h x (List.mem_cons_of_mem d hx))
    simp only [encodeFields]
    exact ⟨h2.1.trans h1.1, h2.2.trans h1.2⟩

/-- A field's key holds the given value, an implied field's its constant, when no other field writes it (30_encoding.md R96). -/
theorem encodeFields_get_mem {mT : Option Nat} {values : FieldRegs} {disp : Disp} {k : Key} {ds : List Descriptor} {i : Nat} {f : FieldRegs}
    {d : Descriptor} (hd : d ∈ ds) (hk : kindKey d.kind = some k) (hu : (ds.filterMap (fun d => kindKey d.kind)).Nodup)
    (hi : isImplied d.kind = true → d.value.toNat ≤ 1) (hf : f.has k = false) :
    (isImplied d.kind = false → d.kind ≠ .dataHigh → (encodeFields mT values disp ds i f).regs.get k = values.get k ∧
      (encodeFields mT values disp ds i f).regs.has k = true) ∧
    (isImplied d.kind = true → (encodeFields mT values disp ds i f).regs.get k = d.value ∧
      (encodeFields mT values disp ds i f).regs.has k = true) ∧
    (d.kind = .dataHigh → (encodeFields mT values disp ds i f).regs.has k = true →
      (encodeFields mT values disp ds i f).regs.get k = values.get k) := by
  induction ds generalizing i f with
  | nil => cases hd
  | cons e ds ih =>
    simp only [encodeFields]
    by_cases hek : kindKey e.kind = some k
    · simp only [List.filterMap_cons, hek, List.nodup_cons, List.mem_filterMap, not_exists, not_and] at hu
      have hde : d = e := by
        rcases List.mem_cons.1 hd with h | h
        · exact h
        · exact absurd hk (hu.1 d h)
      subst hde
      have hkeep := encodeFields_get_other (mT := mT) (values := values) (disp := disp) (i := i + 1) (f := (encodeField values d f).regs)
        (fun x hx => hu.1 x hx)
      rw [hkeep.1, hkeep.2]
      refine ⟨fun h1 h2 => encodeField_get.2 hk h1 h2, fun h1 => ?_, fun h1 h2 => ?_⟩
      · have hv := hi h1
        cases hdk : d.kind <;> rw [hdk] at h1 hk <;> simp [isImplied] at h1 <;> simp [kindKey] at hk <;> subst hk <;>
          simp only [encodeField, hdk] <;>
          refine ⟨?_, FieldRegs.has_put_same _ _ _⟩ <;>
          rw [FieldRegs.get_put_same _ _ (by simp [keyWidth]; omega)] <;> exact setWidth_setWidth_self (by decide) _
      · rw [h1] at hk
        cases hk
        simp only [encodeField, h1] at h2 ⊢
        split at h2
        · next hc => rw [if_pos hc]; exact get_put_given values f .dhi
        · rw [hf] at h2; cases h2
    · have hd' : d ∈ ds := by
        rcases List.mem_cons.1 hd with h | h
        · exact absurd (h ▸ hk) hek
        · exact h
      have hu' : (ds.filterMap (fun d => kindKey d.kind)).Nodup := by
        cases hke : kindKey e.kind with
        | none => simpa [List.filterMap_cons, hke] using hu
        | some k' => rw [List.filterMap_cons, hke] at hu; exact (List.nodup_cons.1 hu).2
      exact ih hd' hu' (by rw [(encodeField_get.1 hek).2]; exact hf)

end Sys2Proof.Machine
end

