-- ==== Sys2Proof/Laws/Memory.lean ====
section
/-! SUPPORT. The laws of BUF: every operation keeps the canonical form, a read after a write gives the written byte, a
write leaves every other byte alone, and equal contents are equal data. -/

namespace Sys2Proof.Machine

theorem Memory.wfFrom_cons {size lo a : Nat} {b : Byte} {m : Memory} :
    Memory.wfFrom size lo ((a, b) :: m) = true ↔ lo ≤ a ∧ a < size ∧ b ≠ 0 ∧ Memory.wfFrom size (a + 1) m = true := by
  simp [Memory.wfFrom, and_assoc]

theorem Memory.wfFrom_mono {size lo lo' : Nat} {m : Memory} (h : Memory.wfFrom size lo m = true) (hl : lo' ≤ lo) :
    Memory.wfFrom size lo' m = true := by
  cases m with
  | nil => rfl
  | cons c m =>
    obtain ⟨a, b⟩ := c
    rw [Memory.wfFrom_cons] at h ⊢
    exact ⟨by omega, h.2⟩

/-- Below the first listed offset nothing is listed. -/
theorem Memory.read_below {size lo a : Nat} {m : Memory} (h : Memory.wfFrom size lo m = true) (ha : a < lo) : m.read a = 0 := by
  induction m generalizing lo with
  | nil => rfl
  | cons c m ih =>
    obtain ⟨a', b'⟩ := c
    rw [Memory.wfFrom_cons] at h
    rw [Memory.read, if_neg (by omega)]
    exact ih h.2.2.2 (by omega)

theorem Memory.read_cell (a a' : Nat) (b : Byte) (m : Memory) :
    Memory.read a' ((a, b) :: m) = if a' = a then b else m.read a' := rfl

/-- A cell put in front is read back, whether it is listed or not, when nothing at or below it is listed. -/
theorem Memory.read_cons_same {size a : Nat} (b : Byte) {m : Memory} (h : Memory.wfFrom size (a + 1) m = true) :
    (Memory.cons a b m).read a = b := by
  unfold Memory.cons
  split
  · next hb => rw [Memory.read_below h (by omega), hb]
  · simp [Memory.read]

theorem Memory.read_cons_other {a a' : Nat} (b : Byte) (m : Memory) (h : a' ≠ a) :
    (Memory.cons a b m).read a' = m.read a' := by
  unfold Memory.cons
  split
  · rfl
  · simp [Memory.read, h]

theorem Memory.wfFrom_consCell {size lo a : Nat} (b : Byte) {m : Memory} (hl : lo ≤ a) (ha : a < size)
    (h : Memory.wfFrom size (a + 1) m = true) : Memory.wfFrom size lo (Memory.cons a b m) = true := by
  unfold Memory.cons
  split
  · exact Memory.wfFrom_mono h (by omega)
  · next hb => exact Memory.wfFrom_cons.2 ⟨hl, ha, hb, h⟩

theorem Memory.write_wfFrom {size lo a : Nat} (b : Byte) {m : Memory} (hl : lo ≤ a) (ha : a < size)
    (h : Memory.wfFrom size lo m = true) : Memory.wfFrom size lo (m.write a b) = true := by
  induction m generalizing lo with
  | nil => exact Memory.wfFrom_consCell b hl ha rfl
  | cons c m ih =>
    obtain ⟨a', b'⟩ := c
    have h' := Memory.wfFrom_cons.1 h
    rw [Memory.write]
    split
    · exact Memory.wfFrom_consCell b hl ha (Memory.wfFrom_cons.2 ⟨by omega, h'.2⟩)
    · split
      · exact Memory.wfFrom_consCell b hl ha (by subst a; exact h'.2.2.2)
      · exact Memory.wfFrom_cons.2 ⟨h'.1, h'.2.1, h'.2.2.1, ih (by omega) h'.2.2.2⟩

/-- A write keeps the canonical form. -/
theorem Memory.write_wf {w a : Nat} (b : Byte) {m : Memory} (ha : a < Config.bufSize w) (h : m.wf w = true) :
    (m.write a b).wf w = true := Memory.write_wfFrom b (Nat.zero_le a) ha h

theorem Memory.read_write_same_from {size lo a : Nat} (b : Byte) {m : Memory} (hl : lo ≤ a)
    (h : Memory.wfFrom size lo m = true) : (m.write a b).read a = b := by
  induction m generalizing lo with
  | nil => exact Memory.read_cons_same (size := size) b rfl
  | cons c m ih =>
    obtain ⟨a', b'⟩ := c
    have h' := Memory.wfFrom_cons.1 h
    rw [Memory.write]
    split
    · exact Memory.read_cons_same b (Memory.wfFrom_cons.2 ⟨by omega, h'.2⟩)
    · split
      · exact Memory.read_cons_same b (by subst a; exact h'.2.2.2)
      · rw [Memory.read_cell, if_neg (by omega)]
        exact ih (by omega) h'.2.2.2

/-- A read after a write gives the byte written. -/
theorem Memory.read_write_same {w a : Nat} (b : Byte) {m : Memory} (h : m.wf w = true) : (m.write a b).read a = b :=
  Memory.read_write_same_from b (Nat.zero_le a) h

/-- A write leaves every other byte alone. -/
theorem Memory.read_write_other {a a' : Nat} (b : Byte) (m : Memory) (h : a' ≠ a) : (m.write a b).read a' = m.read a' := by
  induction m with
  | nil => exact Memory.read_cons_other b [] h
  | cons c m ih =>
    obtain ⟨a'', b''⟩ := c
    rw [Memory.write]
    split
    · exact Memory.read_cons_other b _ h
    · split
      · rw [Memory.read_cons_other b _ h, Memory.read_cell, if_neg (by omega)]
      · rw [Memory.read_cell, Memory.read_cell, ih]

/-- Writing a run of bytes that fits BUF keeps the canonical form. -/
theorem Memory.writeAll_wf {w : Nat} {bs : List Byte} : ∀ {a : Nat} {m : Memory}, a + bs.length ≤ Config.bufSize w →
    m.wf w = true → (Memory.writeAll a bs m).wf w = true := by
  induction bs with
  | nil => intro a m _ h; exact h
  | cons b bs ih =>
    intro a m hl h
    simp only [List.length_cons] at hl
    exact ih (by omega) (Memory.write_wf b (by omega) h)

/-- Bytes outside the run written are left alone. -/
theorem Memory.read_writeAll_other {bs : List Byte} : ∀ {a a' : Nat} {m : Memory},
    (a' < a ∨ a + bs.length ≤ a') → (Memory.writeAll a bs m).read a' = m.read a' := by
  induction bs with
  | nil => intro a a' m _; rfl
  | cons b bs ih =>
    intro a a' m h
    simp only [List.length_cons] at h
    rw [Memory.writeAll, ih (by omega), Memory.read_write_other b m (by omega)]

/-- A run of bytes written is read back. -/
theorem Memory.read_writeAll {w : Nat} {bs : List Byte} : ∀ {a k : Nat} {b : Byte} {m : Memory}, a + bs.length ≤ Config.bufSize w →
    m.wf w = true → bs[k]? = some b → (Memory.writeAll a bs m).read (a + k) = b := by
  induction bs with
  | nil => intro a k b m _ _ h; simp at h
  | cons b0 bs ih =>
    intro a k b m hl hm h
    simp only [List.length_cons] at hl
    rw [Memory.writeAll]
    cases k with
    | zero =>
      simp only [List.getElem?_cons_zero, Option.some.injEq] at h
      subst h
      rw [Nat.add_zero, Memory.read_writeAll_other (by omega), Memory.read_write_same b0 hm]
    | succ k =>
      have := ih (a := a + 1) (k := k) (b := b) (m := m.write a b0) (by omega) (Memory.write_wf b0 (by omega) hm)
        (by simpa using h)
      rwa [show a + (k + 1) = a + 1 + k by omega]

/-- BUF built from any cells is in canonical form. -/
theorem Memory.ofCells_wf (w : Nat) (cells : List Host.Cell) : (Memory.ofCells (Config.bufSize w) cells).wf w = true := by
  induction cells with
  | nil => rfl
  | cons c cells ih =>
    obtain ⟨a, b⟩ := c
    rw [Memory.ofCells]
    split
    · next h => exact Memory.write_wf b h ih
    · exact ih

/-- BUF built from cells reads the first cell for an offset it has, and an unlisted byte elsewhere. -/
theorem Memory.read_ofCells {w : Nat} (cells : List Host.Cell) {a : Nat} (ha : a < Config.bufSize w) :
    (Memory.ofCells (Config.bufSize w) cells).read a = ((cells.find? (fun c => c.1 == a)).map Prod.snd).getD 0 := by
  induction cells with
  | nil => rfl
  | cons c cells ih =>
    obtain ⟨a', b⟩ := c
    rw [Memory.ofCells, List.find?_cons]
    by_cases h : a' = a
    · subst h
      simp [ha, Memory.read_write_same b (Memory.ofCells_wf w cells)]
    · rw [show (a' == a) = false by simpa using h]
      simp only
      rw [← ih]
      split
      · rw [Memory.read_write_other b _ (Ne.symm h)]
      · rfl

/-- Equal contents in canonical form are equal data. -/
theorem Memory.eq_of_read {size lo : Nat} {m m' : Memory} (h : Memory.wfFrom size lo m = true) (h' : Memory.wfFrom size lo m' = true)
    (hr : ∀ a, m.read a = m'.read a) : m = m' := by
  induction m generalizing lo m' with
  | nil =>
    cases m' with
    | nil => rfl
    | cons c m' =>
      obtain ⟨a, b⟩ := c
      have := hr a
      rw [Memory.read_cell, if_pos rfl] at this
      exact absurd this.symm (Memory.wfFrom_cons.1 h').2.2.1
  | cons c m ih =>
    obtain ⟨a, b⟩ := c
    obtain ⟨h1, h2, h3, h4⟩ := Memory.wfFrom_cons.1 h
    have ha := hr a
    rw [Memory.read_cell, if_pos rfl] at ha
    cases m' with
    | nil => exact absurd ha h3
    | cons c' m' =>
      obtain ⟨a', b'⟩ := c'
      obtain ⟨h1', h2', h3', h4'⟩ := Memory.wfFrom_cons.1 h'
      have ha' := hr a'
      rw [Memory.read_cell a' a' b', if_pos rfl] at ha'
      have haa : a = a' := by
        rcases Nat.lt_trichotomy a a' with hlt | heq | hgt
        · rw [Memory.read_cell, if_neg (by omega), Memory.read_below h4' (by omega)] at ha
          exact absurd ha h3
        · exact heq
        · rw [Memory.read_cell, if_neg (by omega), Memory.read_below h4 (by omega)] at ha'
          exact absurd ha'.symm h3'
      subst haa
      rw [Memory.read_cell, if_pos rfl] at ha
      have : m = m' := ih h4 h4' (fun x => by
        have hx := hr x
        rw [Memory.read_cell, Memory.read_cell] at hx
        by_cases hxa : x = a
        · subst hxa
          rw [Memory.read_below h4 (by omega), Memory.read_below h4' (by omega)]
        · simpa [hxa] using hx)
      rw [ha, this]

end Sys2Proof.Machine
end

