-- ==== Sys2Proof/Laws/Templates.lean ====
section
/-! SUPPORT. The two templates of the default ROM (43_templates.md R230 to R232): what an attempt of each does over the bytes
at POS, and how the engine on that ROM follows the decoder. -/

namespace Sys2Proof.Machine

variable {w : Nat}

theorem insertionPoint_mov : insertionPoint movTemplate = some 4 := by decide
theorem insertionPoint_push : insertionPoint pushTemplate = some 3 := by decide

theorem beginAttempt_cur_at (pos : Offset w) (h : Hidden w) :
    (beginAttempt pos h).cur = Cursor.ofPosition (8 * pos.toNat) := cursor_at pos

section mov
variable {D : Design} {inp : Input w} {pos : Offset w} (h : Hidden w)

theorem mov_attempt_empty (h0 : inp.bufLen.toNat ≤ pos.toNat) :
    ∃ g, tryTemplate D inp pos movTemplate h = .fail .eoi g :=
  ⟨_, runElements_fail (literalElement_past (beginAttempt_cur_at pos h) (by decide) h0 pos.isLt)⟩

theorem mov_attempt_mismatch (h0 : pos.toNat < inp.bufLen.toNat) (hm : isMovByte (inp.buf.read pos.toNat) = false) :
    ∃ g, tryTemplate D inp pos movTemplate h = .fail .mismatch g := by
  have hl := literalElement_inside (n := 7) (x := 0b1100011) (k := 0) (beginAttempt_cur_at pos h) (by decide) h0
  rw [if_neg] at hl
  · exact ⟨_, runElements_fail hl⟩
  · intro e
    have : (inp.buf.read pos.toNat).extractLsb' 1 7 = 0b1100011#7 := setWidth16_inj (by decide) e
    simp [isMovByte, this] at hm

/-- A MOV attempt over a MOV opcode byte runs up to its ModRM byte. -/
theorem mov_attempt_opcode (h0 : pos.toNat < inp.bufLen.toNat) (hm : isMovByte (inp.buf.read pos.toNat) = true) :
    tryTemplate D inp pos movTemplate h =
      runElements D.directAddrRm inp (some 4)
        [⟨.addressingMode, 2, 6, 0⟩, ⟨.register, 3, 3, 0⟩, ⟨.registerOrMemory, 3, 0, 0⟩] 2
        { beginAttempt pos h with
          cur := Cursor.ofPosition (8 * (pos.toNat + 1))
          regs := FieldRegs.clear.put .w (((inp.buf.read pos.toNat).extractLsb' 0 1).setWidth 16) } := by
  have hl := literalElement_inside (n := 7) (x := 0b1100011) (k := 0) (beginAttempt_cur_at pos h) (by decide) h0
  have hm' : (inp.buf.read pos.toNat).extractLsb' 1 7 = 0b1100011#7 := by simpa [isMovByte] using hm
  rw [if_pos (by simpa using congrArg (BitVec.setWidth 16) hm'), ← element_literal inp 7 1] at hl
  unfold tryTemplate
  rw [insertionPoint_mov]
  unfold movTemplate
  rw [runElements_ok hl (by decide), runElements_ok (element_inside (n := 1) (k := 7) rfl rfl (by decide) rfl (by decide) h0)
    (by decide)]
  rfl

theorem mov_attempt_noModrm (h0 : pos.toNat < inp.bufLen.toNat) (hm : isMovByte (inp.buf.read pos.toNat) = true)
    (h1 : inp.bufLen.toNat ≤ pos.toNat + 1) : ∃ g, tryTemplate D inp pos movTemplate h = .fail .eoi g := by
  have hl := inp.bufLen.isLt
  rw [mov_attempt_opcode h h0 hm]
  exact ⟨_, runElements_fail (element_past (n := 2) rfl rfl (by decide) rfl (by decide) h1 (by omega))⟩

/-- With its ModRM byte there, a MOV attempt ends as its displacement does. -/
theorem mov_attempt_modrm (h0 : pos.toNat < inp.bufLen.toNat) (hm : isMovByte (inp.buf.read pos.toNat) = true)
    (h1 : pos.toNat + 1 < inp.bufLen.toNat) :
    tryTemplate D inp pos movTemplate h =
      dispExt D.directAddrRm inp
        { beginAttempt pos h with
          cur := Cursor.ofPosition (8 * (pos.toNat + 2))
          regs := movRegs ((inp.buf.read pos.toNat).extractLsb' 0 1) ((inp.buf.read (pos.toNat + 1)).extractLsb' 6 2)
            ((inp.buf.read (pos.toNat + 1)).extractLsb' 3 3) ((inp.buf.read (pos.toNat + 1)).extractLsb' 0 3) } := by
  rw [mov_attempt_opcode h h0 hm,
    runElements_ok (element_inside (n := 2) (k := 0) rfl rfl (by decide) rfl (by decide) h1) (by decide),
    runElements_ok (element_inside (n := 3) (k := 2) rfl rfl (by decide) rfl (by decide) h1) (by decide),
    runElements_disp (element_inside (n := 3) (k := 5) rfl rfl (by decide) rfl (by decide) h1) rfl]
  generalize inp.buf.read pos.toNat = b0
  generalize inp.buf.read (pos.toNat + 1) = b1
  have hr : (((FieldRegs.clear.put .w ((b0.extractLsb' 0 1).setWidth 16)).put .mod ((b1.extractLsb' 6 2).setWidth 16)).put
      .reg ((b1.extractLsb' 3 3).setWidth 16)).put .rm ((b1.extractLsb' 0 3).setWidth 16) =
      movRegs (b0.extractLsb' 0 1) (b1.extractLsb' 6 2) (b1.extractLsb' 3 3) (b1.extractLsb' 0 3) := by
    simp only [FieldRegs.put, movRegs, FieldRegs.clear, FieldRegs.mk.injEq, true_and, markPresent, keyIndex]
    refine ⟨?_, ?_, ?_, ?_, by decide⟩ <;> exact setWidth_setWidth_self (by decide) _
  exact (congrArg (fun g => match dispExt D.directAddrRm inp
      { beginAttempt pos h with cur := Cursor.ofPosition (8 * (pos.toNat + 2)), regs := g } with
    | .fail e h2 => Attempt.fail e h2
    | .ok h2 => Attempt.ok h2) hr).trans (attempt_eta _)

end mov

section push
variable {D : Design} {inp : Input w} {pos : Offset w} (h : Hidden w)

theorem push_attempt_empty (h0 : inp.bufLen.toNat ≤ pos.toNat) :
    ∃ g, tryTemplate D inp pos pushTemplate h = .fail .eoi g :=
  ⟨_, runElements_fail (literalElement_past (beginAttempt_cur_at pos h) (by decide) h0 pos.isLt)⟩

theorem push_attempt_mismatch (h0 : pos.toNat < inp.bufLen.toNat) (hm : isPushByte (inp.buf.read pos.toNat) = false) :
    ∃ g, tryTemplate D inp pos pushTemplate h = .fail .mismatch g := by
  have hl := literalElement_inside (n := 8) (x := 0xFF) (k := 0) (beginAttempt_cur_at pos h) (by decide) h0
  rw [if_neg] at hl
  · exact ⟨_, runElements_fail hl⟩
  · intro e
    have : (inp.buf.read pos.toNat).extractLsb' 0 8 = 0xFF#8 := setWidth16_inj (by decide) e
    simp [isPushByte] at hm this
    exact hm this

/-- A PUSH attempt over a PUSH opcode byte runs up to its ModRM byte. -/
theorem push_attempt_opcode (h0 : pos.toNat < inp.bufLen.toNat) (hm : isPushByte (inp.buf.read pos.toNat) = true) :
    tryTemplate D inp pos pushTemplate h =
      runElements D.directAddrRm inp (some 3)
        [⟨.addressingMode, 2, 6, 0⟩, ⟨.literal, 3, 3, 0b110⟩, ⟨.registerOrMemory, 3, 0, 0⟩, ⟨.impliedWidth, 0, 0, 1⟩,
          ⟨.impliedDirection, 0, 0, 1⟩] 1
        { beginAttempt pos h with cur := Cursor.ofPosition (8 * (pos.toNat + 1)) } := by
  have hl := literalElement_inside (n := 8) (x := 0xFF) (k := 0) (beginAttempt_cur_at pos h) (by decide) h0
  have hm' : (inp.buf.read pos.toNat).extractLsb' 0 8 = 0xFF#8 := by simpa [isPushByte] using hm
  rw [if_pos (by simpa using congrArg (BitVec.setWidth 16) hm'), ← element_literal inp 8 0] at hl
  unfold tryTemplate
  rw [insertionPoint_push]
  unfold pushTemplate
  rw [runElements_ok hl (by decide)]
  rfl

theorem push_attempt_noModrm (h0 : pos.toNat < inp.bufLen.toNat) (hm : isPushByte (inp.buf.read pos.toNat) = true)
    (h1 : inp.bufLen.toNat ≤ pos.toNat + 1) : ∃ g, tryTemplate D inp pos pushTemplate h = .fail .eoi g := by
  have hl := inp.bufLen.isLt
  rw [push_attempt_opcode h h0 hm]
  exact ⟨_, runElements_fail (element_past (n := 2) rfl rfl (by decide) rfl (by decide) h1 (by omega))⟩

theorem push_attempt_subfield (h0 : pos.toNat < inp.bufLen.toNat) (hm : isPushByte (inp.buf.read pos.toNat) = true)
    (h1 : pos.toNat + 1 < inp.bufLen.toNat) (hs : (inp.buf.read (pos.toNat + 1)).extractLsb' 3 3 ≠ 0b110#3) :
    ∃ g, tryTemplate D inp pos pushTemplate h = .fail .mismatch g := by
  have hlit : ∀ g : Hidden w, g.cur = Cursor.ofPosition (8 * (pos.toNat + 1) + 2) →
      element inp ⟨.literal, 3, 3, 0b110⟩ g =
        .fail .mismatch { g with cur := Cursor.ofPosition (8 * (pos.toNat + 1) + 5) } := by
    intro g hg
    rw [element_literal, literalElement_inside (k := 2) hg (by decide) h1, if_neg]
    · rfl
    · exact fun e => hs (setWidth16_inj (by decide) e)
  rw [push_attempt_opcode h h0 hm,
    runElements_ok (element_inside (n := 2) (k := 0) rfl rfl (by decide) rfl (by decide) h1) (by decide)]
  exact ⟨_, runElements_fail (hlit _ rfl)⟩

/-- The resolved fields of a PUSH before its implied fields. -/
theorem push_regs (mod : BitVec 2) (rm : BitVec 3) :
    (((FieldRegs.clear.put .mod (mod.setWidth 16)).put .rm (rm.setWidth 16)).put .w ((1#8).setWidth 16)).put .d
      ((1#8).setWidth 16) = pushRegs mod rm := by
  simp only [FieldRegs.put, pushRegs, FieldRegs.clear, FieldRegs.mk.injEq, true_and, markPresent, keyIndex]
  refine ⟨by decide, by decide, ?_, ?_, by decide⟩ <;> exact setWidth_setWidth_self (by decide) _

/-- With its ModRM byte there, a PUSH attempt ends as its displacement does, the implied fields after it. -/
theorem push_attempt_modrm (h0 : pos.toNat < inp.bufLen.toNat) (hm : isPushByte (inp.buf.read pos.toNat) = true)
    (h1 : pos.toNat + 1 < inp.bufLen.toNat) (hs : (inp.buf.read (pos.toNat + 1)).extractLsb' 3 3 = 0b110#3) :
    tryTemplate D inp pos pushTemplate h =
      match dispExt D.directAddrRm inp
        { beginAttempt pos h with
          cur := Cursor.ofPosition (8 * (pos.toNat + 2))
          regs := (FieldRegs.clear.put .mod (((inp.buf.read (pos.toNat + 1)).extractLsb' 6 2).setWidth 16)).put .rm
            (((inp.buf.read (pos.toNat + 1)).extractLsb' 0 3).setWidth 16) } with
      | .fail e g => .fail e g
      | .ok g => .ok { g with regs := (g.regs.put .w ((1#8).setWidth 16)).put .d ((1#8).setWidth 16) } := by
  have hlit : ∀ g : Hidden w, g.cur = Cursor.ofPosition (8 * (pos.toNat + 1) + 2) →
      element inp ⟨.literal, 3, 3, 0b110⟩ g = .ok { g with cur := Cursor.ofPosition (8 * (pos.toNat + 1) + 5) } := by
    intro g hg
    rw [element_literal, literalElement_inside (k := 2) hg (by decide) h1, if_pos]
    · rfl
    · change ((inp.buf.read (pos.toNat + 1)).extractLsb' 3 3).setWidth 16 = _
      rw [hs]
      rfl
  rw [push_attempt_opcode h h0 hm,
    runElements_ok (element_inside (n := 2) (k := 0) rfl rfl (by decide) rfl (by decide) h1) (by decide),
    runElements_ok (hlit _ rfl) (by decide),
    runElements_disp (element_inside (n := 3) (k := 5) rfl rfl (by decide) rfl (by decide) h1) rfl]
  rfl

end push

theorem FieldRegs.mod_put_put (x : BitVec 2) (y : BitVec 3) :
    ((FieldRegs.clear.put .mod (x.setWidth 16)).put .rm (y.setWidth 16)).mod = x := setWidth_setWidth_self (by decide) x

theorem FieldRegs.rm_put (f : FieldRegs) (y : BitVec 3) : (f.put .rm (y.setWidth 16)).rm = y :=
  setWidth_setWidth_self (by decide) y

theorem consumed_at (pos : Offset w) {n : Nat} (h : pos.toNat + n < 2 ^ w) :
    (Cursor.ofPosition (8 * (pos.toNat + n)) : Cursor w).position - 8 * pos.toNat = 8 * n := by
  rw [Cursor.position_ofPosition (by omega)]
  omega

/-- The hidden state a completed attempt ends with. -/
def attemptEnd (pos : Offset w) (regs : FieldRegs) (d : Disp) (h : Hidden w) : Hidden w :=
  { h with
    cur := Cursor.ofPosition (8 * (pos.toNat + 2 + dispBytes d))
    regs := regs
    disp := dispValue d
    dispLen := dispLenOf d }

section decoded
variable {D : Design} {inp : Input w} {pos : Offset w} (h : Hidden w) {d : Disp} {rest : List Byte}

theorem mov_attempt_ok (h0 : pos.toNat < inp.bufLen.toNat) (hm : isMovByte (inp.buf.read pos.toNat) = true)
    (h1 : pos.toNat + 1 < inp.bufLen.toNat)
    (hd : takeDisp (dispLen D.directAddrRm ((inp.buf.read (pos.toNat + 1)).extractLsb' 6 2)
      ((inp.buf.read (pos.toNat + 1)).extractLsb' 0 3)) (fetchFrom inp (pos.toNat + 1 + 1) 2) = some (d, rest)) :
    tryTemplate D inp pos movTemplate h = .ok (attemptEnd pos
      (movRegs ((inp.buf.read pos.toNat).extractLsb' 0 1) ((inp.buf.read (pos.toNat + 1)).extractLsb' 6 2)
        ((inp.buf.read (pos.toNat + 1)).extractLsb' 3 3) ((inp.buf.read (pos.toNat + 1)).extractLsb' 0 3)) d h) := by
  have hl := inp.bufLen.isLt
  rw [mov_attempt_modrm h h0 hm h1, dispExt_of_take (n := 0) rfl (by omega) rfl rfl hd]
  rfl

theorem mov_attempt_truncated (h0 : pos.toNat < inp.bufLen.toNat) (hm : isMovByte (inp.buf.read pos.toNat) = true)
    (h1 : pos.toNat + 1 < inp.bufLen.toNat)
    (hd : takeDisp (dispLen D.directAddrRm ((inp.buf.read (pos.toNat + 1)).extractLsb' 6 2)
      ((inp.buf.read (pos.toNat + 1)).extractLsb' 0 3)) (fetchFrom inp (pos.toNat + 1 + 1) 2) = none) :
    ∃ g, tryTemplate D inp pos movTemplate h = .fail .eoi g := by
  have hl := inp.bufLen.isLt
  rw [mov_attempt_modrm h h0 hm h1]
  exact dispExt_of_truncated (n := 0) rfl (by omega) rfl rfl hd

theorem push_attempt_ok (h0 : pos.toNat < inp.bufLen.toNat) (hm : isPushByte (inp.buf.read pos.toNat) = true)
    (h1 : pos.toNat + 1 < inp.bufLen.toNat) (hs : (inp.buf.read (pos.toNat + 1)).extractLsb' 3 3 = 0b110#3)
    (hd : takeDisp (dispLen D.directAddrRm ((inp.buf.read (pos.toNat + 1)).extractLsb' 6 2)
      ((inp.buf.read (pos.toNat + 1)).extractLsb' 0 3)) (fetchFrom inp (pos.toNat + 1 + 1) 2) = some (d, rest)) :
    tryTemplate D inp pos pushTemplate h = .ok (attemptEnd pos
      (pushRegs ((inp.buf.read (pos.toNat + 1)).extractLsb' 6 2) ((inp.buf.read (pos.toNat + 1)).extractLsb' 0 3)) d h) := by
  have hl := inp.bufLen.isLt
  rw [push_attempt_modrm h h0 hm h1 hs, dispExt_of_take (n := 0) (b := pos.toNat + 2) (d := d) (rest := rest) rfl (by omega)
    (FieldRegs.mod_put_put _ _) (FieldRegs.rm_put _ _) hd]
  simp only
  rw [push_regs]
  rfl

theorem push_attempt_truncated (h0 : pos.toNat < inp.bufLen.toNat) (hm : isPushByte (inp.buf.read pos.toNat) = true)
    (h1 : pos.toNat + 1 < inp.bufLen.toNat) (hs : (inp.buf.read (pos.toNat + 1)).extractLsb' 3 3 = 0b110#3)
    (hd : takeDisp (dispLen D.directAddrRm ((inp.buf.read (pos.toNat + 1)).extractLsb' 6 2)
      ((inp.buf.read (pos.toNat + 1)).extractLsb' 0 3)) (fetchFrom inp (pos.toNat + 1 + 1) 2) = none) :
    ∃ g, tryTemplate D inp pos pushTemplate h = .fail .eoi g := by
  have hl := inp.bufLen.isLt
  rw [push_attempt_modrm h h0 hm h1 hs]
  obtain ⟨g, hg⟩ := dispExt_of_truncated (h := { beginAttempt pos h with
    cur := Cursor.ofPosition (8 * (pos.toNat + 2))
    regs := (FieldRegs.clear.put .mod (((inp.buf.read (pos.toNat + 1)).extractLsb' 6 2).setWidth 16)).put .rm
      (((inp.buf.read (pos.toNat + 1)).extractLsb' 0 3).setWidth 16) }) (n := 0) (b := pos.toNat + 2) rfl (by omega)
    (FieldRegs.mod_put_put _ _) (FieldRegs.rm_put _ _) hd
  exact ⟨g, by rw [hg]⟩

end decoded

/-- A completed attempt of the default ROM commits what exec of its instruction does. -/
theorem commit_attemptEnd {s : State} {h : Hidden} {regs : FieldRegs} {d : Disp} {ti : BitVec 4} (tag : BitVec 8)
    (hf : s.pos.toNat + 2 + dispBytes d ≤ s.bufLen.toNat) (hti : h.ti = ti) (he : h.eoiAcc = false) :
    commit tag (consumedBits s.pos (attemptEnd s.pos regs d h)) { s with hidden := attemptEnd s.pos regs d h } =
      commit tag (8 * (2 + dispBytes d)) (attemptDone ti regs d s) := by
  have hl := s.bufLen.isLt
  have hc : consumedBits s.pos (attemptEnd s.pos regs d h) = 8 * (2 + dispBytes d) := by
    rw [consumedBits, attemptEnd, Nat.add_assoc]
    exact consumed_at s.pos (by omega)
  have hs : ({ s with hidden := attemptEnd s.pos regs d h } : State) = attemptDone ti regs d s := by
    simp only [attemptEnd, attemptDone, hti, he]
  rw [hc, hs]

theorem defaultDesign_rom : defaultDesign.rom = [movTemplate, pushTemplate] := rfl

/-- The engine on the default ROM, where the decoder finds an instruction: PositionStep is exec of it. -/
theorem positionStep_of_decode {s : State} {i : Instr} {rest : List Byte} (h : decode s.fetchBytes = .ok i rest) :
    positionStep defaultDesign s = exec i s := by
  rw [fetchBytes_eq] at h
  have hl := s.input.bufLen.isLt
  have h0 : s.pos.toNat < s.input.bufLen.toNat := by
    by_contra h0
    rw [fetchFrom_past _ (Nat.le_of_not_lt h0)] at h
    cases h
  rw [fetchFrom_in _ h0] at h
  have h1 : s.pos.toNat + 1 < s.input.bufLen.toNat := by
    by_contra h1
    rw [fetchFrom_past _ (Nat.le_of_not_lt h1)] at h
    unfold decode at h
    simp only at h
    split at h <;> cases h
  rw [fetchFrom_in _ h1, decode_two] at h
  unfold positionStep attempts
  rw [defaultDesign_rom]
  by_cases hm : isMovByte (s.input.buf.read s.pos.toNat) = true
  · rw [if_pos hm, withDisp_ok] at h
    obtain ⟨d, hd, rfl⟩ := h
    rw [tryAll_ok (mov_attempt_ok (D := defaultDesign) _ h0 hm h1 hd)]
    exact commit_attemptEnd _ (takeDisp_fits (by omega) hd) rfl rfl
  · rw [if_neg hm] at h
    by_cases hp : isPushByte (s.input.buf.read s.pos.toNat) = true
    · rw [if_pos hp] at h
      by_cases hs : (s.input.buf.read (s.pos.toNat + 1)).extractLsb' 3 3 = 0b110#3
      · rw [if_pos (by simpa using hs), withDisp_ok] at h
        obtain ⟨d, hd, rfl⟩ := h
        obtain ⟨g, hg⟩ := mov_attempt_mismatch (D := defaultDesign)
          { { s.hidden with eoiAcc := false } with ti := BitVec.ofNat 4 0 } h0 (by simpa using hm)
        have hfr := tryTemplate_frame defaultDesign s.input s.pos movTemplate
          { { s.hidden with eoiAcc := false } with ti := BitVec.ofNat 4 0 }
        rw [hg] at hfr
        rw [tryAll_mismatch hg, tryAll_ok (push_attempt_ok (D := defaultDesign) _ h0 hp h1 hs hd)]
        exact commit_attemptEnd _ (takeDisp_fits (by omega) hd) rfl hfr.2
      · rw [if_neg (by simpa using hs)] at h
        cases h
    · rw [if_neg hp] at h
      cases h

/-- Where the decoder finds none, every attempt fails, and EOI_ACC says whether one ran out of input. -/
theorem attempts_of_reject {s : State} {r : Reject} (h : decode s.fetchBytes = .reject r) :
    (attempts defaultDesign s).2 = none ∧ (attempts defaultDesign s).1.eoiAcc = decide (r = .endOfInput) := by
  rw [fetchBytes_eq] at h
  have hl := s.input.bufLen.isLt
  -- the four ways the two attempts can fail
  have key : ∀ e1 e2 : AttemptFail,
      (∃ g, tryTemplate defaultDesign s.input s.pos movTemplate
        { { s.hidden with eoiAcc := false } with ti := BitVec.ofNat 4 0 } = .fail e1 g) →
      (∀ k, ∃ g, tryTemplate defaultDesign s.input s.pos pushTemplate k = .fail e2 g) →
      (attempts defaultDesign s).2 = none ∧
        (attempts defaultDesign s).1.eoiAcc = decide (e1 = .eoi ∨ e2 = .eoi) := by
    rintro e1 e2 ⟨g1, hg1⟩ hp
    have hf1 := tryTemplate_frame defaultDesign s.input s.pos movTemplate
      { { s.hidden with eoiAcc := false } with ti := BitVec.ofNat 4 0 }
    rw [hg1] at hf1
    unfold attempts
    rw [defaultDesign_rom]
    cases e1 with
    | mismatch =>
      rw [tryAll_mismatch hg1]
      obtain ⟨g2, hg2⟩ := hp { g1 with ti := BitVec.ofNat 4 (0 + 1) }
      have hf2 := tryTemplate_frame defaultDesign s.input s.pos pushTemplate { g1 with ti := BitVec.ofNat 4 (0 + 1) }
      rw [hg2] at hf2
      cases e2 with
      | mismatch =>
        rw [tryAll_mismatch hg2]
        exact ⟨rfl, hf2.2.trans hf1.2⟩
      | eoi =>
        rw [tryAll_eoi hg2]
        exact ⟨rfl, rfl⟩
    | eoi =>
      rw [tryAll_eoi hg1]
      obtain ⟨g2, hg2⟩ := hp { { g1 with eoiAcc := true } with ti := BitVec.ofNat 4 (0 + 1) }
      have hf2 := tryTemplate_frame defaultDesign s.input s.pos pushTemplate
        { { g1 with eoiAcc := true } with ti := BitVec.ofNat 4 (0 + 1) }
      rw [hg2] at hf2
      cases e2 with
      | mismatch =>
        rw [tryAll_mismatch hg2]
        exact ⟨rfl, hf2.2⟩
      | eoi =>
        rw [tryAll_eoi hg2]
        exact ⟨rfl, rfl⟩
  by_cases h0 : s.pos.toNat < s.input.bufLen.toNat
  swap
  · rw [fetchFrom_past _ (Nat.le_of_not_lt h0)] at h
    cases h
    exact key .eoi .eoi (mov_attempt_empty _ (Nat.le_of_not_lt h0)) (fun k => push_attempt_empty k (Nat.le_of_not_lt h0))
  rw [fetchFrom_in _ h0] at h
  by_cases hm : isMovByte (s.input.buf.read s.pos.toNat) = true
  · have hnp := isMovByte_not_push hm
    have hr : r = .endOfInput ∧ ∃ g, tryTemplate defaultDesign s.input s.pos movTemplate
        { { s.hidden with eoiAcc := false } with ti := BitVec.ofNat 4 0 } = .fail .eoi g := by
      by_cases h1 : s.pos.toNat + 1 < s.input.bufLen.toNat
      · rw [fetchFrom_in _ h1, decode_two, if_pos hm, withDisp_reject] at h
        exact ⟨h.2, mov_attempt_truncated _ h0 hm h1 h.1⟩
      · rw [fetchFrom_past _ (Nat.le_of_not_lt h1)] at h
        simp only [decode, hm, Bool.true_or, if_true, Decoded.reject.injEq] at h
        exact ⟨h.symm, mov_attempt_noModrm _ h0 hm (Nat.le_of_not_lt h1)⟩
    rw [hr.1]
    exact key .eoi .mismatch hr.2 (fun k => push_attempt_mismatch k h0 hnp)
  · have hmm := mov_attempt_mismatch (D := defaultDesign)
      { { s.hidden with eoiAcc := false } with ti := BitVec.ofNat 4 0 } h0 (by simpa using hm)
    by_cases hp : isPushByte (s.input.buf.read s.pos.toNat) = true
    · by_cases h1 : s.pos.toNat + 1 < s.input.bufLen.toNat
      · rw [fetchFrom_in _ h1, decode_two, if_neg hm, if_pos hp] at h
        by_cases hs : (s.input.buf.read (s.pos.toNat + 1)).extractLsb' 3 3 = 0b110#3
        · rw [if_pos (by simpa using hs), withDisp_reject] at h
          rw [h.2]
          exact key .mismatch .eoi hmm (fun k => push_attempt_truncated k h0 hp h1 hs h.1)
        · rw [if_neg (by simpa using hs)] at h
          cases h
          exact key .mismatch .mismatch hmm (fun k => push_attempt_subfield k h0 hp h1 hs)
      · rw [fetchFrom_past _ (Nat.le_of_not_lt h1)] at h
        simp only [decode, hp, Bool.or_true, if_true, Decoded.reject.injEq] at h
        rw [← h]
        exact key .mismatch .eoi hmm (fun k => push_attempt_noModrm k h0 hp (Nat.le_of_not_lt h1))
    · have hr : r = .noMatch := by
        by_cases h1 : s.pos.toNat + 1 < s.input.bufLen.toNat
        · rw [fetchFrom_in _ h1, decode_two, if_neg hm, if_neg hp] at h
          cases h; rfl
        · rw [fetchFrom_past _ (Nat.le_of_not_lt h1)] at h
          simp only [decode, hm, hp, Bool.or_self, Bool.false_eq_true, if_false, Decoded.reject.injEq] at h
          exact h.symm
      rw [hr]
      exact key .mismatch .mismatch hmm (fun k => push_attempt_mismatch k h0 (by simpa using hp))

end Sys2Proof.Machine
end

