-- ==== Sys2Proof/Laws/Invariant.lean ====
section
/-! SUPPORT. The parts of the invariant (Safety.lean): the chain of records, and the records of the two instructions. -/

namespace Sys2Proof.Machine

theorem chainedTo_append {p : Nat} {l : List Record} {r : Record} (h : chainedTo p l = true) (hr : r.offset.toNat = p) :
    chainedTo (p + r.byteLength.toNat) (l ++ [r]) = true := by
  induction l with
  | nil => simp [chainedTo, hr]
  | cons a l ih =>
    cases l with
    | nil =>
      simp only [chainedTo, beq_iff_eq] at h
      simp [chainedTo, h, hr]
    | cons b l =>
      simp only [chainedTo, Bool.and_eq_true] at h
      have := ih h.2
      simp only [List.cons_append] at this ⊢
      simp only [chainedTo, Bool.and_eq_true]
      exact ⟨h.1, this⟩

theorem chainedTo_tail {p : Nat} {a : Record} {l : List Record} (h : chainedTo p (a :: l) = true) : chainedTo p l = true := by
  cases l with
  | nil => rfl
  | cons b l => simp only [chainedTo, Bool.and_eq_true] at h; exact h.2

theorem movRegs_absentZero (w : BitVec 1) (mod : BitVec 2) (reg rm : BitVec 3) : (movRegs w mod reg rm).absentZero = true := by
  rw [FieldRegs.absentZero_iff]
  intro k
  have hp : (movRegs w mod reg rm).present = 0b0011100010#10 := rfl
  cases k <;> first | exact .inl (by rw [FieldRegs.has, hp]; decide) | exact .inr rfl

theorem pushRegs_absentZero (mod : BitVec 2) (rm : BitVec 3) : (pushRegs mod rm).absentZero = true := by
  rw [FieldRegs.absentZero_iff]
  intro k
  have hp : (pushRegs mod rm).present = 0b0010100011#10 := rfl
  cases k <;> first | exact .inl (by rw [FieldRegs.has, hp]; decide) | exact .inr rfl

theorem fits_iff {mod : BitVec 2} {rm : BitVec 3} {d : Disp} : d.fits mod rm = true ↔ dispLenOf d = dispLen directAddrRm mod rm := by
  simp [Disp.fits]

theorem disp_facts (d : Disp) : BitVec.ofNat 4 (2 + dispBytes d) = 2 + (dispLenOf d).setWidth 4 ∧
    (dispLenOf d ≠ 0 ∨ dispValue d = 0) ∧ (dispLenOf d ≠ 1 ∨ (dispValue d).toNat < 256) := by
  cases d with
  | none => exact ⟨rfl, .inr rfl, .inl (by decide)⟩
  | byte lo => exact ⟨rfl, .inl (by simp [dispLenOf, dispBytes]), .inr (by simp [dispValue]; omega)⟩
  | word v => exact ⟨rfl, .inl (by simp [dispLenOf, dispBytes]), .inl (by simp [dispLenOf, dispBytes])⟩

theorem mov_record_legal (s : State) (w : BitVec 1) (mod : BitVec 2) (reg rm : BitVec 3) (d : Disp) (h : d.fits mod rm = true) :
    (recordOf tagMov (2 + dispBytes d) (attemptDone 0 (movRegs w mod reg rm) d s)).legal = true := by
  obtain ⟨h1, h2, h3⟩ := disp_facts d
  have hz := movRegs_absentZero w mod reg rm
  rw [fits_iff] at h
  simp only [Record.legal, recordOf, attemptDone, hz, h1, Bool.and_eq_true, Bool.or_eq_true, bne_iff_ne, beq_iff_eq,
    decide_eq_true_eq]
  exact ⟨⟨⟨⟨⟨.inl ⟨⟨trivial, trivial⟩, rfl⟩, trivial⟩, h⟩, trivial⟩, h2⟩, h3⟩

theorem push_record_legal (s : State) (mod : BitVec 2) (rm : BitVec 3) (d : Disp) (h : d.fits mod rm = true) :
    (recordOf tagPush (2 + dispBytes d) (attemptDone 1 (pushRegs mod rm) d s)).legal = true := by
  obtain ⟨h1, h2, h3⟩ := disp_facts d
  have hz := pushRegs_absentZero mod rm
  rw [fits_iff] at h
  simp only [Record.legal, recordOf, attemptDone, hz, h1, Bool.and_eq_true, Bool.or_eq_true, bne_iff_ne, beq_iff_eq,
    decide_eq_true_eq]
  exact ⟨⟨⟨⟨⟨.inr ⟨⟨⟨⟨trivial, trivial⟩, rfl⟩, rfl⟩, rfl⟩, trivial⟩, h⟩, trivial⟩, h2⟩, h3⟩

/-- One Commit of the default ROM, with a legal record, keeps the invariant. -/
theorem inv_committed {s : State} {ti : BitVec 4} {regs : FieldRegs} {d : Disp} {tag : BitVec 8} (hs : s.Inv)
    (hrun : s.runState = .running) (hf : s.pos.toNat + (2 + dispBytes d) ≤ s.bufLen.toNat) (hti : ti.toNat < 2)
    (hz : regs.absentZero = true)
    (hr : (recordOf tag (2 + dispBytes d) (attemptDone ti regs d s)).legal = true) :
    (committed tag (8 * (2 + dispBytes d)) (attemptDone ti regs d s)).Inv := by
  have hl := s.bufLen.isLt
  have hd : dispBytes d ≤ 2 := by cases d <;> simp [dispBytes]
  have hpos : (s.pos + BitVec.ofNat 16 (2 + dispBytes d)).toNat = s.pos.toNat + (2 + dispBytes d) := by
    rw [BitVec.toNat_add, BitVec.toNat_ofNat]; omega
  have hcnt := hs.count_le
  have hno : s.runState ≠ .doneFail := by rw [hrun]; decide
  have hcq := hs.outq_count
  refine ⟨hs.buf_wf, fun _ => ?_, ?_, ?_, fun h => absurd (hs.eoi_fail h) hno, fun h => absurd (hs.offset_fail h) hno,
    fun h => absurd h hno, hti, ?_, hz, ?_, ?_, hs.taken_legal⟩
  · simp [ceil8_bytes, hpos]; omega
  · simp only [committed_instCount, committed_pos, attemptDone_instCount, attemptDone_pos, ceil8_bytes, hpos]
    rw [BitVec.toNat_add]
    simp
    omega
  · simp only [committed_instCount, attemptDone_instCount, committed_outq, attemptDone_outq, List.length_append,
      List.length_singleton]
    rw [BitVec.toNat_add]
    simp
    omega
  · simp only [committed_hidden, attemptDone_hidden]
    cases d <;> simp [dispLenOf, dispBytes]
  · intro r hm
    simp only [committed_outq, attemptDone_outq, List.mem_append, List.mem_singleton, ceil8_bytes] at hm
    rcases hm with hm | hm
    · exact hs.outq_legal r hm
    · rw [hm]; exact hr
  · simp only [committed_outq, attemptDone_outq, committed_pos, attemptDone_pos, ceil8_bytes, hpos]
    have := chainedTo_append (r := recordOf tag (2 + dispBytes d) (attemptDone ti regs d s)) hs.outq_chain rfl
    have hb : (recordOf tag (2 + dispBytes d) (attemptDone ti regs d s)).byteLength.toNat = 2 + dispBytes d := by
      simp only [recordOf, BitVec.toNat_ofNat]; omega
    rwa [hb] at this

theorem inv_queue {s : State} (q : List HostAct) (hs : s.Inv) : (withQueue q s).Inv :=
  ⟨hs.1, hs.2, hs.3, hs.4, hs.5, hs.6, hs.7, hs.8, hs.9, hs.10, hs.11, hs.12, hs.13⟩

theorem inv_setReady {s : State} (r : Bool) (hs : s.Inv) : (setReady r s).Inv :=
  ⟨hs.1, hs.2, hs.3, hs.4, hs.5, hs.6, hs.7, hs.8, hs.9, hs.10, hs.11, hs.12, hs.13⟩

theorem inv_startRun {s : State} (hs : s.Inv) : (startRun s).Inv :=
  ⟨hs.1, fun _ => Nat.zero_le _, Nat.le_refl 0, Nat.le_refl 0, fun h => by simp at h, fun h => absurd rfl h, fun h => by simp at h,
    hs.8, hs.9, hs.10, fun r h => by simp at h, rfl, hs.13⟩

theorem inv_drain {s : State} (hs : s.Inv) : (drain s).Inv := by
  unfold drain
  split
  · exact hs
  · next r rs h =>
    have hc := hs.outq_chain
    have hn := hs.outq_count
    rw [h] at hc hn
    exact ⟨hs.1, hs.2, hs.3, by simp at hn ⊢; omega, hs.5, hs.6, hs.7, hs.8, hs.9, hs.10, fun x hx => hs.outq_legal x (by rw [h]; exact List.mem_cons_of_mem r hx),
      chainedTo_tail hc, fun x hx => by
        simp only [List.mem_append, List.mem_singleton] at hx
        rcases hx with hx | hx
        · exact hs.taken_legal x hx
        · rw [hx]; exact hs.outq_legal r (by rw [h]; exact List.mem_cons_self)⟩

end Sys2Proof.Machine
end

