-- ==== Sys2Proof/Laws/PerInstr.lean ====
section
/-! SUPPORT. Statements about each instruction as syntax, one lemma per constructor. -/

namespace Sys2Proof.Laws

/-- The encoding of a well-formed instruction is exactly its bytes, between 2 and L_MAX = 4 of them (30_encoding.md R109,
00_scope.md R7). -/
def EncodeLength.Statement (i : Instr) : Prop :=
  i.wellFormed = true → (encode i).length = byteLength i ∧ 2 ≤ byteLength i ∧ byteLength i ≤ 4

theorem EncodeLength.mov (w : BitVec 1) (mod : BitVec 2) (reg rm : BitVec 3) (disp : Disp) :
    EncodeLength.Statement (.mov w mod reg rm disp) := by
  intro _
  cases disp <;> simp [encode, byteLength, encodeDisp, Machine.dispBytes]

theorem EncodeLength.push (mod : BitVec 2) (rm : BitVec 3) (disp : Disp) : EncodeLength.Statement (.push mod rm disp) := by
  intro _
  cases disp <;> simp [encode, byteLength, encodeDisp, Machine.dispBytes]

end Sys2Proof.Laws
end

