-- ==== Sys2Proof/Laws/Steps.lean ====
section
/-! SUPPORT. What one transition can do, said once: inversion lemmas for the meanings, the engine step, each host action and
the transition itself. -/

namespace Sys2Proof.Machine

theorem State.reset_buf_wf : State.reset.buf.wf = true := rfl

/-- What a meaning can do: it commits one record of 2 + DISP_LEN bytes, the sink being ready. -/
theorem exec_cases {i : Instr} {s t : State} (h : exec i s = .next t) :
    s.host.ready = true ∧ ∃ (tag : BitVec 8) (ti : BitVec 4) (regs : FieldRegs) (d : Disp), byteLength i = 2 + dispBytes d ∧
      t = committed tag (8 * (2 + dispBytes d)) (attemptDone ti regs d s) := by
  cases i with
  | mov w mod reg rm d => exact ⟨(commit_next h).1, _, _, _, d, rfl, (commit_next h).2⟩
  | push mod rm d => exact ⟨(commit_next h).1, _, _, _, d, rfl, (commit_next h).2⟩

/-- What an engine step can do (42_decode_engine.md R198): end the run, run the decoded instruction, or fail. -/
theorem engineStep_cases {s t : State} (h : engineStep s = .next t) : s.runState = .running ∧
    ((s.pos = s.bufLen ∧ t = finishRun s) ∨
     (s.pos ≠ s.bufLen ∧ ∃ i rest, decode s.fetchBytes = .ok i rest ∧ exec i s = .next t) ∨
     (s.pos ≠ s.bufLen ∧ ∃ r, decode s.fetchBytes = .reject r ∧ t = noMatchingTemplate s)) := by
  unfold engineStep at h
  split at h
  swap
  · cases h
  next hr =>
  refine ⟨hr, ?_⟩
  split at h
  · next hp => injection h with h; exact .inl ⟨hp, h.symm⟩
  · next hp =>
    split at h
    · next i rest hd => exact .inr (.inl ⟨hp, i, rest, hd, h⟩)
    · next r hd => injection h with h; exact .inr (.inr ⟨hp, r, hd, h.symm⟩)

/-- What a CSR write can do (10_state.md R41 to R49): nothing, START, or set BUF_LEN. -/
theorem csrWrite_cases {w : Nat} (n : Nat) (v : CsrWord) (s : State w) : csrWrite n v s = s ∨
    (n = 0 ∧ v.getLsbD 0 = true ∧ s.runState ≠ .running ∧ csrWrite n v s = startRun s) ∨
    (n = 2 ∧ s.runState ≠ .running ∧ csrWrite n v s = { s with bufLen := v.setWidth w }) := by
  unfold csrWrite
  split
  · unfold writeCtrl
    split
    · next h =>
      simp only [Bool.and_eq_true, bne_iff_ne] at h
      exact .inr (.inl ⟨rfl, h.1, h.2, rfl⟩)
    · exact .inl rfl
  · unfold writeBufLen
    split
    · exact .inl rfl
    · next h => exact .inr (.inr ⟨rfl, by simpa using h, rfl⟩)
  · exact .inl rfl

/-- What a drain can do (10_state.md R36). -/
theorem drain_cases {w : Nat} (s : State w) : (s.outq = [] ∧ drain s = s) ∨
    ∃ r rs, s.outq = r :: rs ∧ drain s = { s with outq := rs, host := { s.host with taken := s.host.taken ++ [r] } } := by
  unfold drain
  split
  · next h => exact .inl ⟨h, rfl⟩
  · next r rs h => exact .inr ⟨r, rs, h, rfl⟩

/-- What a host write of BUF can do (10_state.md R22, 20_memory.md R70). -/
theorem hostWriteBuf_cases {w : Nat} {a : Offset w} {b : Byte} {s t : State w} (h : hostWriteBuf a b s = .next t) :
    s.runState ≠ .running ∧ a.toNat < Config.bufSize w ∧ t = { s with buf := s.buf.write a.toNat b } := by
  unfold hostWriteBuf at h
  split at h
  · cases h
  · next hr =>
    split at h
    · next ha => injection h with h; exact ⟨hr, ha, h.symm⟩
    · cases h

/-- What the engine's turn between two host actions can do (log 3): pass, or an engine step. -/
theorem engineTurn_cases {w : Nat} {engine : State w → Outcome w} {s t : State w} (h : engineTurn engine s = .next t) :
    t = s ∨ engine s = .next t := by
  unfold engineTurn at h
  split at h
  · injection h with h; exact .inl h.symm
  · injection h with h; exact .inl h.symm
  · exact .inr h

/-- What a transition can do (log 2): an engine step with no host action queued, or the host's next action. -/
theorem step_cases {s t : State} (h : step s = .next t) : (s.host.queue = [] ∧ engineStep s = .next t) ∨
    ∃ act q, s.host.queue = act :: q ∧ hostTurn defaultDesign engineStep act (withQueue q s) = .next t := by
  unfold step turn at h
  split at h
  · next hq => exact .inl ⟨hq, h⟩
  · next act q hq => exact .inr ⟨act, q, hq, h⟩

end Sys2Proof.Machine
end

