-- ==== Sys2Proof/Tests/Slice0.lean ====
section
/-! SUPPORT. Tests. Expected values come from the spec: the vectors of 95_test_vectors.md (named E-, B-, C-, F-, G-, O-, X-)
or words written out from 30_encoding.md R104. The second half gives, for every statement with hypotheses, concrete values
that meet them together (witness_<statement>). -/

namespace Sys2Proof.Tests

open Sys2Proof Sys2Proof.Machine

/-! ### Helpers -/

/-- The machine after a host's set-up of a run over bs, START included (70_reset_and_hazards.md R282). -/
def runOver (bs : List Byte) : State :=
  { State.reset with buf := Memory.writeAll 0 bs [], bufLen := BitVec.ofNat 16 bs.length, runState := .running }

/-- The outcome is a next state with property p. -/
def nextIs (o : Outcome) (p : State → Bool) : Bool :=
  match o with
  | .next t => p t
  | _ => false

/-- The state with one host action queued. -/
def withAct (act : HostAct) (s : State) : State := { s with host := { s.host with queue := [act] } }

/-- A next state with one record of the given tag, index, length, present bits, displacement length and value. -/
def emits (o : Outcome) (tag : BitVec 8) (tidx : BitVec 4) (len : BitVec 4) (present : BitVec 10) (dl : BitVec 2)
    (disp : BitVec 16) : Bool :=
  nextIs o (fun t => match t.outq with
    | [r] => r.tag == tag && r.tidx == tidx && r.byteLength == len && r.fields.present == present && r.dispLen == dl &&
        r.disp == disp
    | _ => false)

/-- TEST_ROM_A (ROM-2): the default ROM and five templates for the kinds it lacks. -/
def testRomA : List Template := defaultRom ++
  [⟨0x10, [⟨.literal, 6, 2, 0b100000⟩, ⟨.signExtend, 1, 1, 0⟩, ⟨.width, 1, 0, 0⟩, ⟨.addressingMode, 2, 6, 0⟩,
      ⟨.register, 3, 3, 0⟩, ⟨.registerOrMemory, 3, 0, 0⟩, ⟨.dataLow, 8, 0, 0⟩, ⟨.dataHigh, 8, 0, 0⟩]⟩,
   ⟨0x11, [⟨.literal, 6, 2, 0b110100⟩, ⟨.shiftCount, 1, 1, 0⟩, ⟨.width, 1, 0, 0⟩, ⟨.addressingMode, 2, 6, 0⟩,
      ⟨.register, 3, 3, 0⟩, ⟨.registerOrMemory, 3, 0, 0⟩]⟩,
   ⟨0x12, [⟨.literal, 7, 1, 0b1111001⟩, ⟨.repeatPrefix, 1, 0, 0⟩]⟩,
   ⟨0x13, [⟨.literal, 6, 2, 0b100010⟩, ⟨.direction, 1, 1, 0⟩, ⟨.width, 1, 0, 0⟩, ⟨.addressingMode, 2, 6, 0⟩,
      ⟨.register, 3, 3, 0⟩, ⟨.registerOrMemory, 3, 0, 0⟩]⟩,
   ⟨0x14, [⟨.literal, 4, 4, 0b1011⟩, ⟨.width, 1, 3, 0⟩, ⟨.register, 3, 0, 0⟩, ⟨.dataLow, 8, 0, 0⟩, ⟨.dataHigh, 8, 0, 0⟩]⟩]

def designA : Design := { defaultDesign with rom := testRomA }

/-! ### Well-formedness -/

theorem test_wellFormed_refuses_mov_length : Instr.wellFormed (.mov 0 0b11 0 0 (.byte 1)) = false := by decide
theorem test_wellFormed_refuses_push_length : Instr.wellFormed (.push 0b00 0b110 .none) = false := by decide
theorem test_wellFormed_accepts : Instr.wellFormed (.mov 1 0b00 0 0b110 (.word 0x1234)) = true ∧
    Instr.wellFormed (.push 0b11 0 .none) = true := by decide

/-! ### Decoding (words from 30_encoding.md R104) -/

theorem test_decode_mov : decode [0b11000111, 0b01011101, 0xFE] = .ok (.mov 1 0b01 0b011 0b101 (.byte 0xFE)) [] := by decide
theorem test_decode_push : decode [0b11111111, 0b00110110, 0xCD, 0xAB] = .ok (.push 0b00 0b110 (.word 0xABCD)) [] := by
  decide
theorem test_decode_mov_word : decodeTableWord 16 0xC6C1 = some (.mov 0 0b11 0 0b001 .none) := by decide
theorem test_decode_push_word : decodeTableWord 16 0xFFF7 = some (.push 0b11 0b111 .none) := by decide
theorem test_decode_rejects : decode [0x90] = .reject .noMatch ∧ decode [0xC4, 0x00] = .reject .noMatch ∧
    decode [0xFF, 0x06] = .reject .noMatch ∧ decode [0xFF] = .reject .endOfInput ∧
    decode [0xC7, 0x06, 0x34] = .reject .endOfInput := by decide
/-- The default templates as items of R206: their encodings are those of 30_encoding.md R104. -/
theorem test_encode_items :
    (⟨0, movTemplate, { FieldRegs.clear with w := 1, rm := 0b110 }, .word 0x1234⟩ : Item).encode = [0xC7, 0x06, 0x34, 0x12] ∧
    (⟨1, pushTemplate, { FieldRegs.clear with mod := 0b01, rm := 0b101 }, .byte 0xFE⟩ : Item).encode = [0xFF, 0x75, 0xFE] := by
  decide
theorem test_encode : encode (.mov 1 0b00 0 0b110 (.word 0x1234)) = [0xC7, 0x06, 0x34, 0x12] ∧
    encode (.push 0b01 0b101 (.byte 0xFE)) = [0xFF, 0x75, 0xFE] := by decide

/-! ### One step of each instruction (E-1, F-20, E-2, F-24) -/

theorem test_mov_E1 : emits (step (runOver [0xC6, 0x00])) 0x00 0 2 0x0E2 0 0x0000 = true := by decide
theorem test_mov_F20 : emits (step (runOver [0xC7, 0x06, 0x34, 0x12])) 0x00 0 4 0x0E2 2 0x1234 = true := by decide
theorem test_push_E2 : nextIs (step (runOver [0xFF, 0xF0])) (fun t => t.pos == 2 && t.instCount == 1 &&
    t.outq.all (fun r => r.fields.d == 1 && r.fields.w == 1 && r.fields.mod == 0b11 && r.fields.reg == 0)) = true := by decide
theorem test_push_F24 : emits (step (runOver [0xFF, 0x75, 0xFE])) 0x01 1 3 0x0A3 1 0x00FE = true := by decide

/-! ### Failures, CSRs, reset -/

theorem test_fail_mismatch_G1 : nextIs (step (runOver [0x90])) (fun t => csrRead defaultDesign 1 t == 0x3) = true := by decide
theorem test_fail_truncated_E4 : nextIs (step (runOver [0xFF, 0x75])) (fun t =>
    csrRead defaultDesign 1 t == 0x7 && t.outq.isEmpty) = true := by decide
theorem test_reset_X1 : (List.range 8).map (fun n => csrRead defaultDesign n State.reset) = [0, 0, 0, 0, 0, 0, 0x402, 0] := by
  decide
theorem test_bufLen_ignored_X4 : (csrWrite 2 7 (runOver [0xC6, 0x00])).bufLen = 2 := by decide

/-- The outcome is the given fault. -/
def faultIs (o : Outcome) (f : Fault) : Bool :=
  match o with
  | .fault g => g == f
  | _ => false

theorem test_hold_G12 : faultIs (step { runOver [0xFF, 0xF0] with host := ⟨[], false, [], 0⟩ }) .outputHeld = true := by decide
theorem test_reset_during_run_X8 : nextIs (step (withAct (.reset false []) (runOver [0xFF, 0xF0]))) (fun t =>
    t == State.reset) = true := by decide

/-! ### The template engine on other ROMs (F-4, F-5, F-7, F-8, F-12, F-14, F-15, F-19, O-4) -/

theorem test_engine_direction_F4 :
    emits (stepOf designA (runOver [0x8B, 0x46, 0xFC])) 0x13 5 3 0b0011100011 1 0x00FC = true := by decide
theorem test_engine_signExtend_F5 :
    emits (stepOf designA (runOver [0x83, 0xC0, 0xFF])) 0x10 2 3 0b0111100110 0 0 = true := by decide
theorem test_engine_shiftCount_F7 : emits (stepOf designA (runOver [0xD3, 0xE0])) 0x11 3 2 0b0011101010 0 0 = true := by decide
theorem test_engine_repeat_F8 : emits (stepOf designA (runOver [0xF3])) 0x12 4 1 0b0000010000 0 0 = true := by decide
theorem test_engine_dataHigh_F12 : nextIs (stepOf designA (runOver [0xB8, 0x34, 0x12])) (fun t => t.pos == 3 &&
    t.outq.all (fun r => r.fields.dlo == 0x34 && r.fields.dhi == 0x12 && r.fields.present == 0b1101000010)) = true := by decide
theorem test_engine_noDataHigh_F14 : nextIs (stepOf designA (runOver [0x82, 0x87, 0x10, 0x20, 0x05])) (fun t => t.pos == 5 &&
    t.outq.all (fun r => r.fields.dlo == 0x05 && r.disp == 0x2010 && r.fields.present == 0b0111100110)) = true := by decide
theorem test_engine_truncated_F15 : nextIs (stepOf designA (runOver [0x81, 0xC0, 0x34])) (fun t => t.eoi) = true := by decide
theorem test_engine_dispThenData_F19 : nextIs (stepOf designA (runOver [0x81, 0x47, 0xFE, 0x01, 0x02])) (fun t =>
    t.outq.all (fun r => r.disp == 0x00FE && r.dispLen == 1 && r.fields.dlo == 0x01 && r.fields.dhi == 0x02 &&
      r.byteLength == 5)) = true := by decide
theorem test_engine_eoiThenMatch_O4 : emits (stepOf { defaultDesign with rom := [⟨0x30, [⟨.literal, 8, 0, 0xFF⟩,
    ⟨.dataLow, 8, 0, 0⟩]⟩, ⟨0x31, [⟨.literal, 8, 0, 0xFF⟩]⟩] } (runOver [0xFF])) 0x31 1 1 0 0 0 = true := by decide

/-- A block with BUF_LEN_W = 4: BUF has offsets 0 to 14, and CSR 2 keeps 4 bits (10_state.md R22, R44). -/
def smallRun : State 4 := { State.resetOf 4 with buf := [(13, 0xF3), (14, 0xF3)], bufLen := 15, runState := .running, pos := 13 }

theorem test_small_block : (csrWrite 2 0x1F (State.resetOf 4)).bufLen = 15 ∧
    (match stepOf designA smallRun with | .next t => t.pos == 14 && t.instCount == 1 | _ => false) = true ∧
    (match hostWriteBuf (15 : Offset 4) 1 (State.resetOf 4) with | .fault .bufOffset => true | _ => false) = true := by decide
/-- MAX_TEMPLATES = 1 refuses the default ROM, MAX_FIELDS = 5 refuses PUSH's six fields (R98). -/
theorem test_capacities : romFailures { defaultDesign with maxTemplates := 1 } = [(2, .size)] ∧
    romFailures { defaultDesign with maxFields := 5 } = [(1, .size)] := by decide

/-! ### ROM images and construction checks (ROM-1, ROM-2, C-1 to C-17) -/

theorem test_romA_images : (testRomA.drop 2).map templateImage =
    [⟨0x1008, [0x06220, 0x21100, 0x31000, 0x62600, 0x73300, 0x83000, 0x98000, 0xA8000]⟩,
     ⟨0x1106, [0x06234, 0x41100, 0x31000, 0x62600, 0x73300, 0x83000]⟩, ⟨0x1202, [0x07179, 0x51000]⟩,
     ⟨0x1306, [0x06222, 0x11100, 0x31000, 0x62600, 0x73300, 0x83000]⟩,
     ⟨0x1405, [0x0440B, 0x31300, 0x73000, 0x98000, 0xA8000]⟩] := by decide
theorem test_romA_info : validRom designA = true ∧ romInfo testRomA = 0x607 ∧
    testRomA.map insertionPoint = [some 4, some 3, some 5, some 5, none, some 5, none] := by decide

/-- The checks one template alone fails. -/
def checksOf (fields : List Descriptor) : List Check := failedChecks defaultDesign ⟨0, fields⟩

theorem test_checks_C1 : Check.group ∈ checksOf [⟨.literal, 7, 1, 0b1100011⟩, ⟨.direction, 1, 0, 0⟩, ⟨.width, 1, 7, 0⟩,
    ⟨.addressingMode, 2, 5, 0⟩, ⟨.register, 3, 2, 0⟩, ⟨.registerOrMemory, 3, 7, 0⟩] := by decide
theorem test_checks_C2_C3_C4 :
    checksOf [⟨.literal, 6, 2, 0b110001⟩, ⟨.width, 2, 0, 0⟩] = [.width] ∧
    checksOf [⟨.literal, 4, 4, 0b110⟩, ⟨.width, 1, 3, 0⟩, ⟨.register, 3, 0, 0⟩] = [.literal] ∧
    checksOf [⟨.addressingMode, 2, 6, 0⟩, ⟨.register, 3, 3, 0⟩, ⟨.registerOrMemory, 3, 0, 0⟩] = [.anchor] := by decide
theorem test_checks_C5_C6_C7_C8 :
    checksOf [⟨.literal, 8, 0, 0xFF⟩, ⟨.addressingMode, 2, 6, 0⟩, ⟨.register, 3, 3, 0⟩, ⟨.literal, 3, 0, 7⟩] = [.modrm] ∧
    checksOf [⟨.literal, 8, 0, 0xF0⟩, ⟨.dataLow, 8, 0, 0⟩, ⟨.dataHigh, 8, 0, 0⟩] = [.data] ∧
    checksOf [⟨.literal, 8, 0, 0xFF⟩, ⟨.impliedWidth, 1, 0, 1⟩] = [.implied] ∧
    checksOf [⟨.literal, 7, 1, 0x7F⟩, ⟨.width, 1, 0, 0⟩, ⟨.impliedWidth, 0, 0, 1⟩] = [.unique] := by decide

/-- What an image is refused for, nothing when it is a valid ROM. -/
def imageFails (ims : List TemplateImage) : List (Nat × RomError) :=
  match constructDesign defaultDesign ims with
  | .ok _ => []
  | .error es => es

theorem test_checks_C9 : imageFails [⟨0x0002, [0x080FF, 0xD0000]⟩] = [(0, .check .kind)] := by decide
/-- C-10's image as a second template: the check is recorded with index 1; a reserved bit (U13) beside CE_KIND. -/
theorem test_image_index : imageFails [templateImage movTemplate,
      ⟨0x0106, [0x080FF, 0x62500, 0x03306, 0x83000, 0xB0001, 0xC0001]⟩] = [(1, .check .shift)] ∧
    imageFails [⟨0x0001, [0x088FF]⟩, ⟨0x0001, [0xE0000]⟩] = [(0, .reservedBits), (1, .check .kind)] ∧
    imageFails [⟨0x0002, [0x080FF]⟩] = [(0, .fieldCount)] := by decide
theorem test_checks_C10_C11_C12 :
    checksOf [⟨.literal, 8, 0, 0xFF⟩, ⟨.addressingMode, 2, 5, 0⟩, ⟨.literal, 3, 3, 0b110⟩, ⟨.registerOrMemory, 3, 0, 0⟩,
      ⟨.impliedWidth, 0, 0, 1⟩, ⟨.impliedDirection, 0, 0, 1⟩] = [.shift] ∧
    romFailures { defaultDesign with rom := List.replicate 17 ⟨0x21, [⟨.literal, 8, 0, 0xFF⟩]⟩ } = [(17, .size)] ∧
    checksOf [⟨.literal, 4, 4, 0b1111⟩, ⟨.width, 1, 3, 0⟩] = [.group] := by decide
theorem test_checks_C13_C14_C15 :
    checksOf [⟨.literal, 3, 5, 7⟩, ⟨.addressingMode, 2, 3, 0⟩, ⟨.register, 3, 0, 0⟩, ⟨.registerOrMemory, 3, 5, 0⟩,
      ⟨.literal, 5, 0, 0b11111⟩] = [.modrm] ∧
    checksOf [⟨.literal, 7, 1, 0b1000000⟩, ⟨.width, 1, 0, 0⟩, ⟨.dataLow, 8, 0, 0⟩, ⟨.dataHigh, 8, 0, 0⟩,
      ⟨.literal, 7, 1, 0x7F⟩, ⟨.signExtend, 1, 0, 0⟩] = [.data] ∧
    checksOf [⟨.literal, 7, 1, 0b1000000⟩, ⟨.width, 1, 0, 0⟩, ⟨.dataHigh, 8, 0, 0⟩] = [.data] := by decide
theorem test_checks_C16_C17 :
    checksOf [⟨.literal, 1, 7, 0⟩, ⟨.direction, 1, 6, 0⟩, ⟨.width, 1, 5, 0⟩, ⟨.shiftCount, 1, 4, 0⟩, ⟨.repeatPrefix, 1, 3, 0⟩,
      ⟨.register, 3, 0, 0⟩] = [] ∧ Check.literal ∈ checksOf [⟨.literal, 3, 5, 0⟩] := by decide

/-! ### The bit cursor (B-1, B-4, B-5, B-8, B-10 to B-13) -/

/-- BUF of the cursor vectors. -/
def cursorInput : Input := ⟨Memory.writeAll 0 [0xC6, 0x00, 0xA5] [], 3⟩

theorem test_cursor_peek : peekBits cursorInput ⟨0, 0⟩ 7 = some 0x63 ∧ peekBits cursorInput ⟨0, 6⟩ 4 = some 0x8 ∧
    peekBits cursorInput ⟨1, 4⟩ 8 = some 0x0A ∧ peekBits cursorInput ⟨2, 4⟩ 5 = none := by decide
theorem test_cursor_consume : consumeBits cursorInput ⟨0, 0⟩ 16 = some (0xC600, ⟨2, 0⟩) ∧
    consumeBits cursorInput ⟨1, 0⟩ 16 = some (0x00A5, ⟨3, 0⟩) ∧ consumeBits cursorInput ⟨1, 1⟩ 16 = none ∧
    consumeBits cursorInput ⟨3, 0⟩ 1 = none := by decide

/-! ### Witnesses: the hypotheses of each statement, met together -/

/-- A run over one MOV. -/
def movRun : State := runOver [0xC6, 0x00]

/-- A run over one byte that spells nothing. -/
def badRun : State := runOver [0x90]

theorem runOver_inv (bs : List Byte) (hwf : (runOver bs).buf.wf = true) : (runOver bs).Inv where
  buf_wf := hwf
  pos_le := fun _ => Nat.zero_le _
  count_le := Nat.le_refl 0
  outq_count := Nat.le_refl 0
  eoi_fail := by simp [runOver, State.reset, State.resetOf]
  offset_fail := fun h => absurd rfl h
  fail_offset := by simp [runOver]
  ti_lt := (by decide : State.reset.hidden.ti.toNat < defaultRom.length)
  disp_len := (by decide : State.reset.hidden.dispLen ≠ 3)
  regs_zero := (by decide : State.reset.hidden.regs.absentZero = true)
  outq_legal := by simp [runOver, State.reset, State.resetOf]
  outq_chain := rfl
  taken_legal := by simp [runOver, State.reset, State.resetOf]

theorem witness_DecodeOfEncode : Instr.wellFormed (.mov 1 0b01 0 0 (.byte 0xFF)) = true ∧
    Instr.wellFormed (.mov 0 0b00 7 0b110 (.word 0xFFFF)) = true ∧ Instr.wellFormed (.push 0b10 0 (.word 0)) = true ∧
    Instr.wellFormed (.push 0b11 7 .none) = true := by decide

theorem witness_EncodeOfDecode : decode [0xFF, 0x75, 0xFE, 0x00] = .ok (.push 0b01 0b101 (.byte 0xFE)) [0x00] := by decide

/-- Each clause at the edge of its length: as many displacement bytes as the second byte asks for, and one fewer. -/
theorem witness_AcceptedByteSequences :
    (((0xC7 : Byte) = 0xC6 ∨ (0xC7 : Byte) = 0xC7) ∧ (0x06 : Byte).extractLsb' 6 2 = 0 ∧ (0x06 : Byte).extractLsb' 0 3 = 6 ∧
      2 ≤ [(0x34 : Byte), 0x12].length) ∧
    ((0x75 : Byte).extractLsb' 3 3 = 6 ∧ (0x75 : Byte).extractLsb' 6 2 = 1 ∧ 1 ≤ [(0xFE : Byte)].length) ∧
    ¬(1 ≤ ([] : List Byte).length) ∧ (0xF8 : Byte).extractLsb' 3 3 ≠ 6 := by decide

theorem witness_DisplacementLengths : dispLen 6 0b11 6 = 0 ∧ dispLen 6 0b00 6 = 2 ∧ dispLen 6 0b00 7 = 0 ∧
    dispLen 6 0b01 6 = 1 ∧ dispLen 6 0b10 6 = 2 := by decide

theorem witness_MovCommitsItsRecord : State.reset.host.ready = true := rfl
theorem witness_PushCommitsItsRecord : movRun.host.ready = true := rfl

theorem witness_MeaningsChangeNothingElse : ∃ t t', exec (.mov 0 0 0 0 .none) movRun = .next t ∧
    exec (.push 0b01 0 (.byte 5)) movRun = .next t' := ⟨_, _, rfl, rfl⟩

theorem witness_MeaningsHoldWhileSinkNotReady : (setReady false movRun).host.ready = false := rfl

theorem witness_StepRunsTheDecodedInstruction : movRun.runState = .running ∧ movRun.pos ≠ movRun.bufLen ∧
    decode movRun.fetchBytes = .ok (.mov 0 0 0 0 .none) [] ∧ movRun.host.queue = [] ∧
    (withAct .engineTurn movRun).host.queue = .engineTurn :: [] ∧ (withAct .engineTurn movRun).host.ready = true ∧
    (withAct .engineTurn (setReady false movRun)).host.ready = false := by decide

theorem witness_PlacedWordIsRunNext : State.reset.buf.wf = true ∧
    decodeTableWord 16 0xFF36 = some (.push 0b00 0b110 (.word 0)) := by decide

theorem witness_StepKeepsInvariant : movRun.Inv ∧ ∃ t, step movRun = .next t := by
  refine ⟨runOver_inv [0xC6, 0x00] (by decide), ?_⟩
  have h : nextIs (step movRun) (fun _ => true) = true := by decide
  revert h
  cases step movRun with
  | next t => exact fun _ => ⟨t, rfl⟩
  | fault f => exact fun h => by cases h
  | refused r => exact fun h => by cases h

theorem witness_RunEndsAtBufLen : (runOver []).runState = .running ∧ (runOver []).pos = (runOver []).bufLen ∧
    (runOver []).host.queue = [] ∧ (runOver []).Inv := ⟨rfl, rfl, rfl, runOver_inv [] rfl⟩

theorem witness_FailedPositionEndsTheRun : badRun.runState = .running ∧ badRun.pos ≠ badRun.bufLen ∧
    ∀ t ∈ defaultDesign.rom, (tryTemplate defaultDesign badRun.input badRun.pos t badRun.hidden).isOk = false := by decide

theorem witness_RejectedBytesFailTheRun : badRun.runState = .running ∧ badRun.pos ≠ badRun.bufLen ∧ badRun.host.queue = [] ∧
    decode badRun.fetchBytes = .reject .noMatch ∧ decode (runOver [0xC7, 0x06, 0x34]).fetchBytes = .reject .endOfInput := by
  decide

theorem witness_TruncatedInstructionFails : ∃ (s : State) (i : Instr), s.runState = .running ∧ s.host.queue = [] ∧
    i.wellFormed = true ∧ 0 < 3 ∧ 3 < byteLength i ∧ s.bufLen.toNat = s.pos.toNat + 3 ∧
    s.buf.holds s.pos.toNat ((encode i).take 3) := by
  refine ⟨runOver [0xC7, 0x06, 0x34], .mov 1 0b00 0 0b110 (.word 0x1234), rfl, rfl, by decide, by decide, by decide, by decide,
    ?_⟩
  intro k b h
  have e : (encode (.mov 1 0b00 0 0b110 (.word 0x1234))).take 3 = [0xC7, 0x06, 0x34] := by decide
  rw [e] at h
  rcases k with _ | _ | _ | k <;> simp at h <;> subst h <;> decide

theorem witness_NoEngineStepUnlessRunning : State.reset.runState ≠ .running ∧ State.reset.host.queue = [] ∧
    (withAct .engineTurn State.reset).host.queue = .engineTurn :: [] ∧
    (withAct .engineTurn State.reset).runState ≠ .running := by decide

/-- The next state of an outcome, or the given one. -/
def nextOr (d : State) : Outcome → State
  | .next t => t
  | _ => d

theorem next_of {o : Outcome} (d : State) (h : nextIs o (fun _ => true) = true) : o = .next (nextOr d o) := by
  cases o with
  | next t => rfl
  | fault f => cases h
  | refused r => cases h

theorem witness_ValidDesignStepAdvances : validRom designA = true ∧
    (runOver [0xF3]).pos.toNat ≤ (runOver [0xF3]).bufLen.toNat ∧
    ∃ t, engineStepOf designA (runOver [0xF3]) = .next t ∧ t.runState = .running :=
  ⟨by decide, by decide, nextOr State.reset _, next_of State.reset (by decide), by decide⟩

theorem witness_ValidTemplatesConsumeWholeBytes : validRom defaultDesign = true ∧ movTemplate ∈ defaultDesign.rom ∧
    ∃ h', tryTemplate defaultDesign movRun.input 0 movTemplate Hidden.clear = .ok h' :=
  ⟨by decide, by decide, (tryTemplate defaultDesign movRun.input 0 movTemplate Hidden.clear).hidden, by decide⟩

theorem witness_RunReachesTerminalState : movRun.runState = .running ∧ movRun.pos.toNat ≤ movRun.bufLen.toNat ∧
    movRun.host.queue = [] ∧ movRun.host.ready = true := by decide

theorem witness_EncodedSequenceDecodesBack : ∃ (s : State) (is : List Instr), is.length = 2 ∧ s.runState = .running ∧
    s.host.queue = [] ∧ s.host.ready = true ∧ (∀ i ∈ is, i.wellFormed = true) ∧
    s.pos.toNat + (is.flatMap encode).length ≤ s.bufLen.toNat ∧ s.buf.holds s.pos.toNat (is.flatMap encode) := by
  refine ⟨runOver [0xC6, 0x00, 0xFF, 0xF0], [.mov 0 0 0 0 .none, .push 0b11 0 .none], rfl, rfl, rfl, rfl, by decide, by decide, ?_⟩
  intro k b h
  have e : [Instr.mov 0 0 0 0 .none, .push 0b11 0 .none].flatMap encode = [0xC6, 0x00, 0xFF, 0xF0] := by decide
  rw [e] at h
  rcases k with _ | _ | _ | _ | k <;> simp at h <;> subst h <;> decide

theorem witness_ParallelEvaluationAgrees :
    (∃ t h, (parallelAttempts defaultDesign movRun).find? (fun p => p.2.isOk) = some (t, .ok h)) ∧
    (attempts defaultDesign badRun).2 = none := by
  refine ⟨⟨movTemplate, (tryTemplate defaultDesign movRun.input 0 movTemplate Hidden.clear).hidden, ?_⟩, by decide⟩
  decide

theorem witness_AttemptsLeaveNoTrace : ∃ h h' : Hidden, h ≠ h' ∧ h.ti = h'.ti ∧ h.eoiAcc = h'.eoiAcc :=
  ⟨Hidden.clear, { (Hidden.clear : Hidden) with cur := ⟨5, 3⟩, disp := 9 }, by decide, rfl, rfl⟩

theorem witness_DefaultTemplatesAreDisjoint :
    (tryTemplate defaultDesign movRun.input 0 movTemplate Hidden.clear).isOk = true ∧
    (tryTemplate defaultDesign (runOver [0xFF, 0xF0]).input 0 pushTemplate Hidden.clear).isOk = true := by decide

theorem witness_EngineStepKeepsBufAndHost :
    (∃ t, engineStepOf defaultDesign movRun = .next t ∧ t.runState = .running) ∧
    (∃ t, engineStepOf defaultDesign (runOver []) = .next t ∧ t.runState = .doneOk) ∧
    (∃ t, engineStepOf defaultDesign badRun = .next t ∧ t.runState = .doneFail) :=
  ⟨⟨nextOr State.reset _, next_of State.reset (by decide), by decide⟩,
   ⟨nextOr State.reset _, next_of State.reset (by decide), by decide⟩,
   ⟨nextOr State.reset _, next_of State.reset (by decide), by decide⟩⟩

theorem witness_StepReadsOnlyBelowBufLen : movRun.host.queue = [] ∧ Memory.write 2 0x55 movRun.buf ≠ movRun.buf ∧
    ∀ a, a < movRun.bufLen.toNat → (Memory.write 2 0x55 movRun.buf).read a = movRun.buf.read a := by decide

theorem witness_OnlyStartBeginsARun :
    (∃ t, step (withAct (.writeCsr 0 1) State.reset) = .next t ∧ t.runState = .running) ∧
    (∃ t, step (runOver []) = .next t ∧ t.terminal ∧ t.runState ≠ (runOver []).runState) :=
  ⟨⟨nextOr State.reset _, next_of State.reset (by decide), by decide⟩,
   ⟨nextOr State.reset _, next_of State.reset (by decide), .inl (by decide), by decide⟩⟩

theorem witness_OnlyCommitStartAndResetMovePos :
    (∃ t, step movRun = .next t ∧ t.pos ≠ movRun.pos) ∧
    (∃ t, step (withAct (.writeCsr 0 1) { State.reset with pos := 4 }) = .next t ∧ t.pos ≠ 4 ∧ t.pos = 0) ∧
    (∃ t, step (withAct (.reset false []) { State.reset with pos := 4 }) = .next t ∧ t.pos ≠ 4) :=
  ⟨⟨nextOr State.reset _, next_of State.reset (by decide), by decide⟩,
   ⟨nextOr State.reset _, next_of State.reset (by decide), by decide⟩,
   ⟨nextOr State.reset _, next_of State.reset (by decide), by decide⟩⟩

/-- The cursor statements at the edge: four bits remain at (2, 4). -/
theorem witness_PeekBitsReadsTheStream : 8 * cursorInput.bufLen.toNat - (⟨2, 4⟩ : Cursor).position = 4 ∧
    (4 : Fin 17).val ≤ 4 ∧ 4 < (5 : Fin 17).val ∧ (3 : Nat) < (4 : Fin 17).val := by decide

theorem witness_ConsumeBitsAdvances : peekBits cursorInput ⟨2, 4⟩ 4 = some 0x5 ∧ peekBits cursorInput ⟨2, 4⟩ 5 = none := by
  decide

theorem witness_RequestInsideAByte : (4 : BitVec 3).toNat + (4 : Fin 17).val ≤ 8 ∧ (2 : Offset).toNat < cursorInput.bufLen.toNat := by
  decide

theorem witness_RequestAcrossBytes : (8 : Fin 17).val ≤ 8 ∧ 8 < (1 : BitVec 3).toNat + (8 : Fin 17).val ∧
    (1 : Offset).toNat + 1 < cursorInput.bufLen.toNat ∧ cursorInput.bufLen.toNat ≤ (2 : Offset).toNat + 1 := by decide

/-- The element statements at the cursor vectors' buffer: with 8 bits left, with 4, and with none. -/
def hiddenAt (b : Offset) (c : BitVec 3) : Hidden := { (Hidden.clear : Hidden) with cur := ⟨b, c⟩ }

theorem witness_ReadingElementsFillTheirKey : kindWidth FieldKind.register = some 3 ∧ kindKey FieldKind.register = some .reg ∧
    FieldKind.register ≠ .dataHigh ∧ 8 * cursorInput.bufLen.toNat - (hiddenAt 2 5).cur.position = 3 ∧
    8 * cursorInput.bufLen.toNat - (hiddenAt 2 6).cur.position < 3 := by decide

theorem witness_LiteralComparesAllItsBits :
    8 * cursorInput.bufLen.toNat - (hiddenAt 2 4).cur.position < (5 : BitVec 4).toNat ∧
    (4 : BitVec 4).toNat ≤ 8 * cursorInput.bufLen.toNat - (hiddenAt 2 4).cur.position ∧
    peekBits cursorInput (hiddenAt 2 4).cur (widthRequest 4) = some 0b0101 := by decide

theorem witness_DataHighFollowsWidthAndSign : ∃ h h' : Hidden,
    (h.regs.w = 1 ∧ ¬(h.regs.has .s = true ∧ h.regs.s = 1)) ∧ ¬(h'.regs.w = 1 ∧ ¬(h'.regs.has .s = true ∧ h'.regs.s = 1)) ∧
    8 * cursorInput.bufLen.toNat - h.cur.position = 8 ∧
    8 * cursorInput.bufLen.toNat - ({ h with cur := ⟨2, 1⟩ } : Hidden).cur.position < 8 :=
  ⟨{ hiddenAt 2 0 with regs := FieldRegs.clear.put .w 1 }, { hiddenAt 2 0 with regs := (FieldRegs.clear.put .w 1).put .s 1 },
    by decide, by decide, by decide, by decide⟩

theorem witness_ImpliedElementsWriteTheirConstant :
    ((⟨.impliedWidth, 0, 0, 1⟩ : Descriptor).kind = .impliedWidth ∧ Key.w = .w) ∧
    ((⟨.impliedDirection, 0, 0, 0⟩ : Descriptor).kind = .impliedDirection ∧ Key.d = .d) := by decide

/-- DispExt with the last byte it needs the last of the buffer, and with one byte fewer. -/
theorem witness_DisplacementIsReadLowByteFirst : (hiddenAt 1 0).cur.bit = 0 ∧ (dispLen 6 0b11 0).toNat = 0 ∧
    (dispLen 6 0b01 0).toNat = 1 ∧ (2 : Offset).toNat + 1 ≤ cursorInput.bufLen.toNat ∧ (dispLen 6 0b10 0).toNat = 2 ∧
    (1 : Offset).toNat + 2 ≤ cursorInput.bufLen.toNat ∧ cursorInput.bufLen.toNat < (2 : Offset).toNat + 2 := by decide

theorem witness_TemplateImageRoundTrip : movTemplate.fields.length ≤ 15 ∧
    (List.replicate 15 (⟨.width, 1, 0, 0⟩ : Descriptor)).length ≤ 15 := by decide

theorem witness_InvalidRomHasNoRun : validRom { defaultDesign with rom := [] } = false ∧ validRom defaultDesign = true ∧
    [templateImage movTemplate, ⟨0x0001, [0xD0000]⟩][1]? = some ⟨0x0001, [0xD0000]⟩ ∧
    (0xD0000 : BitVec 20) ∈ (⟨0x0001, [0xD0000]⟩ : TemplateImage).words ∧
    12 < ((0xD0000 : BitVec 20).extractLsb' 16 4).toNat := by decide

theorem witness_ResetActionResetsTheBlock : (withAct (.reset true [(0, 0xC6)]) movRun).host.queue =
    .reset true [(0, 0xC6)] :: [] ∧ (withAct (.reset false []) movRun).host.queue = .reset false [] :: [] ∧
    (nextOr State.reset (step movRun)).outq ≠ [] ∧
    (withAct (.reset true []) movRun).outq = [] ∧ (withAct (.reset true []) movRun).host.ready = true ∧
    (withAct (.reset true []) (setReady false movRun)).outq = [] ∧
    (withAct (.reset true []) (setReady false movRun)).host.ready = false ∧
    (withAct (.reset true []) (setReady false movRun)).runState = .running ∧
    decode (withAct (.reset true []) (setReady false movRun)).fetchBytes = .ok (.mov 0 0 0 0 .none) [] := by decide

theorem witness_StartBeginsARunAtZero : (withAct (.writeCsr 0 1) State.reset).host.queue = .writeCsr 0 1 :: [] ∧
    (1 : CsrWord).getLsbD 0 = true ∧ (withAct (.writeCsr 0 1) State.reset).runState ≠ .running ∧
    State.reset.runState ≠ .running ∧ ¬((0 : Nat) = 0 ∧ (0xFFFFFFFE : CsrWord).getLsbD 0 = true) := by decide

theorem witness_CsrWritesIgnoredWhileRunning : movRun.runState = .running := rfl

theorem witness_CtrlRegister : (0xFFFFFFFE : CsrWord).getLsbD 0 = false ∧ (0xFFFFFFFF : CsrWord).getLsbD 0 = true ∧
    State.reset.runState ≠ .running := by decide

theorem witness_StatusRegister : movRun.Inv ∧ movRun.runState ≠ .doneFail :=
  ⟨runOver_inv [0xC6, 0x00] (by decide), by decide⟩

theorem witness_DoneLevel : (1 : CsrWord).getLsbD 0 = true ∧ (finishRun movRun).runState ≠ .running ∧
    (finishRun movRun).terminal := ⟨by decide, by decide, .inl rfl⟩

theorem witness_BufLenRegister : State.reset.runState ≠ .running ∧ movRun.runState = .running := by decide

theorem witness_RomInfoRegister : validRom defaultDesign = true ∧ validRom designA = true ∧ designA.maxTemplates ≤ 31 := by decide

theorem witness_CsrAccessRules : 7 ≤ 7 ∧ (1 : Nat) ≠ 0 ∧ (1 : Nat) ≠ 2 ∧
    (withAct (.readCsr 6) movRun).host.queue = .readCsr 6 :: [] ∧
    (withAct (.writeCsr 2 9) movRun).host.queue = .writeCsr 2 9 :: [] := by decide

theorem witness_HostWritesBufBetweenRuns :
    ((withAct (.writeBuf 65534 7) State.reset).host.queue = .writeBuf 65534 7 :: [] ∧
      (withAct (.writeBuf 65534 7) State.reset).runState ≠ .running ∧ (65534 : Offset).toNat < 65535 ∧
      (withAct (.writeBuf 65534 7) State.reset).buf.wf = true ∧ (0 : Nat) ≠ (65534 : Offset).toNat) ∧
    ((withAct (.writeBuf 0 7) movRun).host.queue = .writeBuf 0 7 :: [] ∧ (withAct (.writeBuf 0 7) movRun).runState = .running) ∧
    ((withAct (.writeBuf 65535 7) State.reset).host.queue = .writeBuf 65535 7 :: [] ∧
      (withAct (.writeBuf 65535 7) State.reset).runState ≠ .running ∧ (65535 : Offset).toNat = 65535) := by decide

theorem witness_HostDrainsFromTheHead :
    (∃ r rs, (withAct .drain (nextOr State.reset (step movRun))).host.queue = .drain :: [] ∧
      (withAct .drain (nextOr State.reset (step movRun))).outq = r :: rs) ∧
    (withAct .drain movRun).host.queue = .drain :: [] ∧ (withAct .drain movRun).outq = [] ∧
    (withAct (.setReady false) movRun).host.queue = .setReady false :: [] := by
  refine ⟨?_, by decide, by decide, by decide⟩
  have h : (withAct .drain (nextOr State.reset (step movRun))).outq ≠ [] := by decide
  obtain ⟨r, rs, e⟩ := List.exists_cons_of_ne_nil h
  exact ⟨r, rs, by decide, e⟩

theorem witness_EmptyBufferSucceeds : (withAct (.writeCsr 0 1) State.reset).runState ≠ .running ∧
    (withAct (.writeCsr 0 1) State.reset).bufLen = 0 ∧
    (withAct (.writeCsr 0 1) State.reset).host.queue = [.writeCsr 0 1] := by decide

/-- A sequence of R206 over TEST_ROM_A: an instruction with a displacement and two data bytes, one without DataHigh, a PUSH. -/
def itemsA : List Item :=
  [⟨2, ⟨0x10, [⟨.literal, 6, 2, 0b100000⟩, ⟨.signExtend, 1, 1, 0⟩, ⟨.width, 1, 0, 0⟩, ⟨.addressingMode, 2, 6, 0⟩,
      ⟨.register, 3, 3, 0⟩, ⟨.registerOrMemory, 3, 0, 0⟩, ⟨.dataLow, 8, 0, 0⟩, ⟨.dataHigh, 8, 0, 0⟩]⟩,
    { FieldRegs.clear with w := 1, mod := 0b01, rm := 0b111, dlo := 0x01, dhi := 0x02 }, .byte 0xFE⟩,
   ⟨6, ⟨0x14, [⟨.literal, 4, 4, 0b1011⟩, ⟨.width, 1, 3, 0⟩, ⟨.register, 3, 0, 0⟩, ⟨.dataLow, 8, 0, 0⟩, ⟨.dataHigh, 8, 0, 0⟩]⟩,
    { FieldRegs.clear with reg := 0b011, dlo := 0x7F }, .none⟩,
   ⟨1, pushTemplate, { FieldRegs.clear with mod := 0b11 }, .none⟩]

theorem itemsA_bytes : itemsA.flatMap Item.encode = [0x81, 0x47, 0xFE, 0x01, 0x02, 0xB3, 0x7F, 0xFF, 0xF0] := by decide

theorem witness_EncodedTemplatesDecodeBack : ∃ s : State, validRom designA = true ∧ s.runState = .running ∧
    s.host.ready = true ∧ (∀ x ∈ itemsA, x.legal designA = true) ∧
    s.pos.toNat + (itemsA.flatMap Item.encode).length ≤ s.bufLen.toNat ∧
    s.buf.holds s.pos.toNat (itemsA.flatMap Item.encode) ∧ noEarlierAccepts designA s.input s.pos.toNat itemsA = true := by
  refine ⟨runOver [0x81, 0x47, 0xFE, 0x01, 0x02, 0xB3, 0x7F, 0xFF, 0xF0], by decide, rfl, rfl, by decide, ?_, ?_, by decide⟩
  · rw [itemsA_bytes]; decide
  · rw [itemsA_bytes]
    intro k b h
    rcases k with _ | _ | _ | _ | _ | _ | _ | _ | _ | k <;> simp at h <;> subst h <;> decide

theorem witness_BlocksShareNoState : [movRun, State.reset, withAct (.writeBuf 0 7) movRun][0]? = some movRun ∧
    nextIs (stepOf defaultDesign movRun) (fun _ => true) = true ∧
    faultIs (stepOf defaultDesign State.reset) .quiescent = true ∧
    (∃ r, stepOf defaultDesign (withAct (.writeBuf 0 7) movRun) = .refused r) ∧ (1 : Nat) ≠ 0 :=
  ⟨rfl, by decide, by decide, ⟨_, rfl⟩, by decide⟩

end Sys2Proof.Tests
end

/-! SUPPORT and CERTIFICATES. The state and the host port (10_state.md): the invariant over every transition, what each
register reads and takes, and what the host's actions change. -/

section
namespace Sys2Proof.Machine

/-! ### The invariant over the engine step -/

/-- A finished run keeps the invariant: it was RUNNING, so EOI and FAIL_OFFSET are already 0. -/
theorem inv_finishRun {s : State} (hs : s.Inv) (hrun : s.runState = .running) : (finishRun s).Inv :=
  have hno : s.runState ≠ .doneFail := by rw [hrun]; decide
  { hs with
    pos_le := fun h => by simp at h
    eoi_fail := fun h => absurd (hs.eoi_fail h) hno
    offset_fail := fun h => absurd (hs.offset_fail h) hno
    fail_offset := fun h => by simp at h }

/-- The failure entry keeps the invariant: FAIL_OFFSET is POS, and the attempts leave legal hidden registers. -/
theorem inv_noMatchingTemplate {s : State} (hs : s.Inv) : (noMatchingTemplate s).Inv := by
  obtain ⟨⟨hregs, hlen⟩, hti⟩ := tryAll_legal (D := defaultDesign) (inp := s.input) (pos := s.pos) (ts := defaultRom) (i := 0)
    (h := { s.hidden with eoiAcc := false }) ⟨hs.regs_zero, hs.disp_len⟩ (by simpa using hs.ti_lt) (by decide)
  exact { hs with
    pos_le := fun h => by simp [noMatchingTemplate] at h
    eoi_fail := fun _ => rfl
    offset_fail := fun _ => rfl
    fail_offset := fun _ => rfl
    ti_lt := hti
    disp_len := hlen
    regs_zero := hregs }

/-- A meaning keeps the invariant where its instruction is well formed and lies below BUF_LEN. -/
theorem inv_exec {s t : State} {i : Instr} (hs : s.Inv) (hrun : s.runState = .running) (hi : i.wellFormed = true)
    (hfit : s.pos.toNat + byteLength i ≤ s.bufLen.toNat) (h : exec i s = .next t) : t.Inv := by
  cases i with
  | mov w mod reg rm d =>
    rw [(commit_next h).2]
    exact inv_committed hs hrun hfit (by decide) (movRegs_absentZero w mod reg rm) (mov_record_legal s w mod reg rm d hi)
  | push mod rm d =>
    rw [(commit_next h).2]
    exact inv_committed hs hrun hfit (by decide) (pushRegs_absentZero mod rm) (push_record_legal s mod rm d hi)

theorem inv_engineStep {s t : State} (hs : s.Inv) (h : engineStep s = .next t) : t.Inv := by
  obtain ⟨hrun, ⟨-, rfl⟩ | ⟨-, i, rest, hd, he⟩ | ⟨-, -, -, rfl⟩⟩ := engineStep_cases h
  · exact inv_finishRun hs hrun
  · obtain ⟨hfit, hi⟩ := decode_fetch_fits hd
    exact inv_exec hs hrun hi hfit he
  · exact inv_noMatchingTemplate hs

/-! ### The invariant over the host's actions -/

theorem inv_hostWriteBuf {a : Offset} {b : Byte} {s t : State} (hs : s.Inv) (h : hostWriteBuf a b s = .next t) : t.Inv := by
  obtain ⟨-, ha, rfl⟩ := hostWriteBuf_cases h
  exact { hs with buf_wf := Memory.write_wf b ha hs.buf_wf }

/-- BUF_LEN is written only between runs, where nothing binds POS to it (log 13). -/
theorem inv_csrWrite {s : State} (n : Nat) (v : CsrWord) (hs : s.Inv) : (csrWrite n v s).Inv := by
  obtain h | ⟨-, -, -, h⟩ | ⟨-, hrun, h⟩ := csrWrite_cases n v s <;> rw [h]
  · exact hs
  · exact inv_startRun hs
  · exact { hs with pos_le := fun h => absurd h hrun }

theorem inv_hostReadCsr {s : State} (D : Design) (n : Nat) (hs : s.Inv) : (hostReadCsr D n s).Inv := { hs with }

/-- The record in flight is legal: it is OUTQ's head, or the one an engine step with the sink ready commits. -/
theorem recordInFlight_legal {s : State} (hs : s.Inv) {r : Record} (h : recordInFlight engineStep s = some r) :
    r.legal = true := by
  unfold recordInFlight at h
  split at h
  · next r' rs hq =>
    cases h
    exact hs.outq_legal r (by rw [hq]; exact List.mem_cons_self)
  · split at h
    · cases h
    · split at h
      · next t he => exact (inv_engineStep (inv_setReady true hs) he).outq_legal r (List.mem_of_head? h)
      · cases h

theorem inv_resetOf : (State.resetOf 16).Inv where
  buf_wf := rfl
  pos_le := fun h => by simp at h
  count_le := Nat.le_refl 0
  outq_count := Nat.le_refl 0
  eoi_fail := fun h => by simp at h
  offset_fail := fun h => absurd rfl h
  fail_offset := fun h => by simp at h
  ti_lt := by decide
  disp_len := by decide
  regs_zero := by decide
  outq_legal := fun r h => by simp at h
  outq_chain := rfl
  taken_legal := fun r h => by simp at h

theorem inv_hostReset {s : State} (f : Bool) (cells : List Host.Cell) (hs : s.Inv) :
    (hostReset engineStep f cells s).Inv :=
  { inv_resetOf with
    buf_wf := Memory.ofCells_wf 16 cells
    taken_legal := fun r h => by
      obtain h | h := List.mem_append.1 h
      · exact hs.taken_legal r h
      · cases f with
        | false => cases h
        | true => exact recordInFlight_legal hs (Option.mem_toList.1 h) }

theorem inv_hostTurn {D : Design} {act : HostAct} {s t : State} (hs : s.Inv) (h : hostTurn D engineStep act s = .next t) :
    t.Inv := by
  cases act with
  | writeBuf a b => exact inv_hostWriteBuf hs h
  | writeCsr n v => cases h; exact inv_csrWrite n v hs
  | readCsr n => cases h; exact inv_hostReadCsr D n hs
  | setReady r => cases h; exact inv_setReady r hs
  | drain => cases h; exact inv_drain hs
  | reset f cells => cases h; exact inv_hostReset f cells hs
  | engineTurn =>
    obtain rfl | he := engineTurn_cases h
    · exact hs
    · exact inv_engineStep hs he

/-! ### What moves RUN_STATE and POS -/

/-- A transition is an engine step, START, a reset, or leaves RUN_STATE and POS alone (10_state.md R24, R25). -/
theorem step_control_cases {s t : State} (h : step s = .next t) :
    (∃ q, engineStep (withQueue q s) = .next t) ∨
    (∃ v q, s.host.queue = .writeCsr 0 v :: q ∧ v.getLsbD 0 = true ∧ s.runState ≠ .running ∧ t = startRun (withQueue q s)) ∨
    (∃ f cells q, s.host.queue = .reset f cells :: q ∧ t = hostReset engineStep f cells (withQueue q s)) ∨
    (t.runState = s.runState ∧ t.pos = s.pos) := by
  obtain ⟨-, he⟩ | ⟨act, q, hq, ha⟩ := step_cases h
  · exact .inl ⟨s.host.queue, he⟩
  cases act with
  | writeBuf a b =>
    obtain ⟨-, -, rfl⟩ := hostWriteBuf_cases ha
    exact .inr (.inr (.inr ⟨rfl, rfl⟩))
  | writeCsr n v =>
    cases ha
    obtain hw | ⟨rfl, hv, hr, hw⟩ | ⟨-, -, hw⟩ := csrWrite_cases n v (withQueue q s)
    · rw [hw]; exact .inr (.inr (.inr ⟨rfl, rfl⟩))
    · exact .inr (.inl ⟨v, q, hq, hv, hr, hw⟩)
    · rw [hw]; exact .inr (.inr (.inr ⟨rfl, rfl⟩))
  | readCsr n => cases ha; exact .inr (.inr (.inr ⟨rfl, rfl⟩))
  | setReady r => cases ha; exact .inr (.inr (.inr ⟨rfl, rfl⟩))
  | drain =>
    cases ha
    obtain ⟨-, hw⟩ | ⟨_, _, -, hw⟩ := drain_cases (withQueue q s) <;> rw [hw] <;> exact .inr (.inr (.inr ⟨rfl, rfl⟩))
  | reset f cells => cases ha; exact .inr (.inr (.inl ⟨f, cells, q, hq, rfl⟩))
  | engineTurn =>
    obtain rfl | he := engineTurn_cases ha
    · exact .inr (.inr (.inr ⟨rfl, rfl⟩))
    · exact .inl ⟨q, he⟩

/-- A meaning's Commit moves POS by its record's length (42_decode_engine.md R196). -/
theorem exec_commits {i : Instr} {s t : State} (h : exec i s = .next t) :
    ∃ r, t.outq = s.outq ++ [r] ∧ r.offset = s.pos ∧ t.pos = s.pos + r.byteLength.setWidth 16 := by
  obtain ⟨-, tag, ti, regs, d, -, rfl⟩ := exec_cases h
  refine ⟨_, rfl, rfl, ?_⟩
  simp only [committed_pos, attemptDone_pos, recordOf, ceil8_bytes]
  cases d <;> rfl

/-- An engine step that moves POS is a Commit (10_state.md R25). -/
theorem engineStep_pos {s t : State} (h : engineStep s = .next t) (hp : t.pos ≠ s.pos) :
    ∃ r, t.outq = s.outq ++ [r] ∧ r.offset = s.pos ∧ t.pos = s.pos + r.byteLength.setWidth 16 := by
  obtain ⟨-, ⟨-, rfl⟩ | ⟨-, i, rest, -, he⟩ | ⟨-, -, -, rfl⟩⟩ := engineStep_cases h
  · exact absurd rfl hp
  · exact exec_commits he
  · exact absurd rfl hp

/-- What the engine step of any design can do (42_decode_engine.md R198): end the run, commit, or fail, the hidden registers
apart. -/
theorem engineStepOf_cases {w : Nat} {D : Design} {s t : State w} (h : engineStepOf D s = .next t) : s.runState = .running ∧
    (t = finishRun s ∨ (∃ g tag n, t = committed tag n { s with hidden := g }) ∨ ∃ g, t = enterFailure { s with hidden := g }) := by
  unfold engineStepOf at h
  split at h
  swap
  · cases h
  next hr =>
  refine ⟨hr, ?_⟩
  split at h
  · cases h; exact .inl rfl
  · unfold positionStep at h
    split at h
    · next g u _ => exact .inr (.inl ⟨g, u.tag, _, (commit_next h).2⟩)
    · next g _ => cases h; exact .inr (.inr ⟨g, rfl⟩)

/-! ### The host's turn and the registers -/

/-- With a host action queued, a transition is that action. -/
theorem step_of_queue {s : State} {act : HostAct} {q : List HostAct} (h : s.host.queue = act :: q) :
    step s = hostTurn defaultDesign engineStep act (withQueue q s) := by
  rw [step, turn, h]

theorem drain_of_empty {w : Nat} {s : State w} (h : s.outq = []) : drain s = s := by rw [drain, h]

theorem drain_of_cons {w : Nat} {s : State w} {r : Record w} {rs : List (Record w)} (h : s.outq = r :: rs) :
    drain s = { s with outq := rs, host := { s.host with taken := s.host.taken ++ [r] } } := by rw [drain, h]

theorem csrWrite_start {w : Nat} {v : CsrWord} {s : State w} (hv : v.getLsbD 0 = true) (hr : s.runState ≠ .running) :
    csrWrite 0 v s = startRun s := by simp [csrWrite, writeCtrl, hv, hr]

theorem csrWrite_ctrl_zero {w : Nat} {v : CsrWord} (hv : v.getLsbD 0 = false) (s : State w) : csrWrite 0 v s = s := by
  simp only [csrWrite, writeCtrl, hv, Bool.false_and, Bool.false_eq_true, if_false]

theorem csrWrite_bufLen {w : Nat} (v : CsrWord) {s : State w} (hr : s.runState ≠ .running) :
    csrWrite 2 v s = { s with bufLen := v.setWidth w } := by simp [csrWrite, writeBufLen, hr]

theorem csrWrite_bufLen_running {w : Nat} (v : CsrWord) {s : State w} (hr : s.runState = .running) :
    csrWrite 2 v s = s := by simp [csrWrite, writeBufLen, hr]

theorem toNat_append_add {m n : Nat} (x : BitVec m) (y : BitVec n) : (x ++ y).toNat = x.toNat * 2 ^ n + y.toNat := by
  rw [BitVec.toNat_append, ← Nat.shiftLeft_add_eq_or_of_lt y.isLt, Nat.shiftLeft_eq]

/-- An offset register reads with zeros above its 16 bits (10_state.md R44 to R47). -/
theorem offsetWord_toNat (x : Offset) : (x.setWidth 32 : CsrWord).toNat = x.toNat :=
  BitVec.toNat_setWidth_of_le (by decide)

/-- ROM_INFO where both its fields hold their numbers (10_state.md R48). -/
theorem romInfo_toNat {rom : List Template} (hn : rom.length ≤ 31) (hl : lMax rom ≤ 15) :
    (romInfo rom).toNat = rom.length + 256 * lMax rom := by
  simp only [romInfo, toNat_append_add, BitVec.toNat_ofNat]
  omega

theorem romInfo_defaultRom : romInfo defaultRom = 0x402 := by decide

/-- A valid ROM is within the design's capacity and the record's length field (30_encoding.md R98). -/
theorem validRom_size {D : Design} (h : validRom D = true) : D.rom.length ≤ D.maxTemplates ∧ lMax D.rom ≤ 15 := by
  have hs := (validRom_iff.1 h).2
  simp only [romSizeOk, Bool.and_eq_true, decide_eq_true_eq] at hs
  exact ⟨hs.1.2, hs.2⟩

/-- STATUS as a number (10_state.md R43). -/
theorem statusWord_toNat {w : Nat} (s : State w) :
    (statusWord s).toNat = (runCode s.runState).toNat + (if s.eoi then 4 else 0) := by
  simp only [statusWord, toNat_append_add, BitVec.toNat_ofBool]
  cases s.eoi <;> simp [Nat.add_comm]

theorem statusWord_eoi {w : Nat} (s : State w) : (statusWord s).getLsbD 2 = s.eoi := by
  simp only [statusWord, BitVec.getLsbD_append]
  simp

end Sys2Proof.Machine

namespace Sys2Proof.Proofs
open Sys2Proof.Machine

/-- Settles O13, over the two kinds of transition: an engine step, and one action of the host. -/
theorem stepKeepsInvariant : Obligations.StepKeepsInvariant := by
  intro s t hs h
  obtain ⟨-, he⟩ | ⟨act, q, -, ha⟩ := step_cases h
  · exact inv_engineStep hs he
  · exact inv_hostTurn (inv_queue q hs) ha

/-- Settles O27, over the three things an engine step can do. -/
theorem engineStepKeepsBufAndHost : Obligations.EngineStepKeepsBufAndHost := by
  intro w D s t h
  obtain ⟨hr, rfl | ⟨g, tag, n, rfl⟩ | ⟨g, rfl⟩⟩ := engineStepOf_cases h
  · exact ⟨rfl, rfl, rfl, .inr (.inl rfl), fun _ => ⟨rfl, rfl⟩, fun _ => ⟨rfl, rfl, rfl⟩⟩
  · exact ⟨rfl, rfl, rfl, .inl hr, fun _ => ⟨rfl, rfl⟩, fun hn => absurd hr hn⟩
  · exact ⟨rfl, rfl, rfl, .inr (.inr rfl), fun hn => absurd rfl hn, fun _ => ⟨rfl, rfl, rfl⟩⟩

/-- Settles O29: of the transitions that change RUN_STATE, an engine step starts from RUNNING, START needs the host's write
and leads to RUNNING, and reset leads to IDLE. -/
theorem onlyStartBeginsARun : Obligations.OnlyStartBeginsARun := by
  intro s t h
  obtain ⟨q, he⟩ | ⟨v, q, hq, hv, -, rfl⟩ | ⟨f, cells, q, -, rfl⟩ | ⟨hr, -⟩ := step_control_cases h
  · have hrun : s.runState = .running := (engineStep_cases he).1
    exact ⟨fun _ => .inl hrun, fun _ _ => hrun⟩
  · exact ⟨fun _ => .inr ⟨v, q, hq, hv⟩, fun ht => by simp [State.terminal] at ht⟩
  · exact ⟨fun ht => by simp [hostReset] at ht, fun ht => by simp [hostReset, State.terminal] at ht⟩
  · exact ⟨fun ht => .inl (hr ▸ ht), fun _ hne => absurd hr hne⟩

/-- Settles O30: an engine step that moves POS is a Commit; beside it only START and reset write POS. -/
theorem onlyCommitStartAndResetMovePos : Obligations.OnlyCommitStartAndResetMovePos := by
  intro s t h hp
  obtain ⟨q, he⟩ | ⟨v, q, hq, hv, hr, rfl⟩ | ⟨f, cells, q, hq, rfl⟩ | ⟨-, hk⟩ := step_control_cases h
  · exact .inl (engineStep_pos (s := withQueue q s) he hp)
  · exact .inr (.inl ⟨rfl, hr, v, q, hq, hv⟩)
  · exact .inr (.inr ⟨rfl, f, cells, q, hq⟩)
  · exact absurd hk hp

/-- Settles O54: a valid ROM's NT and L_MAX fit their fields. -/
theorem romInfoRegister : Obligations.RomInfoRegister := by
  intro D v s s'
  refine ⟨fun hv hm => ?_, rfl, rfl, romInfo_defaultRom⟩
  obtain ⟨hn, hl⟩ := validRom_size hv
  exact romInfo_toNat (hn.trans hm) hl

/-- Settles O56, over the three answers to a host write of BUF. -/
theorem hostWritesBufBetweenRuns : Obligations.HostWritesBufBetweenRuns := by
  intro s a b q hq
  rw [step_of_queue hq]
  refine ⟨fun hr ha => ⟨s.buf.write a.toNat b, ?_, fun hwf => Memory.read_write_same b hwf,
    fun a' h => Memory.read_write_other b s.buf h⟩, fun hr => ?_, fun hr ha => ?_⟩
  · exact (if_neg hr).trans (if_pos ha)
  · exact if_pos hr
  · exact (if_neg hr).trans (if_neg (by rw [ha]; decide))

/-- Settles O14: the reset state is the default block's, which meets every part of the invariant. -/
theorem resetMeetsInvariant : Obligations.ResetMeetsInvariant := inv_resetOf

/-- Settles O45: the fields by definition, the field registers key by key, the CSRs by evaluation. -/
theorem resetValues : Obligations.ResetValues := by
  refine ⟨rfl, rfl, rfl, rfl, rfl, rfl, fun k => ?_, rfl, rfl, rfl, rfl, rfl, rfl, rfl, by decide⟩
  cases k <;> decide

/-- Settles O49: a write of CTRL depends on bit 0 alone. -/
theorem ctrlRegister : Obligations.CtrlRegister := by
  intro D v s
  refine ⟨fun hv => csrWrite_ctrl_zero hv s, ?_, fun hv hr => ?_, rfl⟩
  · simp [csrWrite, writeCtrl]
  · rw [csrWrite_start hv hr, startRun_runState]

/-- Settles O50: STATUS is EOI over RUN_STATE, and the invariant keeps EOI 0 outside DONE_FAIL. -/
theorem statusRegister : Obligations.StatusRegister := by
  intro D v s
  refine ⟨?_, rfl, rfl, fun hs hr => ?_⟩
  · refine (statusWord_toNat s).trans (congrArg (· + _) ?_)
    cases s.runState <;> rfl
  · refine (statusWord_eoi s).trans ?_
    exact Bool.eq_false_iff.2 fun he => hr (hs.eoi_fail he)

/-- Settles O52: 16 of the word's bits are BUF_LEN's. -/
theorem bufLenRegister : Obligations.BufLenRegister := by
  intro D v s
  refine ⟨offsetWord_toNat s.bufLen, fun hr => ?_, csrWrite_bufLen_running v, rfl⟩
  rw [csrWrite_bufLen v hr, BitVec.setWidth_eq_extractLsb' (by decide)]

/-- Settles O53: each register is an offset, and no write reaches it. -/
theorem readOnlyRegisters : Obligations.ReadOnlyRegisters :=
  fun _ _ s => ⟨offsetWord_toNat s.pos, offsetWord_toNat s.failOffset, offsetWord_toNat s.instCount,
    rfl, rfl, rfl, rfl, rfl, rfl⟩

/-- Settles O55: both accesses are one action of the host's queue. -/
theorem csrAccessRules : Obligations.CsrAccessRules := by
  intro s n v
  refine ⟨fun hn => ?_, fun h0 h2 => ?_, fun q hq => step_of_queue hq, fun q hq => step_of_queue hq⟩
  · obtain ⟨k, rfl⟩ := Nat.exists_eq_add_of_le' hn
    rfl
  · obtain h | ⟨h, -⟩ | ⟨h, -⟩ := csrWrite_cases n v s
    · exact h
    · exact absurd h h0
    · exact absurd h h2

/-- Settles O57: each clause is one action of the host's queue. -/
theorem hostDrainsFromTheHead : Obligations.HostDrainsFromTheHead := by
  intro s q
  refine ⟨fun r rs hq ho => ?_, fun hq ho => ?_, fun b hq => step_of_queue hq⟩
  · exact (step_of_queue hq).trans (congrArg Host.Outcome.next (drain_of_cons (s := withQueue q s) ho))
  · exact (step_of_queue hq).trans (congrArg Host.Outcome.next (drain_of_empty (s := withQueue q s) ho))

end Sys2Proof.Proofs
end

/-! SUPPORT and CERTIFICATES. No byte at or past BUF_LEN is read (20_memory.md R61, 42_decode_engine.md R205): replacing such
bytes changes no request of the cursor and no fetch, and so neither an attempt nor the step. -/

section
namespace Sys2Proof.Machine

section replaced
variable {w : Nat} {inp : Input w} {m : Memory} (hm : ∀ a, a < inp.bufLen.toNat → m.read a = inp.buf.read a)
include hm

/-! ### The two readers of BUF -/

/-- A request that the remaining bits meet reads only bits below BUF_LEN. -/
theorem peekBits_replaced : peekBits { inp with buf := m } = peekBits inp := by
  funext c n
  by_cases hn : remaining inp c < n.val
  · rw [peekBits_eq_none.2 hn]
    exact peekBits_eq_none.2 hn
  · rw [peekBits_eq_some.2 ⟨Nat.le_of_not_lt hn, rfl⟩]
    refine peekBits_eq_some.2 ⟨Nat.le_of_not_lt hn, BitVec.eq_of_getLsbD_eq fun j hj => ?_⟩
    rw [gatherBits_getLsbD _ _ _ _ _ hj, gatherBits_getLsbD _ _ _ _ _ hj]
    by_cases hjn : j < n.val
    · have hbyte : (c.position + (n.val - 1 - j)) / 8 < inp.bufLen.toNat := by unfold remaining at hn; omega
      rw [if_pos hjn, if_pos hjn, streamBit, streamBit, hm _ hbyte]
    · rw [if_neg hjn, if_neg hjn]

theorem consumeBits_replaced : consumeBits { inp with buf := m } = consumeBits inp := by
  funext c n
  rw [consumeBits, consumeBits, peekBits_replaced hm]

theorem fetchFrom_replaced (a n : Nat) : fetchFrom { inp with buf := m } a n = fetchFrom inp a n := by
  induction n generalizing a with
  | zero => rfl
  | succ n ih =>
    by_cases ha : a < inp.bufLen.toNat
    · rw [fetchFrom_in n ha, ← hm a ha, ← ih]
      exact fetchFrom_in n ha
    · rw [fetchFrom_past _ (Nat.le_of_not_lt ha)]
      exact fetchFrom_past _ (Nat.le_of_not_lt ha)

/-! ### The attempt reads BUF through the cursor alone -/

theorem readField_replaced (k : Key) (n : Fin 17) (h : Hidden w) :
    readField { inp with buf := m } k n h = readField inp k n h := by
  rw [readField, readField, consumeBits_replaced hm]

theorem literalElement_replaced (n : BitVec 4) (x : BitVec 8) (h : Hidden w) :
    literalElement { inp with buf := m } n x h = literalElement inp n x h := by
  rw [literalElement, literalElement, consumeBits_replaced hm]

theorem element_replaced (d : Descriptor) (h : Hidden w) : element { inp with buf := m } d h = element inp d h := by
  simp only [element, readField_replaced hm, literalElement_replaced hm]

theorem dispExt_replaced (esc : BitVec 3) (h : Hidden w) : dispExt esc { inp with buf := m } h = dispExt esc inp h := by
  simp only [dispExt, consumeBits_replaced hm]

theorem runElements_replaced (esc : BitVec 3) (mT : Option Nat) (ds : List Descriptor) (i : Nat) (h : Hidden w) :
    runElements esc { inp with buf := m } mT ds i h = runElements esc inp mT ds i h := by
  induction ds generalizing i h with
  | nil => rfl
  | cons d ds ih => simp only [runElements, element_replaced hm, dispExt_replaced hm, ih]

theorem tryTemplate_replaced (D : Design) (pos : Offset w) (t : Template) (h : Hidden w) :
    tryTemplate D { inp with buf := m } pos t h = tryTemplate D inp pos t h :=
  runElements_replaced hm ..

theorem tryAll_replaced (D : Design) (pos : Offset w) (ts : List Template) (i : Nat) (h : Hidden w) :
    tryAll D { inp with buf := m } pos ts i h = tryAll D inp pos ts i h := by
  induction ts generalizing i h with
  | nil => rfl
  | cons t ts ih => simp only [tryAll, tryTemplate_replaced hm, ih]

end replaced

/-! ### The engine step -/

theorem commit_replaceBuf {w : Nat} (m : Memory) (tag : BitVec 8) (n : Nat) (s : State w) :
    commit tag n { s with buf := m } = replaceBuf m (commit tag n s) := by
  cases hr : s.host.ready with
  | true => rw [commit_ready tag n hr]; exact commit_ready tag n hr
  | false => rw [commit_hold tag n hr]; exact commit_hold tag n hr

theorem exec_replaceBuf (m : Memory) (i : Instr) (s : State) : exec i { s with buf := m } = replaceBuf m (exec i s) := by
  cases i with
  | mov w mod reg rm d => exact commit_replaceBuf m _ _ (attemptDone 0 (movRegs w mod reg rm) d s)
  | push mod rm d => exact commit_replaceBuf m _ _ (attemptDone 1 (pushRegs mod rm) d s)

section state
variable {s : State} {m : Memory} (hm : ∀ a, a < s.bufLen.toNat → m.read a = s.buf.read a)
include hm

theorem fetchBytes_replaced : ({ s with buf := m } : State).fetchBytes = s.fetchBytes :=
  fetchFrom_replaced (inp := s.input) hm ..

theorem attempts_replaced (D : Design) : attempts D { s with buf := m } = attempts D s :=
  tryAll_replaced (inp := s.input) hm ..

theorem noMatchingTemplate_replaced : noMatchingTemplate { s with buf := m } = { noMatchingTemplate s with buf := m } := by
  rw [noMatchingTemplate, attempts_replaced hm]
  rfl

theorem engineStep_replaced : engineStep { s with buf := m } = replaceBuf m (engineStep s) := by
  unfold engineStep
  rw [fetchBytes_replaced hm, noMatchingTemplate_replaced hm]
  split
  · split
    · rfl
    · split
      · exact exec_replaceBuf m _ s
      · rfl
  · rfl

end state

end Sys2Proof.Machine

namespace Sys2Proof.Proofs
open Sys2Proof.Machine

/-- Settles O28: with no host action queued, the step is an engine step. -/
theorem stepReadsOnlyBelowBufLen : Obligations.StepReadsOnlyBelowBufLen := by
  intro s m hq hm
  simp only [step, turn, hq]
  exact engineStep_replaced hm

end Sys2Proof.Proofs
end

/-! SUPPORT and CERTIFICATES. The encoding (30_encoding.md): the decoder against the encoder and the opcode map (R104, R110,
R111), what the machine does with bytes that spell no instruction, and the ROM with its image (R84, R89, R100 to R103). -/

section
namespace Sys2Proof.Machine

/-! ### The displacement at the head of a byte list -/

theorem encodeDisp_length (d : Disp) : (encodeDisp d).length = dispBytes d := by cases d <;> rfl

theorem dispBytes_eq_toNat (d : Disp) : dispBytes d = (dispLenOf d).toNat := by cases d <;> rfl

theorem takeDisp_encodeDisp (d : Disp) (rest : List Byte) : takeDisp (dispLenOf d) (encodeDisp d ++ rest) = some (d, rest) := by
  cases d with
  | none => rfl
  | byte lo => rfl
  | word v =>
    have hv : v.extractLsb' 8 8 ++ v.extractLsb' 0 8 = v := by
      rw [BitVec.extractLsb'_append_extractLsb'_eq_extractLsb' (start₁ := 0) (len₁ := 8) rfl]
      exact BitVec.extractLsb'_eq_self
    change some (Disp.word (v.extractLsb' 8 8 ++ v.extractLsb' 0 8), rest) = _
    rw [hv]

theorem encodeDisp_word (hi lo : Byte) : encodeDisp (.word (hi ++ lo)) = [lo, hi] := by
  have hlo : (hi ++ lo : BitVec 16).extractLsb' 0 8 = lo := BitVec.extractLsb'_append_eq_right
  have hhi : (hi ++ lo : BitVec 16).extractLsb' 8 8 = hi := BitVec.extractLsb'_append_eq_left
  rw [encodeDisp, hlo, hhi]

/-- takeDisp undoes encodeDisp, and finds nothing else. -/
theorem takeDisp_eq_some {n : BitVec 2} {bs rest : List Byte} {d : Disp} :
    takeDisp n bs = some (d, rest) ↔ dispLenOf d = n ∧ bs = encodeDisp d ++ rest := by
  constructor
  · intro h
    unfold takeDisp at h
    split at h
    · next hn => cases h; exact ⟨BitVec.eq_of_toNat_eq hn.symm, rfl⟩
    · next hn => cases h; exact ⟨BitVec.eq_of_toNat_eq hn.symm, rfl⟩
    · next hn => cases h; exact ⟨BitVec.eq_of_toNat_eq hn.symm, by rw [encodeDisp_word]; rfl⟩
    · cases h
  · rintro ⟨rfl, rfl⟩
    exact takeDisp_encodeDisp d rest

/-- Where the bytes MOD and RM ask for are there, takeDisp takes that many. -/
theorem takeDisp_of_length {n : BitVec 2} {bs : List Byte} (hn : n = 0#2 ∨ n = 1#2 ∨ n = 2#2) (h : n.toNat ≤ bs.length) :
    ∃ d, takeDisp n bs = some (d, bs.drop n.toNat) ∧ dispBytes d = n.toNat := by
  obtain rfl | rfl | rfl := hn
  · exact ⟨.none, rfl, rfl⟩
  · match bs, h with
    | lo :: rest, _ => exact ⟨.byte lo, rfl, rfl⟩
  · match bs, h with
    | lo :: hi :: rest, _ => exact ⟨.word (hi ++ lo), rfl, rfl⟩

/-- A displacement taken off a byte list was all there. -/
theorem takeDisp_length {n : BitVec 2} {bs rest : List Byte} {d : Disp} (h : takeDisp n bs = some (d, rest)) :
    n.toNat ≤ bs.length := by
  obtain ⟨rfl, rfl⟩ := takeDisp_eq_some.1 h
  rw [← dispBytes_eq_toNat, ← encodeDisp_length, List.length_append]
  exact Nat.le_add_right ..

/-- The default design's DispLen as the number the opcode map gives (30_encoding.md R107). -/
theorem dispLen_toNat (mod : BitVec 2) (rm : BitVec 3) : (dispLen directAddrRm mod rm).toNat =
    if mod = 0 then (if rm = 6 then 2 else 0) else if mod = 1 then 1 else if mod = 2 then 2 else 0 := by
  revert mod rm; decide

/-! ### The two opcode bytes and the ModRM byte (30_encoding.md R104, R105) -/

theorem isMovByte_iff {b : Byte} : isMovByte b = true ↔ b = 0xC6 ∨ b = 0xC7 := by revert b; decide

theorem isPushByte_iff {b : Byte} : isPushByte b = true ↔ b = 0xFF := beq_iff_eq

theorem isMovByte_encoded (w : BitVec 1) : isMovByte (0b1100011#7 ++ w) = true := by revert w; decide

theorem movByte_width (w : BitVec 1) : (0b1100011#7 ++ w : Byte).extractLsb' 0 1 = w := BitVec.extractLsb'_append_eq_right

theorem movByte_of_width {b : Byte} (h : isMovByte b = true) : (0b1100011#7 ++ b.extractLsb' 0 1 : Byte) = b := by
  revert b; decide

theorem modrm_fields (mod : BitVec 2) (reg rm : BitVec 3) :
    (mod ++ reg ++ rm : Byte).extractLsb' 6 2 = mod ∧ (mod ++ reg ++ rm : Byte).extractLsb' 3 3 = reg ∧
    (mod ++ reg ++ rm : Byte).extractLsb' 0 3 = rm := by
  revert mod reg rm; decide

theorem modrm_of_fields (b : Byte) : (b.extractLsb' 6 2 ++ b.extractLsb' 3 3 ++ b.extractLsb' 0 3 : Byte) = b := by
  revert b; decide

/-! ### What the decoder accepts (30_encoding.md R110, R111) -/

theorem decode_mov {b0 : Byte} (b1 : Byte) (tl : List Byte) (h : isMovByte b0 = true) : decode (b0 :: b1 :: tl) =
    withDisp (b1.extractLsb' 6 2) (b1.extractLsb' 0 3) tl
      (fun d => .mov (b0.extractLsb' 0 1) (b1.extractLsb' 6 2) (b1.extractLsb' 3 3) (b1.extractLsb' 0 3) d) := by
  rw [decode_two, if_pos h]

theorem decode_push {b1 : Byte} (tl : List Byte) (h : b1.extractLsb' 3 3 = 0b110#3) : decode (0xFF :: b1 :: tl) =
    withDisp (b1.extractLsb' 6 2) (b1.extractLsb' 0 3) tl (fun d => .push (b1.extractLsb' 6 2) (b1.extractLsb' 0 3) d) := by
  rw [decode_two, if_neg (by decide), if_pos (by decide), if_pos (beq_iff_eq.2 h)]

theorem decode_singleton (b : Byte) : ∃ r, decode [b] = .reject r := by
  by_cases h : (isMovByte b || isPushByte b) = true
  · exact ⟨_, if_pos h⟩
  · exact ⟨_, if_neg h⟩

/-- An accepted byte list is an opcode byte, a ModRM byte, PUSH's with 110 in bits 5:3, and the displacement it selects. -/
theorem decode_ok_cases {bs rest : List Byte} {i : Instr} (h : decode bs = .ok i rest) :
    ∃ b0 b1 tl d, bs = b0 :: b1 :: tl ∧
      takeDisp (dispLen directAddrRm (b1.extractLsb' 6 2) (b1.extractLsb' 0 3)) tl = some (d, rest) ∧
      ((isMovByte b0 = true ∧
          i = .mov (b0.extractLsb' 0 1) (b1.extractLsb' 6 2) (b1.extractLsb' 3 3) (b1.extractLsb' 0 3) d) ∨
       (b0 = 0xFF ∧ b1.extractLsb' 3 3 = 0b110#3 ∧ i = .push (b1.extractLsb' 6 2) (b1.extractLsb' 0 3) d)) := by
  match bs with
  | [] => cases h
  | [b] =>
    obtain ⟨r, hr⟩ := decode_singleton b
    cases hr.symm.trans h
  | b0 :: b1 :: tl =>
    rw [decode_two] at h
    split_ifs at h with hm hp hs
    · obtain ⟨d, hd, hi⟩ := withDisp_ok.1 h
      exact ⟨b0, b1, tl, d, rfl, hd, .inl ⟨hm, hi⟩⟩
    · obtain ⟨d, hd, hi⟩ := withDisp_ok.1 h
      exact ⟨b0, b1, tl, d, rfl, hd, .inr ⟨isPushByte_iff.1 hp, beq_iff_eq.1 hs, hi⟩⟩

/-- withDisp accepts where the displacement is all there. -/
theorem withDisp_of_length {mod : BitVec 2} {rm : BitVec 3} {bs : List Byte} (mk : Disp → Instr)
    (h : (dispLen directAddrRm mod rm).toNat ≤ bs.length) :
    ∃ d, withDisp mod rm bs mk = .ok (mk d) (bs.drop (dispLen directAddrRm mod rm).toNat) ∧
      dispBytes d = (dispLen directAddrRm mod rm).toNat := by
  obtain ⟨d, hd, hn⟩ := takeDisp_of_length (dispLen_cases directAddrRm mod rm) h
  exact ⟨d, withDisp_ok.2 ⟨d, hd, rfl⟩, hn⟩

/-! ### Bytes that spell no instruction -/

theorem step_of_no_host_action {s : State} (h : s.host.queue = []) : step s = engineStep s := by
  rw [step, turn, h]

theorem engineStep_of_reject {s : State} {r : Reject} (hr : s.runState = .running) (hp : s.pos ≠ s.bufLen)
    (hd : decode s.fetchBytes = .reject r) : engineStep s = .next (noMatchingTemplate s) := by
  rw [engineStep, if_pos hr, if_neg hp, hd]

/-! ### The ROM image (30_encoding.md R84) -/

theorem imageErrors_eq_nil {im : TemplateImage} : imageErrors im = [] ↔
    reservedBitsZero im = true ∧ (im.header.extractLsb' 0 4).toNat = im.words.length ∧ ceKind im = true := by
  simp [imageErrors, List.filterMap_eq_nil_iff]

theorem check_kind_mem_imageErrors {im : TemplateImage} (h : ceKind im = false) : RomError.check .kind ∈ imageErrors im := by
  simp [imageErrors, h]

theorem reservedBitsZero_templateImage (t : Template) : reservedBitsZero (templateImage t) = true := by
  simp [reservedBitsZero, templateImage, templateHeader_fields, descriptorWord_fields]

theorem ceKind_templateImage (t : Template) : ceKind (templateImage t) = true := by
  simp [ceKind, templateImage, descriptorWord_fields, kindOfCode_kindCode]

/-- The header's nf is the number of fields, where its 4 bits hold it (log 14). -/
theorem templateHeader_count {t : Template} (h : t.fields.length ≤ 15) :
    ((templateHeader t).extractLsb' 0 4).toNat = t.fields.length := by
  rw [(templateHeader_fields t).2.2, BitVec.toNat_ofNat, Nat.mod_eq_of_lt (by omega)]

theorem imageTemplate_templateImage (t : Template) : imageTemplate (templateImage t) = t := by
  have hw : (t.fields.map descriptorWord).filterMap readDescriptor = t.fields := by
    rw [List.filterMap_map, show readDescriptor ∘ descriptorWord = some from funext readDescriptor_word, List.filterMap_some]
  rw [imageTemplate, templateImage, hw, (templateHeader_fields t).1]

theorem imageErrors_templateImage {t : Template} (h : t.fields.length ≤ 15) : imageErrors (templateImage t) = [] :=
  imageErrors_eq_nil.2 ⟨reservedBitsZero_templateImage t,
    (templateHeader_count h).trans (List.length_map _).symm, ceKind_templateImage t⟩

theorem readTemplate_templateImage {t : Template} (h : t.fields.length ≤ 15) : readTemplate (templateImage t) = .ok t := by
  rw [readTemplate, imageErrors_templateImage h, imageTemplate_templateImage]

/-- A whole ROM of such templates reads back from its image. -/
theorem readRom_templateImages {rom : List Template} (h : ∀ t ∈ rom, t.fields.length ≤ 15) :
    readRom (rom.map templateImage) = .ok rom := by
  have he : failuresFrom imageErrors 0 (rom.map templateImage) = [] :=
    failuresFrom_eq_nil.2 (List.forall_mem_map.2 fun t ht => imageErrors_templateImage (h t ht))
  rw [readRom, he, List.map_map, show imageTemplate ∘ templateImage = id from funext imageTemplate_templateImage, List.map_id]

/-! ### Construction (30_encoding.md R100) -/

theorem stepOf_of_valid {w : Nat} {D : Design} (h : validRom D = true) (s : State w) :
    stepOf D s = turn D (engineStepOf D) s := by
  rw [stepOf, List.isEmpty_iff.1 h]

theorem stepOf_of_failures {w : Nat} {D : Design} (h : romFailures D ≠ []) (s : State w) :
    stepOf D s = .refused (.invalidRom (romFailures D)) := by
  unfold stepOf
  split
  · next he => exact absurd he h
  · rfl

theorem stepOfImage_of_errors {w : Nat} {D : Design} {ims : List TemplateImage} (h : romImageErrors D ims ≠ []) (s : State w) :
    stepOfImage D ims s = .refused (.invalidImage (romImageErrors D ims)) := by
  have hc : constructDesign D ims = .error (romImageErrors D ims) := by
    unfold constructDesign
    split
    · next he => exact absurd he h
    · rfl
  rw [stepOfImage, hc]

/-- What makes an image no template is listed for it. -/
theorem imageErrors_subset_templateErrors (D : Design) (im : TemplateImage) : imageErrors im ⊆ templateErrors D im := by
  intro e he
  unfold templateErrors
  split
  · next h => rw [h] at he; cases he
  · exact he

/-- An invalid kind code is a failed CE_KIND (30_encoding.md R89). -/
theorem ceKind_of_invalid_code {im : TemplateImage} {word : BitVec 20} (hw : word ∈ im.words)
    (hc : 12 < (word.extractLsb' 16 4).toNat) : ceKind im = false := by
  refine List.all_eq_false.2 ⟨word, hw, ?_⟩
  rw [kindOfCode_none.2 hc]
  decide

/-- An error of image k is listed for the ROM at index k. -/
theorem mem_romImageErrors {D : Design} {ims : List TemplateImage} {k : Nat} {im : TemplateImage} {e : RomError}
    (hk : ims[k]? = some im) (he : e ∈ imageErrors im) : (k, e) ∈ romImageErrors D ims :=
  List.mem_append_left _ <| mem_failuresFrom.2
    ⟨k, im, hk, (Nat.zero_add k).symm, imageErrors_subset_templateErrors D im he⟩

end Sys2Proof.Machine

namespace Sys2Proof.Proofs
open Sys2Proof.Machine

/-- Settles O2, over the two instructions: the opcode byte and the ModRM byte give back the fields, and the well-formed
displacement has the length they select. -/
theorem decodeOfEncode : Obligations.DecodeOfEncode := by
  intro i rest hi
  cases i with
  | mov w mod reg rm d =>
    obtain ⟨hmod, hreg, hrm⟩ := modrm_fields mod reg rm
    refine (decode_mov _ _ (isMovByte_encoded w)).trans ?_
    rw [hmod, hreg, hrm, movByte_width]
    exact withDisp_ok.2 ⟨d, takeDisp_eq_some.2 ⟨fits_iff.1 hi, rfl⟩, rfl⟩
  | push mod rm d =>
    obtain ⟨hmod, hreg, hrm⟩ := modrm_fields mod 0b110 rm
    refine (decode_push _ hreg).trans ?_
    rw [hmod, hrm]
    exact withDisp_ok.2 ⟨d, takeDisp_eq_some.2 ⟨fits_iff.1 hi, rfl⟩, rfl⟩

/-- Settles O3: the accepted bytes are an opcode byte, a ModRM byte and a displacement, each the encoding of what was read
from it. -/
theorem encodeOfDecode : Obligations.EncodeOfDecode := by
  intro bs i rest h
  obtain ⟨b0, b1, tl, d, rfl, hd, hi⟩ := decode_ok_cases h
  obtain ⟨hfit, rfl⟩ := takeDisp_eq_some.1 hd
  have hmodrm := modrm_of_fields b1
  obtain ⟨hm, rfl⟩ | ⟨rfl, hs, rfl⟩ := hi
  · refine ⟨fits_iff.2 hfit, ?_⟩
    rw [encode, movByte_of_width hm, hmodrm]
    rfl
  · refine ⟨fits_iff.2 hfit, ?_⟩
    rw [hs] at hmodrm
    rw [encode, hmodrm]
    rfl

/-- Settles O4: n is DispLen of the second byte's fields, and an accepted sequence has n bytes after it. -/
theorem acceptedByteSequences : Obligations.AcceptedByteSequences := by
  intro b0 b1 tl mod rm n
  have hn : n = (dispLen directAddrRm mod rm).toNat := (dispLen_toNat mod rm).symm
  clear_value n
  subst hn
  refine ⟨fun h0 hl => ?_, fun h0 h1 hl => ?_, fun hno => ?_, decode_singleton b0, _, rfl⟩
  · rw [decode_mov b1 tl (isMovByte_iff.2 h0)]
    exact withDisp_of_length _ hl
  · rw [h0, decode_push tl h1]
    exact withDisp_of_length _ hl
  · cases hd : decode (b0 :: b1 :: tl) with
    | reject r => exact ⟨r, rfl⟩
    | ok i rest =>
      obtain ⟨c0, c1, tl', d, hbs, ht, hop⟩ := decode_ok_cases hd
      cases hbs
      obtain ⟨hm, -⟩ | ⟨hp, hs, -⟩ := hop
      · exact absurd ⟨.inl (isMovByte_iff.1 hm), takeDisp_length ht⟩ hno
      · exact absurd ⟨.inr ⟨hp, hs⟩, takeDisp_length ht⟩ hno

/-- Settles O17: the step enters the failure state, with the EOI_ACC the failed attempts leave. -/
theorem rejectedBytesFailTheRun : Obligations.RejectedBytesFailTheRun := by
  intro s r hr hp hq hd
  refine ⟨(attempts defaultDesign s).1, ?_⟩
  rw [step_of_no_host_action hq, engineStep_of_reject hr hp hd, ← (attempts_of_reject hd).2]
  rfl

/-- Settles O43, from the words of the image one by one. -/
theorem templateImageRoundTrip : Obligations.TemplateImageRoundTrip :=
  fun _ => readTemplate_templateImage

/-- Settles O1, by evaluating the decoder on each sequence. -/
theorem writtenWordsDecode : Obligations.WrittenWordsDecode := by
  refine ⟨?_, ?_, ?_, ?_, ?_, ?_, ?_, ?_⟩ <;> decide

/-- Settles O42: the ROM reads back by the round trip of its templates; the rest is evaluation. -/
theorem defaultRomImage : Obligations.DefaultRomImage :=
  ⟨by decide, by decide, readRom_templateImages (by decide), by decide, by decide⟩

/-- Settles O44: a failed check, or an image that is no template, leaves the list of failures not empty. -/
theorem invalidRomHasNoRun : Obligations.InvalidRomHasNoRun := by
  intro w D s
  refine ⟨fun hv => ?_, fun hv => stepOf_of_valid hv s, fun ims k im word hk hw hc => ?_⟩
  · have hf : romFailures D ≠ [] := by simpa [validRom] using hv
    exact ⟨hf, stepOf_of_failures hf s⟩
  · have hmem : (k, RomError.check .kind) ∈ romImageErrors D ims :=
      mem_romImageErrors hk (check_kind_mem_imageErrors (ceKind_of_invalid_code hw hc))
    exact ⟨_, stepOfImage_of_errors (List.ne_nil_of_mem hmem) s, hmem⟩

end Sys2Proof.Proofs
end

/-! SUPPORT and CERTIFICATES. The bit cursor (40_bit_cursor.md): which stream bits a request gives, and its value in the
hardware form, inside one byte and across two (R132 to R135, R139). -/

section
namespace Sys2Proof.Machine

variable {w : Nat}

/-- The bits that remain at a cursor given by its byte and its bit (R131). -/
theorem remaining_mk (inp : Input w) (b : Offset w) (c : BitVec 3) :
    remaining inp ⟨b, c⟩ = 8 * inp.bufLen.toNat - (8 * b.toNat + c.toNat) := rfl

/-! ### The bits of a request (40_bit_cursor.md R132) -/

theorem Cursor.bit_toNat (c : Cursor w) : c.bit.toNat = c.position % 8 := by
  have hk := c.bit.isLt
  unfold Cursor.position
  omega

/-- The k-th bit read stands k places below the top of the n. -/
theorem gatherBits_getLsbD_read {m : Memory} {p n k : Nat} (hn : n ≤ 16) (hk : k < n) :
    (gatherBits m p n 0).getLsbD (n - 1 - k) = streamBit m (p + k) := by
  rw [gatherBits_getLsbD _ _ _ _ _ (by omega), if_pos (by omega), show n - 1 - (n - 1 - k) = k by omega]

theorem gatherBits_getLsbD_above {m : Memory} {p n j : Nat} (hj : n ≤ j) : (gatherBits m p n 0).getLsbD j = false := by
  by_cases h : j < 16
  · rw [gatherBits_getLsbD _ _ _ _ _ h, if_neg (by omega)]
    exact BitVec.getLsbD_zero
  · exact BitVec.getLsbD_of_ge _ _ (by omega)

/-! ### The hardware form (40_bit_cursor.md R135, R139) -/

theorem gatherBits_inside_toNat (m : Memory) {b c n : Nat} (h : c + n ≤ 8) :
    (gatherBits m (8 * b + c) n 0).toNat = (m.read b).toNat / 2 ^ (8 - c - n) % 2 ^ n := by
  rw [gatherBits_inside m b c n h, BitVec.toNat_setWidth_of_le (by omega), BitVec.extractLsb'_toNat, Nat.shiftRight_eq_div_pow]

/-- A request across a byte boundary is the first byte's low bits followed by the next byte's high bits. -/
theorem gatherBits_across (m : Memory) {b c n : Nat} (hc : c ≤ 8) (h8 : 8 ≤ c + n) (h16 : c + n ≤ 16) :
    gatherBits m (8 * b + c) n 0 =
      ((m.read b).extractLsb' 0 (8 - c) ++ (m.read (b + 1)).extractLsb' (16 - c - n) (c + n - 8)).setWidth 16 := by
  apply BitVec.eq_of_getLsbD_eq
  intro j hj
  rw [gatherBits_getLsbD m _ n 0 j hj, BitVec.getLsbD_setWidth, BitVec.getLsbD_append]
  by_cases hlow : j < c + n - 8
  · rw [if_pos (by omega), streamBit, show (8 * b + c + (n - 1 - j)) / 8 = b + 1 by omega,
      show 7 - (8 * b + c + (n - 1 - j)) % 8 = 16 - c - n + j by omega]
    simp [hj, hlow]
  · by_cases hn : j < n
    · rw [if_pos hn, streamBit, show (8 * b + c + (n - 1 - j)) / 8 = b by omega,
        show 7 - (8 * b + c + (n - 1 - j)) % 8 = j - (c + n - 8) by omega]
      simp [hj, hlow, show j - (c + n - 8) < 8 - c by omega]
    · simp [hn, hlow, show ¬ j - (c + n - 8) < 8 - c by omega]

theorem gatherBits_across_toNat (m : Memory) {b c n : Nat} (hc : c ≤ 8) (h8 : 8 ≤ c + n) (h16 : c + n ≤ 16) :
    (gatherBits m (8 * b + c) n 0).toNat =
      (m.read b).toNat % 2 ^ (8 - c) * 2 ^ (c + n - 8) + (m.read (b + 1)).toNat / 2 ^ (16 - c - n) := by
  have hhigh : (m.read (b + 1)).toNat / 2 ^ (16 - c - n) < 2 ^ (c + n - 8) := by
    apply Nat.div_lt_of_lt_mul
    rw [← Nat.pow_add, show 16 - c - n + (c + n - 8) = 8 by omega]
    exact (m.read (b + 1)).isLt
  rw [gatherBits_across m hc h8 h16, BitVec.toNat_setWidth_of_le (by omega), BitVec.toNat_append, BitVec.extractLsb'_toNat,
    BitVec.extractLsb'_toNat, Nat.shiftRight_zero, Nat.shiftRight_eq_div_pow, Nat.mod_eq_of_lt hhigh,
    ← Nat.shiftLeft_add_eq_or_of_lt hhigh, Nat.shiftLeft_eq]

end Sys2Proof.Machine

namespace Sys2Proof.Proofs
open Sys2Proof.Machine

/-- Settles O32: the value is gathered from the stream bit by bit. -/
theorem peekBitsReadsTheStream : Obligations.PeekBitsReadsTheStream := by
  intro w inp c n
  refine ⟨peekBits_eq_none.2, fun h => ⟨_, peekBits_eq_some.2 ⟨h, rfl⟩, fun k hk => ?_, fun j hj => ?_⟩⟩
  · exact gatherBits_getLsbD_read (by omega) hk
  · exact gatherBits_getLsbD_above hj

/-- Settles O33: CUR's bit part is the new position modulo 8. -/
theorem consumeBitsAdvances : Obligations.ConsumeBitsAdvances := by
  intro w inp c n
  refine ⟨fun h => consumeBits_eq_none.2 (peekBits_eq_none.1 h), fun v h => ?_⟩
  obtain ⟨hr, hv⟩ := peekBits_eq_some.1 h
  have hc := consumeBits_eq_some.2 ⟨hr, hv, rfl⟩
  have hp := consumeBits_position hc
  exact ⟨_, hc, hp, by rw [Cursor.bit_toNat, hp]⟩

/-- Settles O35: the byte is below BUF_LEN, so all of its bits from CUR on remain. -/
theorem requestInsideAByte : Obligations.RequestInsideAByte := by
  intro w inp b c n hcn hb
  have hr : n.val ≤ remaining inp ⟨b, c⟩ := by rw [remaining_mk]; omega
  exact ⟨_, peekBits_eq_some.2 ⟨hr, rfl⟩, gatherBits_inside_toNat _ hcn⟩

/-- Settles O36: whether the bits remain turns on the second byte alone. -/
theorem requestAcrossBytes : Obligations.RequestAcrossBytes := by
  intro w inp b c n hn h8
  have hc : c.toNat ≤ 8 := Nat.le_of_lt c.isLt
  refine ⟨fun hb => ?_, fun hb => ?_⟩
  · have hr : n.val ≤ remaining inp ⟨b, c⟩ := by rw [remaining_mk]; omega
    exact ⟨_, peekBits_eq_some.2 ⟨hr, rfl⟩, gatherBits_across_toNat _ hc (Nat.le_of_lt h8) (Nat.add_le_add hc hn)⟩
  · rw [peekBits_eq_none, remaining_mk]
    omega

/-- Settles O34: no number of remaining bits is below 0, and a cursor is given back by its own position. -/
theorem zeroWidthRequestIsFree : Obligations.ZeroWidthRequestIsFree := by
  intro w inp c
  exact ⟨peekBits_eq_some.2 ⟨Nat.zero_le _, rfl⟩,
    consumeBits_eq_some.2 ⟨Nat.zero_le _, rfl, c.ofPosition_add_zero.symm⟩⟩

end Sys2Proof.Proofs
end

/-! SUPPORT and CERTIFICATES. The field elements and DispExt (41_field_elements.md): what each answers for every descriptor,
cursor and hidden state (R150 to R163), and the displacement at a byte boundary (R165, R166). -/

section
namespace Sys2Proof.Machine

variable {w : Nat} {inp : Input w} {h : Hidden w}

/-! ### A read of n bits -/

/-- A request of n bits gives a value of n bits. -/
theorem peekBits_lt {c : Cursor w} {n : Fin 17} {v : BitVec 16} (hv : peekBits inp c n = some v) : v.toNat < 2 ^ n.val := by
  refine Nat.lt_pow_two_of_testBit _ fun j hj => ?_
  rw [(peekBits_eq_some.1 hv).2]
  exact gatherBits_getLsbD_above hj

/-- With the bits there, a consume gives the value of the peek and the position n bits on. -/
theorem consumeBits_of_le {c : Cursor w} {n : Fin 17} (hr : n.val ≤ remaining inp c) :
    ∃ v c', consumeBits inp c n = some (v, c') ∧ peekBits inp c n = some v ∧ c'.position = c.position + n.val := by
  have hc := consumeBits_eq_some.2 ⟨hr, rfl, rfl⟩
  exact ⟨_, _, hc, peekBits_eq_some.2 ⟨hr, rfl⟩, consumeBits_position hc⟩

/-! ### Filling a key (41_field_elements.md R150) -/

theorem readField_of_lt {k : Key} {n : Fin 17} (hr : remaining inp h.cur < n.val) : readField inp k n h = .fail .eoi h := by
  rw [readField, consumeBits_eq_none.2 hr]

theorem readField_of_le {k : Key} {n : Fin 17} (hr : n.val ≤ remaining inp h.cur) :
    ∃ v c, readField inp k n h = .ok { h with cur := c, regs := h.regs.put k v } ∧
      peekBits inp h.cur n = some v ∧ c.position = h.cur.position + n.val := by
  obtain ⟨v, c, hc, hv, hp⟩ := consumeBits_of_le hr
  exact ⟨v, c, by rw [readField, hc], hv, hp⟩

/-- A value read with its key's width is held in full. -/
theorem FieldRegs.get_put_peeked (f : FieldRegs) {k : Key} {c : Cursor w} {n : Fin 17} {v : BitVec 16}
    (hn : n.val = keyWidth k) (hv : peekBits inp c n = some v) : (f.put k v).get k = v.setWidth 8 :=
  f.get_put_same k (hn ▸ peekBits_lt hv)

/-- Writing F[k] changes no other key's value and no other present bit. -/
theorem FieldRegs.put_frame (f : FieldRegs) (k : Key) (v : BitVec 16) :
    ∀ k', k' ≠ k → (f.put k v).get k' = f.get k' ∧ (f.put k v).has k' = f.has k' :=
  fun _ hk => ⟨f.get_put_other v hk, f.has_put_other v hk⟩

/-! ### Literal, DataHigh and the implied kinds -/

theorem element_of_literal {d : Descriptor} (hk : d.kind = .literal) :
    element inp d h = literalElement inp d.width d.value h := by
  rw [element, hk]

theorem literalElement_of_lt {n : BitVec 4} {x : BitVec 8} (hr : remaining inp h.cur < n.toNat) :
    literalElement inp n x h = .fail .eoi h := by
  have hc : consumeBits inp h.cur (widthRequest n) = none := consumeBits_eq_none.2 hr
  rw [literalElement, hc]

/-- The bits and the literal are compared as numbers (41_field_elements.md R151). -/
theorem literalElement_of_consume {n : BitVec 4} {x : BitVec 8} {v : BitVec 16} {c : Cursor w}
    (hc : consumeBits inp h.cur (widthRequest n) = some (v, c)) :
    literalElement inp n x h = if v.toNat = x.toNat then .ok { h with cur := c } else .fail .mismatch { h with cur := c } := by
  have hv : v = x.setWidth 16 ↔ v.toNat = x.toNat := by
    rw [← BitVec.toNat_inj, BitVec.toNat_setWidth_of_le (by decide)]
  rw [literalElement, hc]
  exact if_congr hv rfl rfl

theorem dataHighConsumes_iff {f : FieldRegs} : dataHighConsumes f = true ↔ f.w = 1 ∧ ¬(f.has .s = true ∧ f.s = 1) := by
  rw [dataHighConsumes, Bool.and_eq_true, beq_iff_eq, Bool.not_eq_true', ← Bool.not_eq_true, Bool.and_eq_true, beq_iff_eq]

theorem element_of_dataHigh {d : Descriptor} (hk : d.kind = .dataHigh) :
    element inp d h = if dataHighConsumes h.regs then readField inp .dhi 8 h else .ok h := by
  rw [element, hk]

/-- A one-bit field register holds the lowest bit of a constant. -/
theorem FieldRegs.get_put_bit (f : FieldRegs) {k : Key} (hk : keyWidth k = 1) (x : BitVec 8) :
    (f.put k (x.setWidth 16)).get k = x &&& 1 := by
  have hbit : ((x.setWidth 16).setWidth 1).setWidth 8 = x &&& 1 := by revert x; decide
  match k, hk with
  | .d, _ | .w, _ | .s, _ | .v, _ | .z, _ => exact hbit

/-! ### DispLen for each MOD (41_field_elements.md R165) -/

theorem dispLen_mod00 (esc rm : BitVec 3) : dispLen esc 0b00 rm = if rm = esc then 2 else 0 := rfl
theorem dispLen_mod01 (esc rm : BitVec 3) : dispLen esc 0b01 rm = 1 := rfl
theorem dispLen_mod10 (esc rm : BitVec 3) : dispLen esc 0b10 rm = 2 := rfl
theorem dispLen_mod11 (esc rm : BitVec 3) : dispLen esc 0b11 rm = 0 := rfl

/-! ### DispExt at a byte boundary (41_field_elements.md R166) -/

theorem Cursor.eq_ofPosition_of_bit {c : Cursor w} (hbit : c.bit = 0) : c = Cursor.ofPosition (8 * c.byte.toNat) := by
  rw [← cursor_at, ← hbit]

/-- No byte at or past BUF_LEN is fetched. -/
theorem fetchFrom_length_le (inp : Input w) (a n : Nat) : (fetchFrom inp a n).length ≤ inp.bufLen.toNat - a := by
  induction n generalizing a with
  | zero => exact Nat.zero_le _
  | succ n ih =>
    by_cases ha : a < inp.bufLen.toNat
    · have := ih (a + 1)
      rw [fetchFrom_in n ha, List.length_cons]
      omega
    · rw [fetchFrom_past _ (Nat.le_of_not_lt ha)]
      exact Nat.zero_le _

/-- A displacement with a byte at or past BUF_LEN is not all there. -/
theorem takeDisp_fetchFrom_none {l : BitVec 2} {b n : Nat} (hb : inp.bufLen.toNat < b + l.toNat) (hl : 0 < l.toNat) :
    takeDisp l (fetchFrom inp b n) = none := by
  refine Option.eq_none_iff_forall_ne_some.2 fun ⟨d, rest⟩ ht => ?_
  have hlen := takeDisp_length ht
  have hmax := fetchFrom_length_le inp b n
  omega

theorem dispExt_of_no_bytes {esc : BitVec 3} (hn : dispLen esc h.regs.mod h.regs.rm = 0) :
    dispExt esc inp h = .ok { h with disp := 0, dispLen := 0 } :=
  if_pos hn

/-- At a byte boundary DispExt reports the displacement the bytes from CUR on give, with CUR behind it. -/
theorem dispExt_at_byte {esc : BitVec 3} {d : Disp} {rest : List Byte} (hbit : h.cur.bit = 0)
    (ht : takeDisp (dispLen esc h.regs.mod h.regs.rm) (fetchFrom inp h.cur.byte.toNat 2) = some (d, rest)) :
    dispExt esc inp h = .ok { h with
      cur := ⟨h.cur.byte + BitVec.ofNat w (dispBytes d), 0⟩, disp := dispValue d, dispLen := dispLenOf d } := by
  rw [dispExt_of_take (n := 0) (Cursor.eq_ofPosition_of_bit hbit) h.cur.byte.isLt rfl rfl ht, Cursor.ofPosition_aligned,
    BitVec.ofNat_add, BitVec.ofNat_toNat, BitVec.setWidth_eq]

end Sys2Proof.Machine

namespace Sys2Proof.Proofs
open Sys2Proof.Machine

/-- Settles O37: every such kind is a readField of its key's own width. -/
theorem readingElementsFillTheirKey : Obligations.ReadingElementsFillTheirKey := by
  intro w inp d k n h hw hk hd
  obtain ⟨hn, he, hkey⟩ := element_readField (inp := inp) (h := h) hw hk hd
  rw [he]
  refine ⟨fun hlt => readField_of_lt hlt, fun hle => ?_⟩
  obtain ⟨v, c, hread, hv, hp⟩ := readField_of_le (k := k) (n := ⟨n, hn⟩) hle
  exact ⟨_, v, hread, ⟨hn, hv⟩, h.regs.get_put_peeked hkey hv, h.regs.has_put_same k v, hp, h.regs.put_frame k v,
    rfl, rfl, rfl, rfl⟩

/-- Settles O38: the request is made before anything is compared, and both verdicts keep the cursor behind it. -/
theorem literalComparesAllItsBits : Obligations.LiteralComparesAllItsBits := by
  intro w inp d h hk
  rw [element_of_literal hk]
  refine ⟨fun hlt => literalElement_of_lt hlt, fun hle => ?_⟩
  obtain ⟨v, c, hc, hv, hp⟩ := consumeBits_of_le (n := widthRequest d.width) hle
  rw [literalElement_of_consume hc]
  exact ⟨v, c, hv, hp, fun heq => if_pos heq, fun hne => if_neg hne⟩

/-- Settles O39: the condition decides between a readField of DHI and nothing. -/
theorem dataHighFollowsWidthAndSign : Obligations.DataHighFollowsWidthAndSign := by
  intro w inp d h hk consumes
  have hiff : dataHighConsumes h.regs = true ↔ consumes := dataHighConsumes_iff
  rw [element_of_dataHigh hk]
  refine ⟨fun hno => if_neg (hiff.not.2 hno), fun hyes hlt => ?_, fun hyes hle => ?_⟩
  · rw [if_pos (hiff.2 hyes)]
    exact readField_of_lt hlt
  · rw [if_pos (hiff.2 hyes)]
    obtain ⟨v, c, hread, hv, hp⟩ := readField_of_le (k := .dhi) (n := 8) hle
    exact ⟨_, v, hread, hv, h.regs.get_put_peeked (k := .dhi) rfl hv, h.regs.has_put_same .dhi v, hp, h.regs.put_frame .dhi v,
      rfl, rfl, rfl, rfl⟩

/-- Settles O40: both kinds are an impliedElement of a one-bit key. -/
theorem impliedElementsWriteTheirConstant : Obligations.ImpliedElementsWriteTheirConstant := by
  intro w inp d h k hk
  have he : element inp d h = impliedElement k d.value h ∧ keyWidth k = 1 := by
    obtain ⟨hkind, rfl⟩ | ⟨hkind, rfl⟩ := hk <;> exact ⟨by rw [element, hkind], rfl⟩
  obtain ⟨he, hbit⟩ := he
  exact ⟨_, he, h.regs.has_put_same k _, h.regs.get_put_bit hbit d.value, h.regs.put_frame k _⟩

/-- Settles O41, over DispLen's three lengths, with the bytes takeDisp finds from CUR on. -/
theorem displacementIsReadLowByteFirst : Obligations.DisplacementIsReadLowByteFirst := by
  intro w esc inp h hbit n b
  refine ⟨fun hn => ?_, fun hn hfit => ?_, fun hn hfit => ?_, fun hpast hpos => ?_⟩
  · exact dispExt_of_no_bytes (BitVec.eq_of_toNat_eq hn)
  · have hlen : dispLen esc h.regs.mod h.regs.rm = 1#2 := BitVec.eq_of_toNat_eq hn
    refine dispExt_at_byte (d := .byte (inp.buf.read b)) (rest := fetchFrom inp (b + 1) 1) hbit ?_
    rw [hlen, fetchFrom_in _ hfit, takeDisp_one_cons]
  · have hlen : dispLen esc h.regs.mod h.regs.rm = 2#2 := BitVec.eq_of_toNat_eq hn
    refine dispExt_at_byte (d := .word (inp.buf.read (b + 1) ++ inp.buf.read b)) (rest := fetchFrom inp (b + 2) 0) hbit ?_
    rw [hlen, fetchFrom_in _ (Nat.lt_of_succ_lt hfit), fetchFrom_in _ hfit, takeDisp_two_cons]
  · exact dispExt_of_truncated (n := 0) (Cursor.eq_ofPosition_of_bit hbit) h.cur.byte.isLt rfl rfl
      (takeDisp_fetchFrom_none hpast hpos)

/-- Settles O5, by DispLen's equation for each MOD. -/
theorem displacementLengths : Obligations.DisplacementLengths := by
  refine ⟨rfl, fun esc mod rm => ⟨?_, ?_, ?_, ?_, ?_⟩⟩
  · rintro rfl
    exact dispLen_mod11 esc rm
  · rintro rfl hrm
    rw [dispLen_mod00, if_pos hrm]
  · rintro rfl hrm
    rw [dispLen_mod00, if_neg hrm]
  · rintro rfl
    exact dispLen_mod01 esc rm
  · rintro rfl
    exact dispLen_mod10 esc rm

end Sys2Proof.Proofs
end

/-! SUPPORT and CERTIFICATES. The decode engine (42_decode_engine.md): what each step answers, how the attempts of a position
are chosen, progress and the end of a run, and the round trips over encoded instructions and templates. -/

section
namespace Sys2Proof.Machine

/-! ### What an engine step answers (42_decode_engine.md R198) -/

theorem engineStepOf_quiescent {w : Nat} {D : Design} {s : State w} (hr : s.runState ≠ .running) :
    engineStepOf D s = .fault .quiescent := if_neg hr

theorem engineStepOf_finish {w : Nat} {D : Design} {s : State w} (hr : s.runState = .running) (hp : s.pos = s.bufLen) :
    engineStepOf D s = .next (finishRun s) := (if_pos hr).trans (if_pos hp)

theorem engineStepOf_position {w : Nat} {D : Design} {s : State w} (hr : s.runState = .running) (hp : s.pos ≠ s.bufLen) :
    engineStepOf D s = positionStep D s := (if_pos hr).trans (if_neg hp)

theorem positionStep_of_some {w : Nat} {D : Design} {s : State w} {h : Hidden w} {t : Template}
    (ha : attempts D s = (h, some t)) :
    positionStep D s = commit t.tag (consumedBits s.pos h) { s with hidden := h } := by rw [positionStep, ha]

theorem positionStep_of_none {w : Nat} {D : Design} {s : State w} (ha : (attempts D s).2 = none) :
    positionStep D s = .next (enterFailure { s with hidden := (attempts D s).1 }) := by
  rw [positionStep, show attempts D s = ((attempts D s).1, none) from Prod.ext rfl ha]

theorem engineStep_quiescent {s : State} (hr : s.runState ≠ .running) : engineStep s = .fault .quiescent := if_neg hr

theorem engineStep_finish {s : State} (hr : s.runState = .running) (hp : s.pos = s.bufLen) :
    engineStep s = .next (finishRun s) := (if_pos hr).trans (if_pos hp)

theorem engineStep_of_decode {s : State} {i : Instr} {rest : List Byte} (hr : s.runState = .running) (hp : s.pos ≠ s.bufLen)
    (hd : decode s.fetchBytes = .ok i rest) : engineStep s = exec i s := by
  rw [engineStep, if_pos hr, if_neg hp, hd]

/-- The engine written through the decoder is the template engine on the default ROM. -/
theorem engineStep_eq_engineStepOf : engineStep = engineStepOf defaultDesign := by
  funext s
  by_cases hr : s.runState = .running
  swap
  · rw [engineStep_quiescent hr, engineStepOf_quiescent hr]
  by_cases hp : s.pos = s.bufLen
  · rw [engineStep_finish hr hp, engineStepOf_finish hr hp]
  rw [engineStepOf_position hr hp]
  cases hd : decode s.fetchBytes with
  | ok i rest => rw [engineStep_of_decode hr hp hd, positionStep_of_decode hd]
  | reject r => rw [engineStep_of_reject hr hp hd, positionStep_of_none (attempts_of_reject hd).1, noMatchingTemplate]

theorem validRom_defaultDesign : validRom defaultDesign = true := by decide

/-! ### The meanings and the sink (42_decode_engine.md R210) -/

theorem exec_hold (i : Instr) {s : State} (h : s.host.ready = false) : exec i s = .fault .outputHeld := by
  cases i with
  | mov w mod reg rm d => exact commit_hold _ _ h
  | push mod rm d => exact commit_hold _ _ h

theorem exec_next (i : Instr) {s : State} (h : s.host.ready = true) : ∃ t, exec i s = .next t := by
  cases i with
  | mov w mod reg rm d => exact ⟨_, commit_ready _ _ h⟩
  | push mod rm d => exact ⟨_, commit_ready _ _ h⟩

/-- Where the engine goes on, and the two places where it has no step to take. -/
theorem engineStep_answers (s : State) : (∃ t, engineStep s = .next t) ∨
    (engineStep s = .fault .quiescent ∧ s.runState ≠ .running) ∨
    (engineStep s = .fault .outputHeld ∧ s.runState = .running ∧ s.pos ≠ s.bufLen ∧ s.host.ready = false) := by
  by_cases hr : s.runState = .running
  swap
  · exact .inr (.inl ⟨engineStep_quiescent hr, hr⟩)
  by_cases hp : s.pos = s.bufLen
  · exact .inl ⟨_, engineStep_finish hr hp⟩
  cases hd : decode s.fetchBytes with
  | reject r => exact .inl ⟨_, engineStep_of_reject hr hp hd⟩
  | ok i rest =>
    rw [engineStep_of_decode hr hp hd]
    cases hs : s.host.ready with
    | true => exact .inl (exec_next i hs)
    | false => exact .inr (.inr ⟨exec_hold i hs, hr, hp, rfl⟩)

/-! ### The engine's turn inside a host queue (log 3) -/

theorem engineTurn_of_next {w : Nat} {engine : State w → Outcome w} {s t : State w} (h : engine s = .next t) :
    engineTurn engine s = .next t := by rw [engineTurn, h]

theorem engineTurn_of_quiescent {w : Nat} {engine : State w → Outcome w} {s : State w} (h : engine s = .fault .quiescent) :
    engineTurn engine s = .next s := by rw [engineTurn, h]

theorem engineTurn_of_held {w : Nat} {engine : State w → Outcome w} {s : State w} (h : engine s = .fault .outputHeld) :
    engineTurn engine s = .next s := by rw [engineTurn, h]

theorem engineTurn_goes_on (s : State) : ∃ t, engineTurn engineStep s = .next t := by
  obtain ⟨t, h⟩ | ⟨h, -⟩ | ⟨h, -⟩ := engineStep_answers s
  · exact ⟨t, engineTurn_of_next h⟩
  · exact ⟨s, engineTurn_of_quiescent h⟩
  · exact ⟨s, engineTurn_of_held h⟩

/-- Where a host write of BUF stops, and that it goes on everywhere else (10_state.md R22, 20_memory.md R70). -/
theorem hostWriteBuf_answers {w : Nat} (a : Offset w) (b : Byte) (s : State w) : (∃ t, hostWriteBuf a b s = .next t) ∨
    (hostWriteBuf a b s = .refused .bufWriteDuringRun ∧ s.runState = .running) ∨
    (hostWriteBuf a b s = .fault .bufOffset ∧ s.runState ≠ .running ∧ Config.bufSize w ≤ a.toNat) := by
  by_cases hr : s.runState = .running
  · exact .inr (.inl ⟨if_pos hr, hr⟩)
  by_cases ha : a.toNat < Config.bufSize w
  · exact .inl ⟨_, (if_neg hr).trans (if_pos ha)⟩
  · exact .inr (.inr ⟨(if_neg hr).trans (if_neg ha), hr, Nat.le_of_not_lt ha⟩)

theorem csrWrite_running {w : Nat} (n : Nat) (v : CsrWord) {s : State w} (hr : s.runState = .running) : csrWrite n v s = s := by
  obtain h | ⟨-, -, hn, -⟩ | ⟨-, hn, -⟩ := csrWrite_cases n v s
  · exact h
  · exact absurd hr hn
  · exact absurd hr hn

/-! ### The bytes at POS -/

/-- A fetch over bytes BUF holds gives them, and goes on behind them. -/
theorem fetchFrom_of_holds {w : Nat} {inp : Input w} {bs : List Byte} (n : Nat) : ∀ {a : Nat}, inp.buf.holds a bs →
    a + bs.length ≤ inp.bufLen.toNat → fetchFrom inp a (bs.length + n) = bs ++ fetchFrom inp (a + bs.length) n := by
  induction bs with
  | nil => intro a _ _; simp
  | cons b bs ih =>
    intro a hb hl
    have hhead : inp.buf.read a = b := hb 0 b rfl
    have htail : inp.buf.holds (a + 1) bs := (Memory.holds_append (bs := [b]) hb).2
    rw [List.length_cons, ← Nat.succ_add_eq_add_succ a] at hl ⊢
    rw [Nat.add_right_comm, fetchFrom_in _ (by omega), hhead, ih htail hl]
    rfl

theorem encode_length {i : Instr} (hi : i.wellFormed = true) :
    (encode i).length = byteLength i ∧ 2 ≤ byteLength i ∧ byteLength i ≤ 4 := by
  cases i with
  | mov w mod reg rm d => exact Laws.EncodeLength.mov w mod reg rm d hi
  | push mod rm d => exact Laws.EncodeLength.push mod rm d hi

theorem tableBytes_length (nbits w : Nat) : (tableBytes nbits w).length = 4 := rfl

theorem decode_of_decodeTableWord {nbits w : Nat} {i : Instr} (h : decodeTableWord nbits w = some i) :
    ∃ rest, decode (tableBytes nbits w) = .ok i rest := by
  unfold decodeTableWord at h
  split at h
  · next j rest hd => cases h; exact ⟨rest, hd⟩
  · cases h

/-- Bytes that fit BUF are placed inside it, in a run over the same BUF (log 9). -/
theorem loadBytes_cases {bs : List Byte} (hl : bs.length ≤ Config.bufSize) (s : State) :
    ∃ a s', loadBytes bs s = placeAt a bs s' ∧ s'.runState = .running ∧ s'.buf = s.buf ∧
      a.toNat + bs.length ≤ Config.bufSize := by
  by_cases hr : s.runState = .running
  · by_cases hp : s.pos.toNat + bs.length ≤ Config.bufSize
    · exact ⟨s.pos, s, by rw [loadBytes, if_pos hr, if_pos hp], hr, rfl, hp⟩
    · exact ⟨0, s, by rw [loadBytes, if_pos hr, if_neg hp], hr, rfl, by simpa using hl⟩
  · exact ⟨0, startRun s, if_neg hr, rfl, rfl, by simpa using hl⟩

/-- BUF_LEN stands right behind the placed bytes. -/
theorem placeAt_bufLen_toNat {a : Offset} {bs : List Byte} (s : State) (hl : a.toNat + bs.length ≤ Config.bufSize) :
    (placeAt a bs s).bufLen.toNat = a.toNat + bs.length := by
  rw [placeAt_bufLen, BitVec.toNat_add, BitVec.toNat_ofNat, Nat.add_mod_mod]
  exact Nat.mod_eq_of_lt (Nat.lt_of_le_of_lt hl (by decide))

/-- Four placed bytes are the ones the next step decodes. -/
theorem fetchBytes_placeAt {a : Offset} {bs : List Byte} {s : State} (hb : bs.length = 4)
    (hl : a.toNat + bs.length ≤ Config.bufSize) (hwf : s.buf.wf = true) : (placeAt a bs s).fetchBytes = bs := by
  have hold : (placeAt a bs s).input.buf.holds a.toNat bs := fun k b hk => Memory.read_writeAll (w := 16) hl hwf hk
  have hfetch := fetchFrom_of_holds 0 hold (placeAt_bufLen_toNat s hl).ge
  rw [hb] at hfetch
  rw [fetchBytes_eq]
  exact hfetch.trans (List.append_nil bs)

/-! ### Beginnings of an instruction (42_decode_engine.md R209) -/

theorem takeDisp_short {d : Disp} {bs : List Byte} (h : bs.length < dispBytes d) : takeDisp (dispLenOf d) bs = none := by
  cases ht : takeDisp (dispLenOf d) bs with
  | none => rfl
  | some p =>
    have hlen := takeDisp_length ht
    rw [← dispBytes_eq_toNat] at hlen
    omega

/-- Behind a ModRM byte, fewer bytes than the displacement has are too few. -/
theorem withDisp_take {mod : BitVec 2} {rm : BitVec 3} {d : Disp} {k : Nat} (mk : Disp → Instr)
    (hd : d.fits mod rm = true) (hk : k < dispBytes d) : withDisp mod rm ((encodeDisp d).take k) mk = .reject .endOfInput :=
  withDisp_reject.2 ⟨fits_iff.1 hd ▸ takeDisp_short (Nat.lt_of_le_of_lt (List.length_take_le ..) hk), rfl⟩

/-- A proper, non-empty beginning of an instruction is rejected for want of input: its opcode byte alone, or with its ModRM
byte and too little of the displacement it selects. -/
theorem decode_truncated {i : Instr} {n : Nat} (hi : i.wellFormed = true) (h0 : 0 < n) (hn : n < byteLength i) :
    decode ((encode i).take n) = .reject .endOfInput := by
  obtain ⟨k, rfl⟩ := Nat.exists_eq_add_of_lt h0
  rw [Nat.zero_add] at hn ⊢
  cases i with
  | mov w mod reg rm d =>
    have hop := isMovByte_encoded w
    cases k with
    | zero => exact if_pos (by rw [hop, Bool.true_or])
    | succ k =>
      obtain ⟨hmod, -, hrm⟩ := modrm_fields mod reg rm
      refine (decode_mov _ _ hop).trans ?_
      rw [hmod, hrm]
      exact withDisp_take _ hi (by simp only [byteLength] at hn; omega)
  | push mod rm d =>
    cases k with
    | zero => rfl
    | succ k =>
      obtain ⟨hmod, hreg, hrm⟩ := modrm_fields mod 0b110 rm
      refine (decode_push _ hreg).trans ?_
      rw [hmod, hrm]
      exact withDisp_take _ hi (by simp only [byteLength] at hn; omega)

/-! ### Choosing among the attempts (42_decode_engine.md R195, R197, R204) -/

section chosen
variable {w : Nat} {D : Design} {s : State w}

/-- When no attempt completes there is no choice, and EOI_ACC says whether one ran out of input. -/
theorem attempts_of_none_ok (h : ∀ t ∈ D.rom, (tryTemplate D s.input s.pos t s.hidden).isOk = false) :
    (attempts D s).2 = none ∧
    (attempts D s).1.eoiAcc = D.rom.any (fun t => (tryTemplate D s.input s.pos t s.hidden).isEoi) := by
  obtain ⟨hchoice, -, heoi⟩ := tryAll_parallel (D := D) (inp := s.input) (pos := s.pos) s.hidden D.rom 0
    { s.hidden with eoiAcc := false }
  have hnone : (attempts D s).2 = none := by
    refine hchoice.trans ?_
    rw [List.find?_eq_none.2 (by simpa using h), Option.map_none]
  refine ⟨hnone, (heoi hnone).trans ?_⟩
  rw [Bool.false_or, List.any_map]
  rfl

/-- The template at index i is chosen when its attempt completes and none of a lower index does. -/
theorem attempts_of_first_ok {i : Nat} {t : Template} {h : Hidden w} (ht : D.rom[i]? = some t)
    (hok : tryTemplate D s.input s.pos t s.hidden = .ok h)
    (hlow : ∀ u ∈ D.rom.take i, (tryTemplate D s.input s.pos u s.hidden).isOk = false) :
    ∃ g, attempts D s = (g, some t) ∧ g.regs = h.regs ∧ g.disp = h.disp ∧ g.dispLen = h.dispLen ∧ g.cur = h.cur ∧
      g.ti = BitVec.ofNat 4 i := by
  obtain ⟨hi, rfl⟩ := List.getElem?_eq_some_iff.1 ht
  have hlen : i < (parallelAttempts D s).length := by simpa [parallelAttempts] using hi
  have hat : (parallelAttempts D s)[i] = (D.rom[i], .ok h) := by simp [parallelAttempts, hok]
  have hbefore : ∀ (j : Nat) (hj : j < i), (parallelAttempts D s)[j].2.isOk = false := by
    intro j hj
    simp only [parallelAttempts, List.getElem_map]
    exact hlow _ (List.mem_take_iff_getElem.2 ⟨j, by omega, rfl⟩)
  have hfind : (parallelAttempts D s).find? (fun p => p.2.isOk) = some (D.rom[i], .ok h) :=
    List.find?_eq_some_iff_getElem.2 ⟨rfl, i, hlen, hat, fun j hj => by rw [hbefore j hj]; rfl⟩
  have hidx : (parallelAttempts D s).findIdx (fun p => p.2.isOk) = i :=
    (List.findIdx_eq hlen).2 ⟨by rw [hat]; rfl, hbefore⟩
  obtain ⟨hchoice, hregs, -⟩ := tryAll_parallel (D := D) (inp := s.input) (pos := s.pos) s.hidden D.rom 0
    { s.hidden with eoiAcc := false }
  obtain ⟨h1, h2, h3, h4, hti⟩ := hregs _ _ hfind
  refine ⟨(attempts D s).1, Prod.ext rfl (hchoice.trans (congrArg (Option.map Prod.fst) hfind)), h1, h2, h3, h4, ?_⟩
  rw [← hidx, ← Nat.zero_add (List.findIdx _ _)]
  exact hti

end chosen

/-! ### Commits (42_decode_engine.md R196) -/

/-- t is s with the records rs committed, n bytes further on; only the hidden registers may differ beside that. -/
structure Commits {w : Nat} (s t : State w) (rs : List (Record w)) (n : Nat) : Prop where
  outq : t.outq = s.outq ++ rs
  pos : t.pos.toNat = s.pos.toNat + n
  instCount : t.instCount = s.instCount + BitVec.ofNat w rs.length
  runState : t.runState = s.runState
  buf : t.buf = s.buf
  bufLen : t.bufLen = s.bufLen
  host : t.host = s.host

section commits
variable {w : Nat}

theorem Commits.refl (s : State w) : Commits s s [] 0 where
  outq := (List.append_nil _).symm
  pos := rfl
  instCount := by simp
  runState := rfl
  buf := rfl
  bufLen := rfl
  host := rfl

theorem Commits.trans {s t u : State w} {rs qs : List (Record w)} {m n : Nat} (h : Commits s t rs m) (h' : Commits t u qs n) :
    Commits s u (rs ++ qs) (m + n) where
  outq := by rw [h'.outq, h.outq, List.append_assoc]
  pos := by rw [h'.pos, h.pos, Nat.add_assoc]
  instCount := by rw [h'.instCount, h.instCount, List.length_append, BitVec.ofNat_add, BitVec.add_assoc]
  runState := h'.runState.trans h.runState
  buf := h'.buf.trans h.buf
  bufLen := h'.bufLen.trans h.bufLen
  host := h'.host.trans h.host

/-- The Commit of an attempt of n bytes that end within the buffer. -/
theorem commits_committed {s : State w} {n : Nat} (tag : BitVec 8) (h : Hidden w) (hn : s.pos.toNat + n ≤ s.bufLen.toNat) :
    Commits s (committed tag (8 * n) { s with hidden := h }) [recordOf tag n { s with hidden := h }] n where
  outq := by rw [committed_outq, ceil8_bytes]
  pos := by
    have hl := s.bufLen.isLt
    rw [committed_pos, ceil8_bytes, BitVec.toNat_add, BitVec.toNat_ofNat, Nat.add_mod_mod]
    exact Nat.mod_eq_of_lt (Nat.lt_of_le_of_lt hn hl)
  instCount := rfl
  runState := rfl
  buf := rfl
  bufLen := rfl
  host := rfl

theorem consumedBits_of_position {pos : Offset w} {h : Hidden w} {n : Nat} (hp : h.cur.position = 8 * (pos.toNat + n)) :
    consumedBits pos h = 8 * n := by rw [consumedBits, hp]; omega

/-- A completed attempt ends within the buffer, where POS is. -/
theorem tryTemplate_within {D : Design} {inp : Input w} {pos : Offset w} {t : Template} {h h' : Hidden w}
    (hp : pos.toNat ≤ inp.bufLen.toNat) (he : tryTemplate D inp pos t h = .ok h') :
    h'.cur.position ≤ 8 * inp.bufLen.toNat := by
  have hbegin : (beginAttempt pos h).cur.position ≤ 8 * inp.bufLen.toNat := by
    rw [beginAttempt_cur, Cursor.position]
    exact Nat.mul_le_mul_left 8 hp
  have hend := runElements_within (esc := D.directAddrRm) (mT := insertionPoint t) (ds := t.fields) (i := 0) hbegin
  unfold tryTemplate at he
  rwa [he] at hend

end commits

/-! ### Progress (42_decode_engine.md R203) -/

/-- A step that goes on commits one record, at POS and of the bytes it moves POS by, between 1 and 15. -/
theorem engineStepOf_running {w : Nat} {D : Design} {s t : State w} (hv : validRom D = true)
    (hp : s.pos.toNat ≤ s.bufLen.toNat) (h : engineStepOf D s = .next t) (hr : t.runState = .running) :
    ∃ r n, Commits s t [r] n ∧ r.offset = s.pos ∧ r.byteLength.toNat = n ∧ 1 ≤ n ∧ s.pos.toNat + n ≤ s.bufLen.toNat := by
  have hrun : s.runState = .running := (engineStepOf_cases h).1
  have hne : s.pos ≠ s.bufLen := by
    intro he
    rw [engineStepOf_finish hrun he] at h
    cases h
    cases hr
  rw [engineStepOf_position hrun hne] at h
  cases hc : (attempts D s).2 with
  | none =>
    rw [positionStep_of_none hc] at h
    cases h
    cases hr
  | some u =>
    have ha : attempts D s = ((attempts D s).1, some u) := Prod.ext rfl hc
    obtain ⟨hu, g, hg⟩ := tryAll_some ha
    obtain ⟨n, h1, h15, hpos⟩ := valid_attempt hv hu hg
    have hin := tryTemplate_within hp hg
    rw [hpos] at hin
    have hfit : s.pos.toNat + n ≤ s.bufLen.toNat := Nat.le_of_mul_le_mul_left hin (by decide)
    rw [positionStep_of_some ha, consumedBits_of_position hpos] at h
    rw [(commit_next h).2]
    refine ⟨_, n, commits_committed u.tag _ hfit, rfl, ?_, h1, hfit⟩
    exact Nat.mod_eq_of_lt (Nat.lt_succ_of_le h15)

/-- With a ready sink a running engine is never without a step. -/
theorem engineStepOf_next {w : Nat} {D : Design} {s : State w} (hr : s.runState = .running) (hs : s.host.ready = true) :
    ∃ t, engineStepOf D s = .next t := by
  by_cases hp : s.pos = s.bufLen
  · exact ⟨_, engineStepOf_finish hr hp⟩
  rw [engineStepOf_position hr hp]
  cases hc : (attempts D s).2 with
  | none => exact ⟨_, positionStep_of_none hc⟩
  | some u =>
    rw [positionStep_of_some (h := (attempts D s).1) (t := u) (Prod.ext rfl hc)]
    exact ⟨_, commit_ready _ _ hs⟩

theorem runSteps_of_next {w : Nat} {f : State w → Outcome w} {s t : State w} (h : f s = .next t) (k : Nat) :
    runSteps f (k + 1) s = runSteps f k t := by rw [runSteps, h]

/-! ### Runs (42_decode_engine.md R203, R206) -/

/-- A run with a ready sink ends within the bytes that remain and one more step. -/
theorem step_reaches_terminal (m : Nat) : ∀ s : State, s.runState = .running → s.pos.toNat ≤ s.bufLen.toNat →
    s.host.queue = [] → s.host.ready = true → s.bufLen.toNat - s.pos.toNat ≤ m →
    ∃ k t, k ≤ m + 1 ∧ runSteps step k s = .next t ∧ t.terminal := by
  induction m with
  | zero =>
    intro s hr hp hq _ hm
    have hend : s.pos = s.bufLen := BitVec.eq_of_toNat_eq (by omega)
    have hstep : step s = .next (finishRun s) := (step_of_no_host_action hq).trans (engineStep_finish hr hend)
    exact ⟨1, finishRun s, Nat.le_refl 1, runSteps_of_next hstep 0, .inl rfl⟩
  | succ m ih =>
    intro s hr hp hq hs hm
    obtain ⟨t, he⟩ := engineStepOf_next (D := defaultDesign) hr hs
    have hstep : step s = .next t := by rw [step_of_no_host_action hq, engineStep_eq_engineStepOf, he]
    by_cases ht : t.runState = .running
    · obtain ⟨r, n, hc, -, -, hn, hfit⟩ := engineStepOf_running validRom_defaultDesign hp he ht
      have hpos := hc.pos
      obtain ⟨k, u, hk, hrun, hu⟩ := ih t ht (by rw [hc.bufLen]; omega) (by rw [hc.host, hq]) (by rw [hc.host, hs])
        (by rw [hc.bufLen]; omega)
      exact ⟨k + 1, u, Nat.succ_le_succ hk, (runSteps_of_next hstep k).trans hrun, hu⟩
    · refine ⟨1, t, by omega, runSteps_of_next hstep 0, ?_⟩
      obtain ⟨-, rfl | ⟨g, tag, n, rfl⟩ | ⟨g, rfl⟩⟩ := engineStepOf_cases he
      · exact .inl rfl
      · exact absurd hr ht
      · exact .inr rfl

/-! ### Encoded instructions (42_decode_engine.md R206) -/

theorem dispOfRecord_eq {r : Record} {d : Disp} (hl : r.dispLen = dispLenOf d) (hv : r.disp = dispValue d) :
    dispOfRecord r = d := by
  rw [dispOfRecord, hl, hv]
  cases d with
  | none => rfl
  | byte lo => exact congrArg Disp.byte (setWidth_setWidth_self (by decide) lo)
  | word v => rfl

/-- A meaning with the sink ready commits one record, which stands for its instruction. -/
theorem exec_commits_record (i : Instr) {s : State} (hs : s.host.ready = true)
    (hfit : s.pos.toNat + byteLength i ≤ s.bufLen.toNat) :
    ∃ t r, exec i s = .next t ∧ Commits s t [r] (byteLength i) ∧ instrOfRecord r = some i := by
  cases i with
  | mov w mod reg rm d =>
    refine ⟨_, _, commit_ready _ _ hs, commits_committed tagMov _ hfit, ?_⟩
    exact congrArg (fun d => some (Instr.mov w mod reg rm d)) (dispOfRecord_eq rfl rfl)
  | push mod rm d =>
    refine ⟨_, _, commit_ready _ _ hs, commits_committed tagPush _ hfit, ?_⟩
    exact congrArg (fun d => some (Instr.push mod rm d)) (dispOfRecord_eq rfl rfl)

/-- The bytes of a well-formed instruction at POS decode to it. -/
theorem decode_fetchBytes_of_holds {s : State} {i : Instr} (hi : i.wellFormed = true)
    (hfit : s.pos.toNat + (encode i).length ≤ s.bufLen.toNat) (hb : s.buf.holds s.pos.toNat (encode i)) :
    ∃ rest, decode s.fetchBytes = .ok i rest := by
  obtain ⟨hlen, -, h4⟩ := encode_length hi
  have hfetch := fetchFrom_of_holds (inp := s.input) (4 - (encode i).length) hb hfit
  rw [Nat.add_sub_cancel' (hlen.trans_le h4)] at hfetch
  rw [fetchBytes_eq, hfetch]
  exact ⟨_, Proofs.decodeOfEncode i _ hi⟩

theorem step_over_encoded {s : State} {i : Instr} (hr : s.runState = .running) (hq : s.host.queue = [])
    (hs : s.host.ready = true) (hi : i.wellFormed = true) (hfit : s.pos.toNat + (encode i).length ≤ s.bufLen.toNat)
    (hb : s.buf.holds s.pos.toNat (encode i)) :
    ∃ t r, step s = .next t ∧ Commits s t [r] (encode i).length ∧ instrOfRecord r = some i := by
  obtain ⟨hlen, h2, -⟩ := encode_length hi
  have hne : s.pos ≠ s.bufLen := fun he => by rw [he] at hfit; omega
  obtain ⟨rest, hd⟩ := decode_fetchBytes_of_holds hi hfit hb
  rw [step_of_no_host_action hq, engineStep_of_decode hr hne hd, hlen]
  exact exec_commits_record i hs (hlen ▸ hfit)

theorem runSteps_over_encoded (is : List Instr) : ∀ s : State, s.runState = .running → s.host.queue = [] →
    s.host.ready = true → (∀ i ∈ is, i.wellFormed = true) → s.pos.toNat + (is.flatMap encode).length ≤ s.bufLen.toNat →
    s.buf.holds s.pos.toNat (is.flatMap encode) →
    ∃ t rs, runSteps step is.length s = .next t ∧ Commits s t rs (is.flatMap encode).length ∧
      rs.map instrOfRecord = is.map some := by
  induction is with
  | nil => exact fun s _ _ _ _ _ _ => ⟨s, [], rfl, Commits.refl s, rfl⟩
  | cons i is ih =>
    intro s hr hq hs hwf hfit hb
    rw [List.flatMap_cons] at hfit hb ⊢
    rw [List.length_append] at hfit ⊢
    obtain ⟨hb1, hb2⟩ := Memory.holds_append hb
    obtain ⟨t, r, hstep, hc, hri⟩ := step_over_encoded hr hq hs (hwf i List.mem_cons_self) (by omega) hb1
    have hpos := hc.pos
    obtain ⟨u, rs, hrun, hcs, hrs⟩ := ih t (hc.runState.trans hr) (by rw [hc.host, hq]) (by rw [hc.host, hs])
      (fun j hj => hwf j (List.mem_cons_of_mem i hj)) (by rw [hc.bufLen, hpos]; omega) (by rw [hc.buf, hpos]; exact hb2)
    exact ⟨u, [r] ++ rs, (runSteps_of_next hstep _).trans hrun, hc.trans hcs, by simp [hri, hrs]⟩

/-! ### Encoded templates of any valid ROM (42_decode_engine.md R206) -/

section items
variable {w : Nat} {D : Design}

theorem noEarlierAccepts_cons {inp : Input w} {a : Nat} {x : Item} {xs : List Item} :
    noEarlierAccepts D inp a (x :: xs) = true ↔
      (∀ t ∈ D.rom.take x.index, (tryTemplate D inp (BitVec.ofNat w a) t Hidden.clear).isOk = false) ∧
      noEarlierAccepts D inp (a + x.encode.length) xs = true := by
  simp [noEarlierAccepts]

theorem recordsFrom_length (xs : List Item) (a : Nat) : (recordsFrom a xs : List (Record w)).length = xs.length := by
  induction xs generalizing a with
  | nil => rfl
  | cons x xs ih => rw [recordsFrom, List.length_cons, ih, List.length_cons]

theorem legal_index {x : Item} (hx : x.legal D = true) : D.rom[x.index]? = some x.template := by
  simp only [Item.legal, Bool.and_eq_true, beq_iff_eq] at hx
  exact hx.1

/-- An engine step over an item's encoding commits the item's record, where no template of a lower index accepts. -/
theorem engineStepOf_over_item {s : State w} {x : Item} (hv : validRom D = true) (hr : s.runState = .running)
    (hs : s.host.ready = true) (hx : x.legal D = true) (hfit : s.pos.toNat + x.encode.length ≤ s.bufLen.toNat)
    (hb : s.buf.holds s.pos.toNat x.encode)
    (hlow : ∀ u ∈ D.rom.take x.index, (tryTemplate D s.input s.pos u Hidden.clear).isOk = false) :
    ∃ t, engineStepOf D s = .next t ∧ Commits s t [x.record s.pos.toNat] x.encode.length := by
  have hat := legal_index hx
  obtain ⟨h, hok, hcur, hregs, hdisp, hlen⟩ := tryTemplate_encoded (inp := s.input) hv hx hfit hb s.hidden
  obtain ⟨n, h1, -, hn⟩ := valid_attempt hv (List.mem_of_getElem? hat) hok
  have hne : s.pos ≠ s.bufLen := fun he => by rw [he] at hfit hcur hn; omega
  obtain ⟨g, ha, gregs, gdisp, glen, gcur, gti⟩ := attempts_of_first_ok hat hok
    (fun u hu => (tryTemplate_isOk_any D _ _ u _ _).trans (hlow u hu))
  have hrec : recordOf x.template.tag x.encode.length { s with hidden := g } = x.record s.pos.toNat := by
    simp [recordOf, Item.record, gti, gregs, gdisp, glen, hregs, hdisp, hlen]
  rw [engineStepOf_position hr hne, positionStep_of_some ha, consumedBits_of_position (gcur ▸ hcur), ← hrec]
  exact ⟨_, commit_ready _ _ hs, commits_committed x.template.tag g hfit⟩

theorem runSteps_over_items (hv : validRom D = true) (xs : List Item) : ∀ s : State w, s.runState = .running →
    s.host.ready = true → (∀ x ∈ xs, x.legal D = true) → s.pos.toNat + (xs.flatMap Item.encode).length ≤ s.bufLen.toNat →
    s.buf.holds s.pos.toNat (xs.flatMap Item.encode) → noEarlierAccepts D s.input s.pos.toNat xs = true →
    ∃ t, runSteps (engineStepOf D) xs.length s = .next t ∧
      Commits s t (recordsFrom s.pos.toNat xs) (xs.flatMap Item.encode).length := by
  induction xs with
  | nil => exact fun s _ _ _ _ _ _ => ⟨s, rfl, Commits.refl s⟩
  | cons x xs ih =>
    intro s hr hs hlegal hfit hb hlow
    rw [List.flatMap_cons] at hfit hb ⊢
    rw [List.length_append] at hfit ⊢
    obtain ⟨hb1, hb2⟩ := Memory.holds_append hb
    obtain ⟨hlow1, hlow2⟩ := noEarlierAccepts_cons.1 hlow
    rw [BitVec.ofNat_toNat, BitVec.setWidth_eq] at hlow1
    obtain ⟨t, hstep, hc⟩ := engineStepOf_over_item hv hr hs (hlegal x List.mem_cons_self) (by omega) hb1 hlow1
    have hpos := hc.pos
    have hinp : t.input = s.input := by rw [State.input, hc.buf, hc.bufLen, State.input]
    obtain ⟨u, hrun, hcs⟩ := ih t (hc.runState.trans hr) (by rw [hc.host, hs])
      (fun y hy => hlegal y (List.mem_cons_of_mem x hy)) (by rw [hc.bufLen, hpos]; omega) (by rw [hc.buf, hpos]; exact hb2)
      (by rw [hinp, hpos]; exact hlow2)
    rw [hpos] at hcs
    exact ⟨u, (runSteps_of_next hstep _).trans hrun, hc.trans hcs⟩

/-- What an item of a valid design says its record's fields are. -/
theorem item_code_get {x : Item} (hv : validRom D = true) (hx : x.legal D = true) {d : Descriptor}
    (hd : d ∈ x.template.fields) {k : Key} (hk : kindKey d.kind = some k) :
    (isImplied d.kind = false → d.kind ≠ .dataHigh → x.code.regs.get k = x.values.get k ∧ x.code.regs.has k = true) ∧
    (isImplied d.kind = true → x.code.regs.get k = d.value ∧ x.code.regs.has k = true) ∧
    (d.kind = .dataHigh → x.code.regs.has k = true → x.code.regs.get k = x.values.get k) := by
  obtain ⟨-, -, himp, -, -, -, huniq, -, -, -⟩ :=
    template_checks (validRom_template hv (List.mem_of_getElem? (legal_index hx))).1
  refine encodeFields_get_mem hd hk (of_decide_eq_true huniq) (fun hi => ?_) (by cases k <;> rfl)
  have hd' := List.all_eq_true.1 himp d hd
  rw [if_pos hi, Bool.and_eq_true, decide_eq_true_eq] at hd'
  exact hd'.2

end items

end Sys2Proof.Machine

namespace Sys2Proof.Proofs
open Sys2Proof.Machine

/-- Settles O23: each step commits the next instruction's record, and what it reads stands where the last one ended. -/
theorem encodedSequenceDecodesBack : Obligations.EncodedSequenceDecodesBack := by
  intro s is hr hq hs hwf hfit hb
  obtain ⟨t, rs, hrun, hc, hrs⟩ := runSteps_over_encoded is s hr hq hs hwf hfit hb
  exact ⟨t, rs, hrun, hc.outq, hrs, hc.pos, hc.runState.trans hr, hc.buf, hc.bufLen⟩

/-- Settles O60: the attempt over an item's encoding completes with the item's registers, and it is the first that does. -/
theorem encodedTemplatesDecodeBack : Obligations.EncodedTemplatesDecodeBack := by
  intro w D s xs hv hr hs hlegal hfit hb hlow
  refine ⟨?_, fun x hx d hd k hk => item_code_get hv (hlegal x hx) hd hk⟩
  obtain ⟨t, hrun, hc⟩ := runSteps_over_items hv xs s hr hs hlegal hfit hb hlow
  exact ⟨t, hrun, hc.outq, hc.pos, recordsFrom_length xs _ ▸ hc.instCount, hc.runState.trans hr, hc.buf, hc.bufLen⟩

/-- Settles O11: the placed bytes are fetched whole, and BUF_LEN behind them keeps the run going. -/
theorem placedWordIsRunNext : Obligations.PlacedWordIsRunNext := by
  intro s nbits w i hwf hi
  obtain ⟨rest, hd⟩ := decode_of_decodeTableWord hi
  have hlen := tableBytes_length nbits w
  obtain ⟨a, s', hload, hr, hbuf, hfit⟩ := loadBytes_cases (bs := tableBytes nbits w) (by rw [hlen]; decide) s
  rw [State.withFetchWord, hload, step_of_no_host_action rfl]
  refine engineStep_of_decode hr (fun he => ?_) (rest := rest) ?_
  · have hend := placeAt_bufLen_toNat s' hfit
    rw [← he, placeAt_pos] at hend
    omega
  · rw [fetchBytes_placeAt hlen hfit (hbuf ▸ hwf), hd]

/-- Settles O12: the default ROM is valid, and the two engines are one function. -/
theorem stepIsTheTemplateEngine : Obligations.StepIsTheTemplateEngine := by
  intro s
  rw [stepOf_of_valid validRom_defaultDesign, step, engineStep_eq_engineStepOf]

/-- Settles O16: with no completed attempt to choose, the position step enters the failure state. -/
theorem failedPositionEndsTheRun : Obligations.FailedPositionEndsTheRun := by
  intro w D s hr hp hno
  obtain ⟨hnone, heoi⟩ := attempts_of_none_ok hno
  refine ⟨(attempts D s).1, ?_, heoi, engineStepOf_quiescent nofun⟩
  rw [engineStepOf_position hr hp, positionStep_of_none hnone]
  rfl

/-- Settles O18: the decoder rejects the bytes for want of input, so the failed step reports it. -/
theorem truncatedInstructionFails : Obligations.TruncatedInstructionFails := by
  intro s i n hr hq hi h0 hn hlen hb
  obtain ⟨hbytes, -, h4⟩ := encode_length hi
  have htake : ((encode i).take n).length = n := by rw [List.length_take]; omega
  have hfetch : s.fetchBytes = (encode i).take n := by
    have h := fetchFrom_of_holds (inp := s.input) (4 - n) hb (by rw [htake]; exact hlen.ge)
    rw [htake, Nat.add_sub_cancel' (by omega), fetchFrom_past (inp := s.input) _ hlen.le, List.append_nil] at h
    exact (fetchBytes_eq s).trans h
  have hne : s.pos ≠ s.bufLen := fun he => by rw [he] at hlen; omega
  exact rejectedBytesFailTheRun s .endOfInput hr hne hq (hfetch ▸ decode_truncated hi h0 hn)

/-- Settles O20: the step is one Commit of the bytes the completed attempt consumed. -/
theorem validDesignStepAdvances : Obligations.ValidDesignStepAdvances := by
  intro w D s t hv hp h hr
  obtain ⟨r, n, hc, hoff, hlen, h1, hfit⟩ := engineStepOf_running hv hp h hr
  refine ⟨r, hc.outq, hoff, hlen.symm ▸ h1, hlen.symm ▸ hc.pos, ?_, hc.instCount⟩
  rw [hc.pos, hc.bufLen]
  exact hfit

/-- Settles O21: the attempt ends a whole number of bytes behind POS, so at bit 0. -/
theorem validTemplatesConsumeWholeBytes : Obligations.ValidTemplatesConsumeWholeBytes := by
  intro w D inp pos t h h' hv ht he
  obtain ⟨n, h1, h15, hpos⟩ := valid_attempt hv ht he
  rw [consumedBits_of_position hpos]
  refine ⟨Nat.dvd_mul_right 8 n, by omega, by omega, BitVec.eq_of_toNat_eq ?_⟩
  have hbit := h'.cur.bit.isLt
  rw [Cursor.position] at hpos
  change h'.cur.bit.toNat = 0
  omega

/-- Settles O22, by induction on the bytes that remain. -/
theorem runReachesTerminalState : Obligations.RunReachesTerminalState :=
  fun s hr hp hq hs => step_reaches_terminal _ s hr hp hq hs (Nat.le_refl _)

/-- Settles O24: the loop from index 0 with EOI_ACC cleared. -/
theorem parallelEvaluationAgrees : Obligations.ParallelEvaluationAgrees := by
  intro w D s
  have h := tryAll_parallel (D := D) (inp := s.input) (pos := s.pos) s.hidden D.rom 0 { s.hidden with eoiAcc := false }
  simp only [Nat.zero_add, Bool.false_or] at h
  exact h

/-- Settles O25: every attempt begins by clearing what the last one wrote. -/
theorem attemptsLeaveNoTrace : Obligations.AttemptsLeaveNoTrace :=
  fun _ D inp pos t h _ hti he => ⟨tryTemplate_hidden D inp pos t hti he, tryTemplate_frame D inp pos t h⟩

/-- Settles O31, over the engine's own step and the actions of the host. -/
theorem stepStopsOnlyByName : Obligations.StepStopsOnlyByName := by
  intro s
  cases hq : s.host.queue with
  | nil =>
    rw [step_of_no_host_action hq]
    obtain h | ⟨h, hr⟩ | ⟨h, hr, hp, hs⟩ := engineStep_answers s
    · exact .inl h
    · exact .inr (.inl ⟨h, rfl, hr⟩)
    · exact .inr (.inr (.inl ⟨h, rfl, hr, hp, hs⟩))
  | cons act q =>
    rw [step_of_queue hq]
    cases act with
    | writeBuf a b =>
      obtain h | ⟨h, hr⟩ | ⟨h, hr, ha⟩ := hostWriteBuf_answers a b (withQueue q s)
      · exact .inl h
      · exact .inr (.inr (.inr (.inl ⟨h, hr, a, b, q, rfl⟩)))
      · have hlast : a = 65535 := BitVec.eq_of_toNat_eq (Nat.le_antisymm (Nat.le_of_lt_succ a.isLt) ha)
        exact .inr (.inr (.inr (.inr ⟨h, hr, b, q, by rw [hlast]⟩)))
    | engineTurn => exact .inl (engineTurn_goes_on (withQueue q s))
    | writeCsr n v => exact .inl ⟨_, rfl⟩
    | readCsr n => exact .inl ⟨_, rfl⟩
    | setReady r => exact .inl ⟨_, rfl⟩
    | drain => exact .inl ⟨_, rfl⟩
    | reset f cells => exact .inl ⟨_, rfl⟩

/-- Settles O8: a meaning is one Commit. -/
theorem meaningsChangeNothingElse : Obligations.MeaningsChangeNothingElse := by
  intro i s t h
  obtain ⟨-, tag, ti, regs, d, -, rfl⟩ := exec_cases h
  exact ⟨fun _ => rfl, rfl, rfl, rfl, rfl, rfl, rfl, _, rfl⟩

/-- Settles O9: a meaning is one Commit, which waits for the sink. -/
theorem meaningsHoldWhileSinkNotReady : Obligations.MeaningsHoldWhileSinkNotReady :=
  fun i _ h => exec_hold i h

/-- Settles O10: a host queue changes neither the bytes at POS nor the sink's level. -/
theorem stepRunsTheDecodedInstruction : Obligations.StepRunsTheDecodedInstruction := by
  intro s i rest hr hp hd
  have hexec : ∀ q, engineStep (withQueue q s) = exec i (withQueue q s) :=
    fun q => engineStep_of_decode (s := withQueue q s) hr hp hd
  refine ⟨fun hq => ?_, fun q hq hs => ?_, fun q hq hs => ?_⟩
  · rw [step_of_no_host_action hq, engineStep_of_decode hr hp hd]
  · obtain ⟨t, ht⟩ := exec_next i (s := withQueue q s) hs
    rw [step_of_queue hq, ht]
    exact engineTurn_of_next ((hexec q).trans ht)
  · rw [step_of_queue hq]
    exact engineTurn_of_held ((hexec q).trans (exec_hold i hs))

/-- Settles O15: the invariant keeps FAIL_OFFSET and EOI 0 outside DONE_FAIL. -/
theorem runEndsAtBufLen : Obligations.RunEndsAtBufLen := by
  intro s hr hp hq
  have hno : s.runState ≠ .doneFail := by rw [hr]; decide
  refine ⟨(step_of_no_host_action hq).trans (engineStep_finish hr hp), fun hs => ⟨?_, ?_⟩,
    (step_of_no_host_action (s := { s with runState := .doneOk }) hq).trans (engineStep_quiescent nofun)⟩
  · exact not_not.1 fun h => hno (hs.offset_fail h)
  · exact Bool.eq_false_iff.2 fun h => hno (hs.eoi_fail h)

/-- Settles O19: the engine answers quiescent, which inside a queue passes the turn. -/
theorem noEngineStepUnlessRunning : Obligations.NoEngineStepUnlessRunning := by
  intro s hr
  refine ⟨fun hq => ?_, fun q hq => ?_⟩
  · rw [step_of_no_host_action hq, engineStep_quiescent hr]
  · exact (step_of_queue hq).trans (engineTurn_of_quiescent (engineStep_quiescent hr))

/-- Settles O47: of the CSR writes, only START changes RUN_STATE. -/
theorem startBeginsARunAtZero : Obligations.StartBeginsARunAtZero := by
  refine ⟨fun s v q hq hv hr => ?_, fun n v s _ hno => ?_⟩
  · exact (step_of_queue hq).trans (congrArg Host.Outcome.next (csrWrite_start hv hr))
  · obtain h | ⟨hn, hv, -, -⟩ | ⟨-, -, h⟩ := csrWrite_cases n v s
    · rw [h]
    · exact absurd ⟨hn, hv⟩ hno
    · rw [h]

/-- Settles O48: START and BUF_LEN are the only writes, and neither is taken during a run. -/
theorem csrWritesIgnoredWhileRunning : Obligations.CsrWritesIgnoredWhileRunning :=
  fun n v _ hr => csrWrite_running n v hr

/-- Settles O58: START leads to POS 0, which is BUF_LEN, so the engine's first step ends the run. -/
theorem emptyBufferSucceeds : Obligations.EmptyBufferSucceeds := by
  intro s hr hl hq
  have hstart : step s = .next (startRun (withQueue [] s)) :=
    (step_of_queue hq).trans (congrArg Host.Outcome.next (csrWrite_start (by decide) hr))
  have hfinish : step (startRun (withQueue [] s)) = .next (finishRun (startRun (withQueue [] s))) :=
    (step_of_no_host_action rfl).trans (engineStep_finish rfl hl.symm)
  exact ⟨_, (runSteps_of_next hstart 1).trans (runSteps_of_next hfinish 0), rfl, rfl, rfl, rfl, rfl, rfl,
    statusWord_toNat _⟩

end Sys2Proof.Proofs
end

/-! SUPPORT and CERTIFICATES. The two templates of the default ROM (43_templates.md): the state each meaning leaves (R230,
R231), and that no input completes both (R233). -/

section
namespace Sys2Proof.Machine

/-! ### The Commit of a completed attempt (42_decode_engine.md R196) -/

theorem Cursor.ofPosition_advanced {w : Nat} (pos : Offset w) (n : Nat) :
    (Cursor.ofPosition (8 * (pos.toNat + n)) : Cursor w) = ⟨pos + BitVec.ofNat w n, 0⟩ := by
  rw [Cursor.ofPosition_aligned, BitVec.ofNat_add, BitVec.ofNat_toNat, BitVec.setWidth_eq]

/-- The Commit of a completed attempt writes POS, INST_COUNT, OUTQ and the hidden registers, and nothing else. -/
theorem commit_attemptDone {s : State} (hs : s.host.ready = true) (tag : BitVec 8) (ti : BitVec 4) (f : FieldRegs) (d : Disp) :
    commit tag (8 * (2 + dispBytes d)) (attemptDone ti f d s) = .next
      { s with
        pos := s.pos + BitVec.ofNat 16 (2 + dispBytes d)
        instCount := s.instCount + 1
        outq := s.outq ++ [⟨tag, ti, s.pos, BitVec.ofNat 4 (2 + dispBytes d), f, dispLenOf d, dispValue d⟩]
        hidden := ⟨⟨s.pos + BitVec.ofNat 16 (2 + dispBytes d), 0⟩, ti, false, f, dispValue d, dispLenOf d⟩ } := by
  rw [commit_ready tag _ (s := attemptDone ti f d s) hs, committed, ceil8_bytes, attemptDone, Nat.add_assoc,
    Cursor.ofPosition_advanced]
  rfl

/-! ### Where an attempt completes (43_templates.md R233) -/

section completed
variable {w : Nat} {D : Design} {inp : Input w} {pos : Offset w} {h h' : Hidden w}

theorem Attempt.ne_ok_of_fails {a : Attempt w} {e : AttemptFail} (hf : ∃ g, a = .fail e g) : a ≠ .ok h' := by
  obtain ⟨g, rfl⟩ := hf
  nofun

/-- A MOV attempt completes only over a MOV opcode byte below BUF_LEN. -/
theorem movByte_of_mov_attempt_ok (hok : tryTemplate D inp pos movTemplate h = .ok h') :
    pos.toNat < inp.bufLen.toNat ∧ isMovByte (inp.buf.read pos.toNat) = true := by
  have h0 : pos.toNat < inp.bufLen.toNat :=
    Nat.lt_of_not_le fun hempty => Attempt.ne_ok_of_fails (mov_attempt_empty h hempty) hok
  exact ⟨h0, Bool.of_not_eq_false fun hother => Attempt.ne_ok_of_fails (mov_attempt_mismatch h h0 hother) hok⟩

/-- A PUSH attempt completes only over the PUSH opcode byte below BUF_LEN. -/
theorem pushByte_of_push_attempt_ok (hok : tryTemplate D inp pos pushTemplate h = .ok h') :
    pos.toNat < inp.bufLen.toNat ∧ isPushByte (inp.buf.read pos.toNat) = true := by
  have h0 : pos.toNat < inp.bufLen.toNat :=
    Nat.lt_of_not_le fun hempty => Attempt.ne_ok_of_fails (push_attempt_empty h hempty) hok
  exact ⟨h0, Bool.of_not_eq_false fun hother => Attempt.ne_ok_of_fails (push_attempt_mismatch h h0 hother) hok⟩

end completed

theorem isPushByte_not_mov {b : Byte} (h : isPushByte b = true) : isMovByte b = false :=
  Bool.eq_false_iff.2 fun hm => Bool.false_ne_true ((isMovByte_not_push hm).symm.trans h)

end Sys2Proof.Machine

namespace Sys2Proof.Proofs
open Sys2Proof.Machine

/-- Settles O6: a MOV is the Commit of template 0's completed attempt. -/
theorem movCommitsItsRecord : Obligations.MovCommitsItsRecord :=
  fun w mod reg rm disp _ hs => commit_attemptDone hs tagMov 0 (movRegs w mod reg rm) disp

/-- Settles O7: a PUSH is the Commit of template 1's completed attempt. -/
theorem pushCommitsItsRecord : Obligations.PushCommitsItsRecord :=
  fun mod rm disp _ hs => commit_attemptDone hs tagPush 1 (pushRegs mod rm) disp

/-- Settles O26: the completed attempt's opcode byte is there, and it is not the other template's. -/
theorem defaultTemplatesAreDisjoint : Obligations.DefaultTemplatesAreDisjoint := by
  intro inp pos h h'
  refine ⟨fun hmov => ?_, fun hpush => ?_⟩
  · obtain ⟨h0, hm⟩ := movByte_of_mov_attempt_ok hmov
    exact push_attempt_mismatch h h0 (isMovByte_not_push hm)
  · obtain ⟨h0, hp⟩ := pushByte_of_push_attempt_ok hpush
    exact mov_attempt_mismatch h h0 (isPushByte_not_mov hp)

end Sys2Proof.Proofs
end

/-! SUPPORT and CERTIFICATES. Exceptions and instances (60_exceptions.md): the completion level (R259), and several blocks at
once (R263). -/

section
namespace Sys2Proof.Machine

/-! ### The completion level (R259) -/

/-- Of the four RUN_STATE codes, just the terminal states' are 2 and 3. -/
theorem done_iff_terminal {w : Nat} (s : State w) : s.done = true ↔ s.terminal := by
  unfold State.done State.terminal
  cases s.runState <;> decide

@[simp] theorem startRun_done {w : Nat} (s : State w) : (startRun s).done = false := rfl

/-! ### Several blocks (R263) -/

section blocksStep
variable {w : Nat} {D : Design} {i : Nat} {bs : List (State w)} {s : State w}

/-- A block's step replaces that block in the list and nothing else. -/
theorem blocksStep_next {s' : State w} (hs : bs[i]? = some s) (h : stepOf D s = .next s') :
    blocksStep D i bs = .next (bs.set i s') := by simp only [blocksStep, hs, h]

theorem blocksStep_fault {f : Fault} (hs : bs[i]? = some s) (h : stepOf D s = .fault f) :
    blocksStep D i bs = .fault f := by simp only [blocksStep, hs, h]

theorem blocksStep_refused {r : Refusal} (hs : bs[i]? = some s) (h : stepOf D s = .refused r) :
    blocksStep D i bs = .refused r := by simp only [blocksStep, hs, h]

end blocksStep

end Sys2Proof.Machine

namespace Sys2Proof.Proofs
open Sys2Proof.Machine

/-- Settles O59: the new list is the old one with block i replaced. -/
theorem blocksShareNoState : Obligations.BlocksShareNoState := by
  intro w D i bs s hs
  refine ⟨fun s' h => ⟨bs.set i s', blocksStep_next hs h, ?_, List.length_set, fun j hj => ?_⟩,
    fun _ => blocksStep_fault hs, fun _ => blocksStep_refused hs⟩
  · obtain ⟨hi, -⟩ := List.getElem?_eq_some_iff.1 hs
    exact List.getElem?_set_self hi
  · exact List.getElem?_set_ne hj.symm

/-- Settles O51: the level is decided by RUN_STATE, which START makes RUNNING. -/
theorem doneLevel : Obligations.DoneLevel := by
  intro v s
  refine ⟨done_iff_terminal s, rfl, fun hv hr => ?_⟩
  rw [csrWrite_start hv hr, startRun_done]

end Sys2Proof.Proofs
end

/-! SUPPORT and CERTIFICATES. Reset as a host action (70_reset_and_hazards.md R280): which record is in flight, and the state
the action leaves. -/

section
namespace Sys2Proof.Machine

/-! ### The record in flight (93_implementation_defined.md U4, log 7) -/

section inFlight
variable {w : Nat} {engine : State w → Outcome w} {s : State w}

theorem recordInFlight_of_cons {r : Record w} {rs : List (Record w)} (ho : s.outq = r :: rs) :
    recordInFlight engine s = some r := by rw [recordInFlight, ho]

theorem recordInFlight_of_ready (ho : s.outq = []) (hr : s.host.ready = true) : recordInFlight engine s = none := by
  simp only [recordInFlight, ho, hr, if_true]

/-- With the sink not ready and OUTQ empty, it is the record the engine would commit were the sink ready. -/
theorem recordInFlight_of_held {t : State w} (ho : s.outq = []) (hr : s.host.ready = false)
    (ht : engine (setReady true s) = .next t) : recordInFlight engine s = t.outq.head? := by
  simp only [recordInFlight, ho, hr, Bool.false_eq_true, if_false, ht]

end inFlight

/-- The record in flight of a run that holds a Commit is the one the decoded instruction's meaning appends once the sink is
ready. -/
theorem recordInFlight_of_decode {s : State} {i : Instr} {rest : List Byte} (ho : s.outq = []) (hs : s.host.ready = false)
    (hr : s.runState = .running) (hp : s.pos ≠ s.bufLen) (hd : decode s.fetchBytes = .ok i rest) :
    ∃ r u, recordInFlight engineStep s = some r ∧ exec i (setReady true s) = .next u ∧ u.outq = [r] := by
  obtain ⟨u, hu⟩ := exec_next i (s := setReady true s) rfl
  obtain ⟨r, hq, -⟩ := exec_commits hu
  have hone : u.outq = [r] := by rw [hq, setReady_outq, ho, List.nil_append]
  have hstep : engineStep (setReady true s) = .next u := (engineStep_of_decode (s := setReady true s) hr hp hd).trans hu
  exact ⟨r, u, by rw [recordInFlight_of_held ho hs hstep, hone, List.head?_cons], hu, hone⟩

/-! ### The state a reset leaves (R280, 10_state.md R50) -/

/-- BUF of a reset block reads as the action's list: a byte it does not list reads 0 (U5). -/
theorem hostReset_buf_read {w a : Nat} (engine : State w → Outcome w) (f : Bool) (cells : List Host.Cell) (s : State w)
    (ha : a < Config.bufSize w) :
    (hostReset engine f cells s).buf.read a = ((cells.find? (fun c => c.1 == a)).map Prod.snd).getD 0 :=
  Memory.read_ofCells cells ha

theorem hostReset_false_taken {w : Nat} (engine : State w → Outcome w) (cells : List Host.Cell) (s : State w) :
    (hostReset engine false cells s).host.taken = s.host.taken := List.append_nil _

theorem hostReset_true_taken {w : Nat} (engine : State w → Outcome w) (cells : List Host.Cell) (s : State w) :
    (hostReset engine true cells s).host.taken = s.host.taken ++ (recordInFlight engine s).toList := rfl

end Sys2Proof.Machine

namespace Sys2Proof.Proofs
open Sys2Proof.Machine

/-- Settles O46: the step is the reset action, and the record in flight is found in the state that action interrupts. -/
theorem resetActionResetsTheBlock : Obligations.ResetActionResetsTheBlock := by
  intro s f cells q hq
  have hbuf := fun a (ha : a < 65535) => hostReset_buf_read engineStep f cells (withQueue q s) (a := a) ha
  refine ⟨hostReset engineStep f cells (withQueue q s), step_of_queue hq, rfl, rfl, rfl, rfl, rfl, rfl, rfl, rfl, rfl, rfl,
    rfl, hbuf, ?notTaken, ?taken, ?head, ?ready, ?held⟩
  case notTaken => rintro rfl; exact hostReset_false_taken engineStep cells (withQueue q s)
  case taken => rintro rfl; exact hostReset_true_taken engineStep cells (withQueue q s)
  case head => exact fun _ _ ho => recordInFlight_of_cons ho
  case ready => exact fun ho hs => recordInFlight_of_ready ho hs
  case held => exact fun _ _ ho hs hr hp hd => recordInFlight_of_decode (s := withQueue q s) ho hs hr hp hd

end Sys2Proof.Proofs
end
